-- ==== Sys2Proof/Word.lean ====
section
/-!
DEFINITION. The words the block computes on: unsigned integers of the widths that 10_state.md gives its
state elements (00_scope.md R10, R17). A byte sequence (R11) is a list of bytes.
-/

namespace Sys2Proof

/-- A command word or a register of the window, CMD_W = 32 bits (00_scope.md R8). -/
abbrev Word := BitVec 32

/-- An 8-bit unsigned value (00_scope.md R11). -/
abbrev Byte := BitVec 8

/-- A code of the dictionaries; VAL_W = 24 bits hold every legal one (00_scope.md R8, R12). -/
abbrev Code := BitVec 24

/-- A value of NEXT_CODE, 25 bits: one more than a code, because 2^24 itself is held at saturation (10_state.md R30). -/
abbrev CodeCount := BitVec 25

/-- A finite list of bytes, `Seq` of 00_scope.md R11. -/
abbrev Bytes := List Byte

end Sys2Proof
end

