-- ==== Sys2Proof/Config.lean ====
section
/-!
DEFINITION. The implementation parameters of 00_scope.md R8. The fixed ones are plain numbers. BASE, IN_DEPTH and
OUT_DEPTH are OPEN and no behaviour depends on them: they are constants without a body, and no definition
reads them. MAXB_LIMIT and CQ_DEPTH, on which behaviour does depend, are fields of State (log 3).
-/

namespace Sys2Proof.Config

/-- MAXB_MIN: the smallest legal MAX_BITS (00_scope.md R8). -/
def maxbMin : Nat := 9

/-- The largest value MAXB_LIMIT may take (00_scope.md R8: "any integer in [9, 24]"). -/
def maxbLimitTop : Nat := 24

/-- The spec's default for MAXB_LIMIT (00_scope.md R8). -/
def maxbLimitDefault : Nat := 24

/-- VAL_W: the width of the integer domain of write_bits and read_bits (00_scope.md R8). -/
def valW : Nat := 24

/-- ADAPT_START_W: the first code width of an adaptive pass (00_scope.md R8). -/
def adaptStartW : Nat := 9

/-- NSINGLE: codes below it are bound to single bytes (00_scope.md R8). -/
def nSingle : Nat := 256

/-- The MAX_BITS that CONFIG takes at reset when MAXB_LIMIT allows it (10_state.md R32). -/
def resetMaxBits : Nat := 12

/-- CQ_DEPTH of the machine as `State.reset` builds it. DESIGN CHOICE, log 3: 00_scope.md R8 leaves the depth OPEN. -/
def cqDepthAtReset : Nat := 16

/-- BASE, OPEN: the window's base address on the host bus (00_scope.md R8, 93_implementation_defined.md I21; log 4). -/
opaque base : Nat

/-- IN_DEPTH, OPEN: the depth of the IN buffer, which changes timing only (20_memory.md R66; log 4). -/
opaque inDepth : Nat

/-- OUT_DEPTH, OPEN: the depth of the OUT buffer, which changes timing only (20_memory.md R66, R68; log 4). -/
opaque outDepth : Nat

end Sys2Proof.Config
end

