-- ==== Sys2Proof/Syntax.lean ====
section
/-!
DEFINITION. The command set LZWC-CMD edition 1: one constructor for each row of spec/opcode_table.json, in the table's
order, with the operands of 30_encoding.md R96.
-/

namespace Sys2Proof

/-- One command with its operands (30_encoding.md R93 to R98). -/
inductive Instr where
  /-- NOP (44_control.md R251). -/
  | nop
  /-- SOFT_RESET (44_control.md R253). -/
  | softReset
  /-- CFG max_bits, adaptive (44_control.md R254). -/
  | cfg (maxBits : BitVec 8) (adaptive : Bool)
  /-- ENC_START (42_encode.md R192). -/
  | encStart
  /-- ENC_STEP (42_encode.md R193). -/
  | encStep
  /-- ENC_RUN (42_encode.md R203). -/
  | encRun
  /-- DEC_START (43_decode.md R222). -/
  | decStart
  /-- DEC_STEP (43_decode.md R225). -/
  | decStep
  /-- DEC_RUN (43_decode.md R236). -/
  | decRun
  /-- BS_FLUSH (40_bitstream.md R150). -/
  | bsFlush
  /-- BS_WRITE width, value (40_bitstream.md R151). -/
  | bsWrite (width : BitVec 5) (value : BitVec 24)
  /-- BS_READ width (40_bitstream.md R153). -/
  | bsRead (width : BitVec 5)
  deriving DecidableEq, Repr

/-- The pseudo-instructions of 30_encoding.md R103. -/
inductive Pseudo where
  /-- `COMPRESS m, a`. -/
  | compress (maxBits : BitVec 8) (adaptive : Bool)
  /-- `DECOMPRESS m, a`. -/
  | decompress (maxBits : BitVec 8) (adaptive : Bool)
  deriving DecidableEq, Repr

end Sys2Proof
end

