-- ==== Sys2Proof/WellFormed.lean ====
section
/-!
DEFINITION. Which terms of `Instr` are commands: the width field of BS_WRITE and BS_READ is at most VAL_W
(30_encoding.md R94, R95, R100 item 5). Every other operand is legal at every value its field can hold
(30_encoding.md R96: whether MAX_BITS is legal is decided when CFG executes).
-/

namespace Sys2Proof

/-- A width field that BS_WRITE and BS_READ accept (30_encoding.md R94, R95). -/
def legalWidth (w : BitVec 5) : Bool := decide (w.toNat ≤ Config.valW)

/-- The commands that have an encoding (30_encoding.md R100). -/
def Instr.wellFormed : Instr → Bool
  | .nop => true
  | .softReset => true
  | .cfg _ _ => true
  | .encStart => true
  | .encStep => true
  | .encRun => true
  | .decStart => true
  | .decStep => true
  | .decRun => true
  | .bsFlush => true
  | .bsWrite w _ => legalWidth w
  | .bsRead w => legalWidth w

end Sys2Proof
end

