-- ==== Sys2Proof/Decode.lean ====
section
/-!
DEFINITION. The decoder of 30_encoding.md R99, total on every 32-bit word and rejecting by name (R100), and after it the
encoder written from the same tables (R93 to R98). Last, the expansion of the pseudo-instructions (R103) and the
numbering of spec/opcode_table.json. The assembler's lines (R101) are in Machine/Assembler.lean.
-/

namespace Sys2Proof

/-- Why a word is ILLEGAL: the six items of 30_encoding.md R100. -/
inductive Illegal where
  /-- Item 1: OPC is 0b011 to 0b111. -/
  | reservedOpc
  /-- Item 2: OPC is 0b000 with an FN that R98 does not list. -/
  | reservedFn
  /-- Item 3: CFG with ARG[23:9] not zero. -/
  | cfgReservedBits
  /-- Item 4: any other listed FN with ARG not zero. -/
  | argNotZero
  /-- Item 5: BS_WRITE or BS_READ with WIDTH above 24. -/
  | widthTooLarge
  /-- Item 6: BS_READ with ARG not zero. -/
  | readArgNotZero
  deriving DecidableEq, Repr

/-- OPC = CW[31:29] (30_encoding.md R92). -/
def opcOf (cw : Word) : BitVec 3 := cw.extractLsb' 29 3

/-- CW[28:24]: FN for OPC 0b000, WIDTH for OPC 0b001 and 0b010 (30_encoding.md R92). -/
def fnOf (cw : Word) : BitVec 5 := cw.extractLsb' 24 5

/-- ARG = CW[23:0] (30_encoding.md R92). -/
def argOf (cw : Word) : BitVec 24 := cw.extractLsb' 0 24

/-- ARG[23:9], which CFG reserves (30_encoding.md R93). -/
def argHigh (arg : BitVec 24) : BitVec 15 := arg.extractLsb' 9 15

/-- ARG[8], ADAPTIVE of CFG (30_encoding.md R96). -/
def argAdaptive (arg : BitVec 24) : Bool := arg.getLsbD 8

/-- ARG[7:0], MAX_BITS of CFG (30_encoding.md R96). -/
def argMaxBits (arg : BitVec 24) : BitVec 8 := arg.extractLsb' 0 8

/-- The commands of the CTL group that have no operand, by FN (30_encoding.md R98); CFG is FN 0b00010. -/
def plainCommand (fn : BitVec 5) : Option Instr :=
  if fn = 0b00000#5 then some .nop
  else if fn = 0b00001#5 then some .softReset
  else if fn = 0b00100#5 then some .encStart
  else if fn = 0b00101#5 then some .encStep
  else if fn = 0b00110#5 then some .encRun
  else if fn = 0b01000#5 then some .decStart
  else if fn = 0b01001#5 then some .decStep
  else if fn = 0b01010#5 then some .decRun
  else if fn = 0b10000#5 then some .bsFlush
  else none

/-- The CTL group of 30_encoding.md R99 (OPC 0b000). -/
def decodeCtl (fn : BitVec 5) (arg : BitVec 24) : Except Illegal Instr :=
  if fn = 0b00010#5 then
    if argHigh arg = 0 then .ok (.cfg (argMaxBits arg) (argAdaptive arg)) else .error .cfgReservedBits
  else
    match plainCommand fn with
    | none => .error .reservedFn
    | some i => if arg = 0 then .ok i else .error .argNotZero

/-- `decode(CW)` of 30_encoding.md R99: one command with its operands, or ILLEGAL with the item of R100. -/
def decode (cw : Word) : Except Illegal Instr :=
  if opcOf cw = 0b000#3 then decodeCtl (fnOf cw) (argOf cw)
  else if opcOf cw = 0b001#3 then
    if legalWidth (fnOf cw) then .ok (.bsWrite (fnOf cw) (argOf cw)) else .error .widthTooLarge
  else if opcOf cw = 0b010#3 then
    if legalWidth (fnOf cw) then
      if argOf cw = 0 then .ok (.bsRead (fnOf cw)) else .error .readArgNotZero
    else .error .widthTooLarge
  else .error .reservedOpc

/-- The three fields of a command word put together (30_encoding.md R92). -/
def commandWord (opc : BitVec 3) (fn : BitVec 5) (arg : BitVec 24) : Word := opc ++ fn ++ arg

/-- The ARG of CFG: ADAPTIVE in bit 8, MAX_BITS in bits 7:0, the rest 0 (30_encoding.md R93). -/
def cfgArg (maxBits : BitVec 8) (adaptive : Bool) : BitVec 24 :=
  (0#15 ++ BitVec.ofBool adaptive ++ maxBits : BitVec 24)

/-- The word that spells a command (30_encoding.md R93 to R98). -/
def encode : Instr → Word
  | .nop => commandWord 0b000#3 0b00000#5 0
  | .softReset => commandWord 0b000#3 0b00001#5 0
  | .cfg m a => commandWord 0b000#3 0b00010#5 (cfgArg m a)
  | .encStart => commandWord 0b000#3 0b00100#5 0
  | .encStep => commandWord 0b000#3 0b00101#5 0
  | .encRun => commandWord 0b000#3 0b00110#5 0
  | .decStart => commandWord 0b000#3 0b01000#5 0
  | .decStep => commandWord 0b000#3 0b01001#5 0
  | .decRun => commandWord 0b000#3 0b01010#5 0
  | .bsFlush => commandWord 0b000#3 0b10000#5 0
  | .bsWrite w v => commandWord 0b001#3 w v
  | .bsRead w => commandWord 0b010#3 w 0

/-- The expansion of a pseudo-instruction (30_encoding.md R103). -/
def Pseudo.expand : Pseudo → List Instr
  | .compress m a => [.cfg m a, .encStart, .encRun]
  | .decompress m a => [.cfg m a, .decStart, .decRun]

/-- The instruction the decoder reads from the word that the opcode table numbers `w` (bit 0 least significant), all
of whose bits at and above `nbits` are 0. Every command is one 32-bit word (30_encoding.md R91). -/
def decodeTableWord (nbits w : Nat) : Option Instr :=
  match decode (BitVec.ofNat 32 (w % 2 ^ nbits)) with
  | .ok i => some i
  | .error _ => none

end Sys2Proof
end

