-- ==== Sys2Proof/Machine/State.lean ====
section
/-!
DEFINITION. The state of the block and of its ports as one record of plain data (10_state.md R54), every register at the
width 10_state.md gives it, with the model's own fields (agenda, hostData, outTaken, params, eosOwner; log 2, 3, 5, 6, 9), the
reasons a step can stop, and the state right after reset.
-/

namespace Sys2Proof.Machine

/-- PHASE (10_state.md R25). The values 5 and 6 of the 3-bit register are reserved and never held. -/
inductive Phase where
  /-- 0: no pass has started since reset. -/
  | idle
  /-- 1: an encode pass is consuming input. -/
  | encActive
  /-- 2: the encode pass has emitted its final code and flushed. -/
  | encDone
  /-- 3: a decode pass is reading codes. -/
  | decActive
  /-- 4: the decode pass ended normally. -/
  | decDone
  /-- 7: a command raised an error. -/
  | error
  deriving DecidableEq, Repr

/-- The four error kinds (60_exceptions.md R271). ERR = NONE is the absence of one. -/
inductive ErrKind where
  /-- 1: 60_exceptions.md R273. -/
  | invalidCode
  /-- 2: 60_exceptions.md R272. -/
  | illegalCmd
  /-- 3: 60_exceptions.md R275. -/
  | badConfig
  /-- 4: 60_exceptions.md R274. -/
  | badPhase
  deriving DecidableEq, Repr

/-- MATCH (10_state.md R31): VALID = 0 means the empty match. -/
structure MatchReg where
  valid : Bool
  code  : Code
  deriving DecidableEq, Repr

/-- CONFIG (10_state.md R32). -/
structure ConfigReg where
  maxBits  : BitVec 8
  adaptive : Bool
  deriving DecidableEq, Repr

/-- RESULT (10_state.md R35). -/
structure ResultReg where
  value   : BitVec 24
  valid   : Bool
  nodata  : Bool
  midcode : Bool
  deriving DecidableEq, Repr

/-- HDR (10_state.md R36). -/
structure HdrReg where
  byte  : Byte
  valid : Bool
  deriving DecidableEq, Repr

/-- The implementation parameters on which behaviour depends (00_scope.md R8). No step writes them (log 3). -/
structure Params where
  /-- MAXB_LIMIT, the largest legal MAX_BITS. -/
  maxbLimit : Nat
  /-- CQ_DEPTH, the depth of the command queue. -/
  cqDepth   : Nat
  deriving DecidableEq, Repr

/-- An internal memory of the block: key and value pairs, keys strictly rising (log 8). -/
abbrev Dict (β : Type) := List (Nat × β)

/-- What the host can do to the block in one move (10_state.md R21, 20_memory.md R62, R70, 70_reset_and_hazards.md R301, R311). -/
inductive HostMove where
  /-- A write of `data` to the window, `size` bits wide at byte offset `off`. -/
  | writeReg (size off : Nat) (data : Word)
  /-- A read of the window, `size` bits wide at byte offset `off`. -/
  | readReg (size off : Nat)
  /-- Push a byte onto IN. -/
  | pushIn (b : Byte)
  /-- Set InEOS. -/
  | setEos
  /-- Clear InEOS: between passes (20_memory.md R62), or a left-over one within a pass (70_reset_and_hazards.md R305 item 3). -/
  | clearEos
  /-- Discard the bytes left on IN (70_reset_and_hazards.md R305 item 3, R311). -/
  | discardIn
  /-- Drain up to `n` bytes from OUT. -/
  | drainOut (n : Nat)
  /-- Assert hardware reset. -/
  | hardReset
  deriving DecidableEq, Repr

/-- Whose move the next step is (10_state.md R21; log 2). -/
inductive Turn where
  /-- The block runs one cycle. -/
  | block
  /-- The host makes a move. -/
  | host (m : HostMove)
  deriving DecidableEq, Repr

/-- Whose input a set InEOS ends (20_memory.md R62, 70_reset_and_hazards.md R305 item 3, R309; model's own, log 9). -/
inductive EosOwner where
  /-- No START has run since the host set it outside a pass: it ends the input of the pass to come. -/
  | nextPass
  /-- It ends the input of the latest pass: set within it, or before its START with no START between. -/
  | thisPass
  /-- It is left over: a later START than the first after it was set, or after the pass it was set in, has run. -/
  | earlierPass
  deriving DecidableEq, Repr

/-- The owner after a START: a pass to come becomes the latest pass, and that one an earlier pass (log 9). -/
def EosOwner.atStart : EosOwner → EosOwner
  | .nextPass => .thisPass
  | .thisPass => .earlierPass
  | .earlierPass => .earlierPass

/-- The state as one record (10_state.md R54). -/
structure State where
  /-- CQ, head first (10_state.md R24). -/
  cq       : List Word
  /-- PHASE (10_state.md R25). -/
  phase    : Phase
  /-- ERR, `none` for NONE (10_state.md R26). -/
  err      : Option ErrKind
  /-- ERRCMD (10_state.md R27). -/
  errcmd   : Word
  /-- WIDTH (10_state.md R29). -/
  width    : BitVec 5
  /-- NEXT_CODE (10_state.md R30). -/
  nextCode : CodeCount
  /-- MATCH (10_state.md R31). -/
  matchReg : MatchReg
  /-- CONFIG (10_state.md R32). -/
  config   : ConfigReg
  /-- W_ACC (10_state.md R33). -/
  wAcc     : Byte
  /-- W_CNT (10_state.md R33). -/
  wCnt     : BitVec 3
  /-- R_BUF (10_state.md R34). -/
  rBuf     : Byte
  /-- R_CNT (10_state.md R34). -/
  rCnt     : BitVec 3
  /-- RESULT (10_state.md R35). -/
  result   : ResultReg
  /-- HDR (10_state.md R36). -/
  hdr      : HdrReg
  /-- CNT_IN (10_state.md R38). -/
  cntIn    : Word
  /-- CNT_OUT (10_state.md R38). -/
  cntOut   : Word
  /-- CNT_CODES (10_state.md R38). -/
  cntCodes : Word
  /-- ECHILD, keyed by parent code and byte (10_state.md R39). -/
  echild   : Dict Code
  /-- DTAB above the 256 singletons, keyed by code (10_state.md R40). -/
  dtab     : Dict Bytes
  /-- The queue of the IN port, head first (10_state.md R37, 20_memory.md R62). -/
  inQ      : List Byte
  /-- InEOS (20_memory.md R62). -/
  inEos    : Bool
  /-- Whose input the set InEOS ends, `none` while InEOS is clear (model's own, log 9). -/
  eosOwner : Option EosOwner
  /-- OUT_LOG, oldest byte first (10_state.md R37, 20_memory.md R64). -/
  outLog   : List Byte
  /-- How many bytes of OUT_LOG the host has drained from the OUT port (model's own, log 5). -/
  outTaken : Nat
  /-- The word that the host's last register read returned (model's own, log 6). -/
  hostData : Option Word
  /-- Whose moves the next steps are, first one first; empty means the block's (model's own, log 2). -/
  agenda   : List Turn
  /-- The implementation parameters (00_scope.md R8; log 3). -/
  params   : Params
  deriving DecidableEq, Repr

/-- The result of read_bits (40_bitstream.md R138). -/
inductive ReadResult where
  /-- `OK(v)`. -/
  | ok (v : BitVec 24)
  /-- `NODATA(mid)`; `mid` says whether the call took a byte from IN (40_bitstream.md R139). -/
  | nodata (mid : Bool)
  deriving DecidableEq, Repr

/-- How the body of a command ends in one cycle (44_control.md R256). -/
inductive Progress where
  /-- It completes: its word leaves CQ. -/
  | completes (s : State)
  /-- An iteration of a RUN that leaves the pass active: its word stays at the head of CQ. -/
  | continues (s : State)
  /-- It holds: nothing changes (20_memory.md R67). -/
  | holds
  /-- It raises an error: the error entry is taken and its word leaves CQ. -/
  | raises (k : ErrKind) (s : State)
  /-- It reads DTAB where 10_state.md R40 leaves it undefined (log 8). -/
  | undefinedRead
  deriving DecidableEq, Repr

/-- What stops a run. -/
inductive Fault where
  /-- Raised by DEC_STEP and DEC_RUN alone: the pass needs a sequence of DTAB at a code where 10_state.md R40 leaves DTAB
  undefined. Safe: the machine stops where the spec gives no effect, and no state that meets `State.Inv` reaches it. -/
  | undefinedEntry
  deriving DecidableEq, Repr

/-- What the model gives no meaning to. -/
inductive Refusal where
  /-- Raised by `exec`'s arm of an instruction that has no meaning yet; no arm raises it. Safe. -/
  | notModelled (mnemonic : String)
  /-- Raised by a host access of the window that is not an aligned 32-bit access at an offset in 0x00 to 0x3C
  (20_memory.md R70 item 5, 93_implementation_defined.md I17: `refuse`; log 10). Safe. -/
  | windowAccess
  /-- Raised by a host push of a byte after InEOS within a pass (93_implementation_defined.md I18: `refuse`; log 9). Safe. -/
  | pushAfterEos
  /-- Raised by a host move that clears InEOS or discards input within the pass whose own input the set InEOS ends, be it set
  before the START or after: 20_memory.md R62 and 70_reset_and_hazards.md R305, R309 give no leave for it (log 9). Safe. -/
  | inputReplacedInPass
  deriving DecidableEq, Repr

/-- CONFIG at reset: MAX_BITS = min(12, MAXB_LIMIT), ADAPTIVE = 0 (10_state.md R32). -/
def ConfigReg.atReset (maxbLimit : Nat) : ConfigReg :=
  { maxBits := BitVec.ofNat 8 (min Config.resetMaxBits maxbLimit), adaptive := false }

/-- RESULT with all fields 0 (10_state.md R35). -/
def ResultReg.cleared : ResultReg := { value := 0, valid := false, nodata := false, midcode := false }

/-- HDR with both fields 0 (10_state.md R36). -/
def HdrReg.cleared : HdrReg := { byte := 0, valid := false }

/-- The empty match, CODE = 0 (10_state.md R31). -/
def MatchReg.empty : MatchReg := { valid := false, code := 0 }

/-- The machine right after reset (10_state.md R53), with the default MAXB_LIMIT. The ports, which reset leaves as
they are, are empty at launch (DESIGN CHOICE, log 5); the model's own fields are as logs 2, 3 and 6 say. -/
def State.reset : State :=
  { cq := [], phase := .idle, err := none, errcmd := 0, width := 0, nextCode := 256, matchReg := .empty,
    config := .atReset Config.maxbLimitDefault, wAcc := 0, wCnt := 0, rBuf := 0, rCnt := 0,
    result := .cleared, hdr := .cleared, cntIn := 0, cntOut := 0, cntCodes := 0, echild := [], dtab := [],
    inQ := [], inEos := false, eosOwner := none, outLog := [], outTaken := 0, hostData := none, agenda := [],
    params := { maxbLimit := Config.maxbLimitDefault, cqDepth := Config.cqDepthAtReset } }

end Sys2Proof.Machine
end

