-- ==== Sys2Proof/Machine/Dictionary.lean ====
section
/-!
DEFINITION. The two internal memories (41_dictionaries.md): sorted maps, the trie's probe and extension (R166, R167), the
table's lookup and extension (R179, R180), and the sequences bound to codes (10_state.md R39, R40).
-/

namespace Sys2Proof.Machine

/-- The value bound to key `k`, if any. -/
def Dict.find {β : Type} : Dict β → Nat → Option β
  | [], _ => none
  | (k', v) :: rest, k => if k = k' then some v else Dict.find rest k

/-- Bind `k` to `v`, keeping the keys strictly rising. -/
def Dict.put {β : Type} : Dict β → Nat → β → Dict β
  | [], k, v => [(k, v)]
  | (k', v') :: rest, k, v =>
    if k < k' then (k, v) :: (k', v') :: rest
    else if k = k' then (k, v) :: rest
    else (k', v') :: Dict.put rest k v

/-- The canonical form: keys strictly rising. -/
def Dict.wf {β : Type} : Dict β → Bool
  | [] => true
  | (k, _) :: rest => rest.all (fun e => decide (k < e.1)) && Dict.wf rest

/-- The key of ECHILD for a parent code and a byte (10_state.md R39). -/
def trieKey (p : Code) (b : Byte) : Nat := p.toNat * 256 + b.toNat

/-- The code bound to the single byte `b` (00_scope.md R12). -/
def singleton (b : Byte) : Code := b.setWidth 24

/-- 2^MAX_BITS, the number of codes at saturation (00_scope.md R15). -/
def codeLimit (s : State) : Nat := 2 ^ s.config.maxBits.toNat

/-- The dictionary has not saturated: NEXT_CODE < 2^MAX_BITS (42_encode.md R196). -/
def unsaturated (s : State) : Bool := decide (s.nextCode.toNat < codeLimit s)

/-- `EChild(p, b)`, `none` for NOTFOUND (41_dictionaries.md R166). -/
def eChild (p : Code) (b : Byte) (s : State) : Option Code := s.echild.find (trieKey p b)

/-- `EInsertChild(p, b)` (41_dictionaries.md R167). -/
def eInsertChild (p : Code) (b : Byte) (s : State) : State :=
  { s with echild := s.echild.put (trieKey p b) (s.nextCode.setWidth 24), nextCode := s.nextCode + 1 }

/-- `lookup(s)` of the trie, from the code of a non-empty prefix on (41_dictionaries.md R162). -/
def trieLookupFrom (d : Dict Code) : Code → Bytes → Option Code
  | c, [] => some c
  | c, b :: rest =>
    match d.find (trieKey c b) with
    | none => none
    | some c' => trieLookupFrom d c' rest

/-- `lookup(s)` of the trie (41_dictionaries.md R162). -/
def trieLookup (d : Dict Code) : Bytes → Option Code
  | [] => none
  | b :: rest => trieLookupFrom d (singleton b) rest

/-- The parent code and the byte of the entry whose target is `c`, if any. -/
def trieParent : Dict Code → Code → Option (Code × Byte)
  | [], _ => none
  | (k, t) :: rest, c => if t = c then some (BitVec.ofNat 24 (k / 256), BitVec.ofNat 8 (k % 256)) else trieParent rest c

/-- `seqE(c)` (10_state.md R39), following at most `fuel` entries towards the root. -/
def seqEWithin (d : Dict Code) : Nat → Code → Option Bytes
  | 0, c => if c.toNat < Config.nSingle then some [c.setWidth 8] else none
  | fuel + 1, c =>
    if c.toNat < Config.nSingle then some [c.setWidth 8]
    else
      match trieParent d c with
      | none => none
      | some (p, b) => (seqEWithin d fuel p).map (· ++ [b])

/-- `seqE(c)`: the sequence bound to a code in an encode pass, `none` where no entry targets it (10_state.md R39). The
parent of a code is a smaller code, so `c` entries are enough. -/
def seqE (d : Dict Code) (c : Code) : Option Bytes := seqEWithin d c.toNat c

/-- DTAB at code `c`, `none` where it is undefined (10_state.md R40). -/
def dtabAt (d : Dict Bytes) (c : Nat) : Option Bytes :=
  if c < Config.nSingle then some [BitVec.ofNat 8 c] else d.find c

/-- DTAB with code `c` bound to `q`. Codes below 256 are permanently bound (00_scope.md R12), so they never change. -/
def dtabPut (d : Dict Bytes) (c : Nat) (q : Bytes) : Dict Bytes :=
  if c < Config.nSingle then d else d.put c q

/-- What `DGet` answers (41_dictionaries.md R179). -/
inductive Lookup where
  /-- The bound sequence. -/
  | found (q : Bytes)
  /-- NOTFOUND: the code is NEXT_CODE or more. -/
  | notFound
  /-- DTAB is undefined below NEXT_CODE, which 10_state.md R51 item 8 excludes (log 8). -/
  | undefined
  deriving DecidableEq, Repr

/-- `DGet(c)` (41_dictionaries.md R179). -/
def dGet (c : Code) (s : State) : Lookup :=
  if c.toNat < s.nextCode.toNat then
    match dtabAt s.dtab c.toNat with
    | some q => .found q
    | none => .undefined
  else .notFound

/-- `DExtend(q, b)` (41_dictionaries.md R180). -/
def dExtend (q : Bytes) (b : Byte) (s : State) : State :=
  if unsaturated s then
    { s with dtab := dtabPut s.dtab s.nextCode.toNat (q ++ [b]), nextCode := s.nextCode + 1 }
  else s

/-- Both dictionaries are in canonical form, and DTAB lists no code below 256. -/
def Memory.wf (s : State) : Bool :=
  s.echild.wf && s.dtab.wf && s.dtab.all (fun e => decide (Config.nSingle ≤ e.1))

end Sys2Proof.Machine
end

