-- ==== Sys2Proof/Machine/Ops.lean ====
section
/-!
DEFINITION. The shared operations: the two byte ports (20_memory.md R63, R64), the error entry and the error exits
(60_exceptions.md R276, R279; 42_encode.md R192; 44_control.md R253), and the removal of a word from CQ (44_control.md R256).
-/

namespace Sys2Proof.Machine

/-- `InAvail()` (20_memory.md R62). -/
def inAvail (s : State) : Nat := s.inQ.length

/-- `InPop()`: the head byte of IN and the state after it, `none` when IN is empty (20_memory.md R63). -/
def inPop (s : State) : Option (Byte × State) :=
  match s.inQ with
  | [] => none
  | b :: rest => some (b, { s with inQ := rest, cntIn := s.cntIn + 1 })

/-- `OutPush(b)` (20_memory.md R64). -/
def outPush (b : Byte) (s : State) : State :=
  { s with outLog := s.outLog ++ [b], cntOut := s.cntOut + 1 }

/-- `OutPush` of each byte in order (43_decode.md R225). -/
def outPushAll : Bytes → State → State
  | [], s => s
  | b :: rest, s => outPushAll rest (outPush b s)

/-- The bytes on the OUT port that the host has not drained (10_state.md R37, R21). -/
def outPort (s : State) : List Byte := s.outLog.drop s.outTaken

/-- CNT_CODES <- CNT_CODES + 1, modulo 2^32 (10_state.md R38). -/
def countCode (s : State) : State := { s with cntCodes := s.cntCodes + 1 }

/-- MATCH <- the code `c`, valid (10_state.md R31). -/
def setMatch (c : Code) (s : State) : State := { s with matchReg := { valid := true, code := c } }

/-- WIDTH <- WIDTH + 1 (42_encode.md R198, 43_decode.md R230). -/
def widen (s : State) : State := { s with width := s.width + 1 }

/-- PHASE <- `p`. -/
def setPhase (p : Phase) (s : State) : State := { s with phase := p }

/-- Remove the word at the head of CQ (44_control.md R256). -/
def popCq (s : State) : State := { s with cq := s.cq.tail }

/-- The error entry (60_exceptions.md R276): the first error since the last error exit is kept. -/
def errorEntry (k : ErrKind) (cw : Word) (s : State) : State :=
  if s.phase = .error then s
  else { s with err := some k, errcmd := cw, phase := .error }

/-- `start_common()` (42_encode.md R192), the error exit of ENC_START and DEC_START (60_exceptions.md R279). An
InEOS set for the pass to come is now this pass's, and one of the pass before is left over (`eosOwner`, log 9). -/
def startCommon (s : State) : State :=
  { s with
    phase := .idle, err := none, errcmd := 0, wAcc := 0, wCnt := 0, rBuf := 0, rCnt := 0,
    result := .cleared, hdr := .cleared, matchReg := .empty, cntIn := 0, cntOut := 0, cntCodes := 0,
    echild := [], dtab := [], nextCode := 256, eosOwner := s.eosOwner.map EosOwner.atStart,
    width := if s.config.adaptive then BitVec.ofNat 5 Config.adaptStartW else s.config.maxBits.setWidth 5 }

/-- Every element of block state but CQ at its reset value (10_state.md R53, 44_control.md R253). -/
def resetBlock (s : State) : State :=
  { s with
    phase := .idle, err := none, errcmd := 0, width := 0, nextCode := 256, matchReg := .empty,
    config := .atReset s.params.maxbLimit, wAcc := 0, wCnt := 0, rBuf := 0, rCnt := 0,
    result := .cleared, hdr := .cleared, cntIn := 0, cntOut := 0, cntCodes := 0, echild := [], dtab := [] }

end Sys2Proof.Machine
end

