-- ==== Sys2Proof/Machine/Operands.lean ====
section
/-!
DEFINITION. Operands and the checks on them: the truncation and the bit length of 00_scope.md R10, the range of MAX_BITS
(44_control.md R254), the phases in which each command is legal (44_control.md R255), the input a command needs
(20_memory.md R67), and the cycle that runs a command's body with these checks in their order (44_control.md R256,
60_exceptions.md R278).
-/

namespace Sys2Proof.Machine

/-- `trunc_w(v) = v mod 2^w` (00_scope.md R10). -/
def truncTo (w : Nat) (v : BitVec 24) : BitVec 24 := BitVec.ofNat 24 (v.toNat % 2 ^ w)

/-- `bitlen(n)`, the number of bits in the binary form of n, `bitlen(0) = 0` (00_scope.md R10). -/
def bitlen (n : Nat) : Nat := if n = 0 then 0 else Nat.log2 n + 1

/-- MAXB_MIN ≤ MAX_BITS ≤ MAXB_LIMIT (44_control.md R254). -/
def legalMaxBits (m : BitVec 8) (s : State) : Bool :=
  decide (Config.maxbMin ≤ m.toNat) && decide (m.toNat ≤ s.params.maxbLimit)

/-- `BITS_AVAIL = R_CNT + 8 · InAvail()` (20_memory.md R67). -/
def bitsAvail (s : State) : Nat := s.rCnt.toNat + 8 * inAvail s

/-- A read of `w` bits is enabled: `BITS_AVAIL ≥ w or InEOS` (20_memory.md R67). -/
def readEnabled (w : Nat) (s : State) : Bool := decide (w ≤ bitsAvail s) || s.inEos

/-- A byte, or the end of input, has arrived: `InAvail() > 0 or InEOS` (20_memory.md R67). -/
def inputReady (s : State) : Bool := decide (0 < inAvail s) || s.inEos

/-- An active pass: the phase is ENC_ACTIVE or DEC_ACTIVE (44_control.md R254, R255). -/
def Phase.inPass : Phase → Bool
  | .idle => false
  | .encActive => true
  | .encDone => false
  | .decActive => true
  | .decDone => false
  | .error => false

/-- The raw BitStream commands are legal in IDLE, ENC_DONE and DEC_DONE (40_bitstream.md R144). -/
def Phase.rawLegal : Phase → Bool
  | .idle => true
  | .encActive => false
  | .encDone => true
  | .decActive => false
  | .decDone => true
  | .error => false

/-- The table of 44_control.md R255: the phases in which each command is legal. -/
def legalIn : Instr → Phase → Bool
  | .nop, _ => true
  | .softReset, _ => true
  | .cfg _ _, p => !p.inPass
  | .encStart, _ => true
  | .encStep, p => decide (p = .encActive)
  | .encRun, p => decide (p = .encActive)
  | .decStart, _ => true
  | .decStep, p => decide (p = .decActive)
  | .decRun, p => decide (p = .decActive)
  | .bsFlush, p => p.rawLegal
  | .bsWrite _ _, p => p.rawLegal
  | .bsRead _, p => p.rawLegal

/-- The end of one cycle for a command whose body made this progress from `s` (44_control.md R256). -/
def finishCycle (cw : Word) (s : State) : Progress → Host.Outcome State Fault Refusal
  | .completes t => .next (popCq t)
  | .continues t => .next t
  | .holds => .next s
  | .raises k t => .next (popCq (errorEntry k cw t))
  | .undefinedRead => .fault .undefinedEntry

/-- One cycle of a decoded command: the phase check, then its body (44_control.md R256, 60_exceptions.md R278). The
command word is the command's own encoding (log 11). -/
def runCommand (i : Instr) (body : State → Progress) (s : State) : Host.Outcome State Fault Refusal :=
  if legalIn i s.phase then finishCycle (encode i) s (body s)
  else .next (popCq (errorEntry .badPhase (encode i) s))

/-- One iteration of a RUN: its word stays at the head of CQ while the phase is still `p` (42_encode.md R203,
43_decode.md R236, 44_control.md R256; log 14). -/
def runIteration (p : Phase) : Progress → Progress
  | .completes s => if s.phase = p then .continues s else .completes s
  | .continues s => .continues s
  | .holds => .holds
  | .raises k s => .raises k s
  | .undefinedRead => .undefinedRead

end Sys2Proof.Machine
end

