-- ==== Sys2Proof/Machine/Control.lean ====
section
/-!
DEFINITION. The control commands (44_control.md): NOP (R251), SOFT_RESET (R253) and CFG (R254).
-/

namespace Sys2Proof.Machine

/-- The body of NOP: no state change (44_control.md R251). -/
def nopBody (s : State) : Progress := .completes s

/-- NOP (44_control.md R251). -/
def execNop (s : State) : Host.Outcome State Fault Refusal := runCommand .nop nopBody s

/-- The body of SOFT_RESET: every element but CQ at its reset value (44_control.md R253). -/
def softResetBody (s : State) : Progress := .completes (resetBlock s)

/-- SOFT_RESET (44_control.md R253). -/
def execSoftReset (s : State) : Host.Outcome State Fault Refusal := runCommand .softReset softResetBody s

/-- CONFIG <- the operands (44_control.md R254). -/
def setConfig (m : BitVec 8) (a : Bool) (s : State) : State := { s with config := { maxBits := m, adaptive := a } }

/-- The body of CFG (44_control.md R254). -/
def cfgBody (m : BitVec 8) (a : Bool) (s : State) : Progress :=
  if legalMaxBits m s then .completes (setConfig m a s) else .raises .badConfig s

/-- CFG max_bits, adaptive (44_control.md R254). -/
def execCfg (m : BitVec 8) (a : Bool) (s : State) : Host.Outcome State Fault Refusal :=
  runCommand (.cfg m a) (cfgBody m a) s

end Sys2Proof.Machine
end

