-- ==== Sys2Proof/Machine/Flags.lean ====
section
/-!
DEFINITION. The status flags of 10_state.md R50 and the words the register window shows (R41 to R48): the fields RESULT
takes from a read (40_bitstream.md R153, 43_decode.md R226), BUSY (10_state.md R28), the numbers of PHASE and ERR (R25, R26)
and the layout of every register.
-/

namespace Sys2Proof.Machine

/-- RESULT.VALUE of a read: the value, or 0 for a no-data result (10_state.md R35). -/
def ReadResult.value : ReadResult → BitVec 24
  | .ok v => v
  | .nodata _ => 0

/-- RESULT.NODATA of a read (10_state.md R35). -/
def ReadResult.nodataFlag : ReadResult → Bool
  | .ok _ => false
  | .nodata _ => true

/-- RESULT.MIDCODE of a read (10_state.md R35). -/
def ReadResult.midcodeFlag : ReadResult → Bool
  | .ok _ => false
  | .nodata mid => mid

/-- Update RESULT from a completed read (40_bitstream.md R153, 43_decode.md R226). -/
def recordRead (r : ReadResult) (s : State) : State :=
  { s with result := { value := r.value, valid := true, nodata := r.nodataFlag, midcode := r.midcodeFlag } }

/-- BUSY: CQ is non-empty (10_state.md R28). -/
def busy (s : State) : Bool := !s.cq.isEmpty

/-- The number of a phase (10_state.md R25). -/
def Phase.bits : Phase → BitVec 3
  | .idle => 0
  | .encActive => 1
  | .encDone => 2
  | .decActive => 3
  | .decDone => 4
  | .error => 7

/-- The number of an error kind (10_state.md R26). -/
def errBits : Option ErrKind → BitVec 4
  | none => 0
  | some .invalidCode => 1
  | some .illegalCmd => 2
  | some .badConfig => 3
  | some .badPhase => 4

/-- STATUS (10_state.md R42). -/
def statusWord (s : State) : Word :=
  0#8 ++ BitVec.ofBool s.matchReg.valid ++ s.rCnt ++ 0#1 ++ s.wCnt ++ 0#3 ++ s.width ++ errBits s.err ++
    BitVec.ofBool (busy s) ++ s.phase.bits

/-- CONFIG (10_state.md R43). -/
def configWord (s : State) : Word := 0#23 ++ BitVec.ofBool s.config.adaptive ++ s.config.maxBits

/-- RESULT (10_state.md R44). -/
def resultWord (s : State) : Word :=
  0#5 ++ BitVec.ofBool s.result.midcode ++ BitVec.ofBool s.result.nodata ++ BitVec.ofBool s.result.valid ++ s.result.value

/-- NEXT_CODE (10_state.md R45). -/
def nextCodeWord (s : State) : Word := 0#7 ++ s.nextCode

/-- MATCH (10_state.md R46). -/
def matchWord (s : State) : Word := BitVec.ofBool s.matchReg.valid ++ 0#7 ++ s.matchReg.code

/-- HDR (10_state.md R48). -/
def hdrWord (s : State) : Word := 0#23 ++ BitVec.ofBool s.hdr.valid ++ s.hdr.byte

end Sys2Proof.Machine
end

