-- ==== Sys2Proof/Machine/Bitstream.lean ====
section
/-!
DEFINITION. The BitStream Codec (40_bitstream.md): the primitives write_bits, flush and read_bits (R133, R135, R138), and the
commands BS_FLUSH, BS_WRITE and BS_READ (R150, R151, R153).
-/

namespace Sys2Proof.Machine

/-- One turn of the loop of write_bits (40_bitstream.md R133). The count 8 is never stored: the byte is pushed at once. -/
def writeBit (b : Bool) (s : State) : State :=
  let acc : Byte := (s.wAcc <<< 1) ||| (BitVec.ofBool b).setWidth 8
  if s.wCnt.toNat + 1 = 8 then { outPush acc s with wAcc := 0, wCnt := 0 }
  else { s with wAcc := acc, wCnt := s.wCnt + 1 }

/-- `write_bits(v, w)`: bits w-1 down to 0 of v (40_bitstream.md R133). -/
def writeBits (v : BitVec 24) : Nat → State → State
  | 0, s => s
  | i + 1, s => writeBits v i (writeBit (v.getLsbD i) s)

/-- `flush()` (40_bitstream.md R135). -/
def flush (s : State) : State :=
  if 0 < s.wCnt.toNat then
    { outPush (s.wAcc <<< (8 - s.wCnt.toNat)) s with wAcc := 0, wCnt := 0 }
  else s

/-- The next bit of the reader, whether a byte was fetched for it, and the state after it; `none` when R_CNT = 0 and IN is
empty (40_bitstream.md R138). The count 8 is never stored: bit 7 of the byte is taken at once. -/
def readBit (s : State) : Option (Bool × Bool × State) :=
  if s.rCnt.toNat = 0 then
    match inPop s with
    | none => none
    | some (byte, t) => some (byte.getLsbD 7, true, { t with rBuf := byte, rCnt := 7 })
  else some (s.rBuf.getLsbD (s.rCnt.toNat - 1), false, { s with rCnt := s.rCnt - 1 })

/-- The loop of read_bits with `n` bits to go, `v` gathered so far, and `fetched` (40_bitstream.md R138). -/
def readLoop : Nat → BitVec 24 → Bool → State → ReadResult × State
  | 0, v, _, s => (.ok v, s)
  | n + 1, v, fetched, s =>
    match readBit s with
    | none => (.nodata fetched, s)
    | some (b, f, t) => readLoop n ((v <<< 1) ||| (BitVec.ofBool b).setWidth 24) (fetched || f) t

/-- `read_bits(w)` (40_bitstream.md R138). -/
def readBits (w : Nat) (s : State) : ReadResult × State := readLoop w 0 false s

/-- The body of BS_FLUSH (40_bitstream.md R150). -/
def bsFlushBody (s : State) : Progress := .completes (flush s)

/-- BS_FLUSH (40_bitstream.md R150). -/
def execBsFlush (s : State) : Host.Outcome State Fault Refusal := runCommand .bsFlush bsFlushBody s

/-- The body of BS_WRITE (40_bitstream.md R151). -/
def bsWriteBody (w : BitVec 5) (v : BitVec 24) (s : State) : Progress :=
  .completes (writeBits (truncTo w.toNat v) w.toNat s)

/-- BS_WRITE w, v (40_bitstream.md R151). -/
def execBsWrite (w : BitVec 5) (v : BitVec 24) (s : State) : Host.Outcome State Fault Refusal :=
  runCommand (.bsWrite w v) (bsWriteBody w v) s

/-- The body of BS_READ (40_bitstream.md R153). -/
def bsReadBody (w : BitVec 5) (s : State) : Progress :=
  if readEnabled w.toNat s then
    let r := readBits w.toNat s
    .completes (recordRead r.1 r.2)
  else .holds

/-- BS_READ w (40_bitstream.md R153). -/
def execBsRead (w : BitVec 5) (s : State) : Host.Outcome State Fault Refusal :=
  runCommand (.bsRead w) (bsReadBody w) s

end Sys2Proof.Machine
end

