-- ==== Sys2Proof/Machine/DecodePass.lean ====
section
/-!
DEFINITION. The decode pipeline (43_decode.md): DEC_START (R222 to R224), DEC_STEP (R225 to R232) and DEC_RUN (R236).
-/

namespace Sys2Proof.Machine

/-- HDR <- the header byte, PHASE <- DEC_ACTIVE (43_decode.md R222, R223). -/
def takeHeader (h : Byte) (s : State) : State :=
  { s with hdr := { byte := h, valid := true }, phase := .decActive }

/-- The body of DEC_START (43_decode.md R222): hold, start_common, the header byte read with read_bits(8). -/
def decStartBody (s : State) : Progress :=
  if inputReady s then
    let t := startCommon s
    match t.inQ with
    | [] => .raises .invalidCode t
    | _ :: _ =>
      let r := readBits 8 t
      .completes (takeHeader (r.1.value.setWidth 8) r.2)
  else .holds

/-- DEC_START (43_decode.md R222). -/
def execDecStart (s : State) : Host.Outcome State Fault Refusal := runCommand .decStart decStartBody s

/-- The first code of a pass (43_decode.md R227). -/
def firstCode (code : Code) (s : State) : Progress :=
  if Config.nSingle ≤ code.toNat then .raises .invalidCode s
  else .completes (setMatch code (countCode (outPush (code.setWidth 8) s)))

/-- The decoder's width escalation, right after an extension (43_decode.md R230). -/
def decWiden (s : State) : State :=
  if s.config.adaptive && decide (2 ^ s.width.toNat ≤ s.nextCode.toNat + 1) && decide (s.width.toNat < s.config.maxBits.toNat)
  then widen s else s

/-- Extend the table by `cur ++ [first byte of entry]` unless it has saturated (43_decode.md R229 item 4, R230). -/
def decExtend (cur : Bytes) (first : Byte) (s : State) : State :=
  if unsaturated s then decWiden (dExtend cur first s) else s

/-- Push the resolved entry, count the code, extend, and make the code the match (43_decode.md R225, R228 to R231). -/
def emitEntry (code : Code) (cur entry : Bytes) (s : State) : Progress :=
  match entry with
  | [] => .undefinedRead
  | first :: _ => .completes (setMatch code (decExtend cur first (countCode (outPushAll entry s))))

/-- A code after the first, with the current match `cur` (43_decode.md R229): bound, self-referential, or invalid. -/
def laterCode (code : Code) (cur : Bytes) (s : State) : Progress :=
  match dGet code s with
  | .found entry => emitEntry code cur entry s
  | .undefined => .undefinedRead
  | .notFound =>
    if code.toNat = s.nextCode.toNat then
      match cur with
      | [] => .undefinedRead
      | c0 :: _ => emitEntry code cur (cur ++ [c0]) s
    else .raises .invalidCode s

/-- Process one code that was read (43_decode.md R225). -/
def takeCode (code : Code) (s : State) : Progress :=
  if s.matchReg.valid then
    match dtabAt s.dtab s.matchReg.code.toNat with
    | none => .undefinedRead
    | some cur => laterCode code cur s
  else firstCode code s

/-- What DEC_STEP does with the result of its read (43_decode.md R225, R226); `s` is the state after the read, RESULT updated. -/
def takeRead : ReadResult → State → Progress
  | .ok code, s => takeCode code s
  | .nodata true, s => .raises .invalidCode s
  | .nodata false, s => .completes (setPhase .decDone s)

/-- The body of DEC_STEP (43_decode.md R225). -/
def decStepBody (s : State) : Progress :=
  if readEnabled s.width.toNat s then
    let r := readBits s.width.toNat s
    takeRead r.1 (recordRead r.1 r.2)
  else .holds

/-- DEC_STEP (43_decode.md R225). -/
def execDecStep (s : State) : Host.Outcome State Fault Refusal := runCommand .decStep decStepBody s

/-- DEC_RUN: one iteration (43_decode.md R236). -/
def execDecRun (s : State) : Host.Outcome State Fault Refusal :=
  runCommand .decRun (fun t => runIteration .decActive (decStepBody t)) s

end Sys2Proof.Machine
end

