-- ==== Sys2Proof/Machine/EncodePass.lean ====
section
/-!
DEFINITION. The encode pipeline (42_encode.md): ENC_START (R192), ENC_STEP (R193 to R201) and ENC_RUN (R203).
-/

namespace Sys2Proof.Machine

/-- The body of ENC_START: start_common, the header byte, PHASE ENC_ACTIVE (42_encode.md R192). -/
def encStartBody (s : State) : Progress :=
  let t := startCommon s
  .completes (setPhase .encActive (writeBits (t.config.maxBits.setWidth 24) 8 t))

/-- ENC_START (42_encode.md R192). -/
def execEncStart (s : State) : Host.Outcome State Fault Refusal := runCommand .encStart encStartBody s

/-- Write MATCH.CODE at the current width and count it (42_encode.md R195, R201). -/
def emitMatch (s : State) : State := countCode (writeBits s.matchReg.code s.width.toNat s)

/-- The encoder's width escalation, right after an insertion (42_encode.md R198). -/
def encWiden (s : State) : State :=
  if s.config.adaptive && decide (2 ^ s.width.toNat ≤ s.nextCode.toNat) && decide (s.width.toNat < s.config.maxBits.toNat)
  then widen s else s

/-- Insert the candidate unless the dictionary has saturated (42_encode.md R196). -/
def encInsert (b : Byte) (s : State) : State :=
  if unsaturated s then encWiden (eInsertChild s.matchReg.code b s) else s

/-- The step for an input byte already popped (42_encode.md R193 to R198). -/
def encByte (b : Byte) (s : State) : State :=
  if s.matchReg.valid then
    match eChild s.matchReg.code b s with
    | some c => setMatch c s
    | none => setMatch (singleton b) (encInsert b (emitMatch s))
  else setMatch (singleton b) s

/-- The finishing step (42_encode.md R201). -/
def encFinish (s : State) : State :=
  setPhase .encDone (flush (if s.matchReg.valid then emitMatch s else s))

/-- The body of ENC_STEP (42_encode.md R193). -/
def encStepBody (s : State) : Progress :=
  match inPop s with
  | some (b, t) => .completes (encByte b t)
  | none => if s.inEos then .completes (encFinish s) else .holds

/-- ENC_STEP (42_encode.md R193). -/
def execEncStep (s : State) : Host.Outcome State Fault Refusal := runCommand .encStep encStepBody s

/-- ENC_RUN: one iteration (42_encode.md R203). -/
def execEncRun (s : State) : Host.Outcome State Fault Refusal :=
  runCommand .encRun (fun t => runIteration .encActive (encStepBody t)) s

end Sys2Proof.Machine
end

