-- ==== Sys2Proof/Machine/Dispatch.lean ====
section
/-!
DEFINITION. One arm for each command (spec/opcode_table.json): the meaning that its rule gives it.
-/

namespace Sys2Proof.Machine

def exec (i : Instr) (s : State) : Host.Outcome State Fault Refusal :=
  match i with
  | .nop => Sys2Proof.Machine.execNop s
  | .softReset => Sys2Proof.Machine.execSoftReset s
  | .cfg maxBits adaptive => Sys2Proof.Machine.execCfg maxBits adaptive s
  | .encStart => Sys2Proof.Machine.execEncStart s
  | .encStep => Sys2Proof.Machine.execEncStep s
  | .encRun => Sys2Proof.Machine.execEncRun s
  | .decStart => Sys2Proof.Machine.execDecStart s
  | .decStep => Sys2Proof.Machine.execDecStep s
  | .decRun => Sys2Proof.Machine.execDecRun s
  | .bsFlush => Sys2Proof.Machine.execBsFlush s
  | .bsWrite width value => Sys2Proof.Machine.execBsWrite width value s
  | .bsRead width => Sys2Proof.Machine.execBsRead width s

end Sys2Proof.Machine
end

