-- ==== Sys2Proof/Machine/HostPort.lean ====
section
/-!
DEFINITION. The host's side (10_state.md R21): the register window (10_state.md R41 to R49, 20_memory.md R70), the byte ports
(20_memory.md R62, R68) and hardware reset (70_reset_and_hazards.md R301). A host move lands between block steps
(20_memory.md R71).
-/

namespace Sys2Proof.Machine

/-- The access is one the spec defines: 32 bits wide, at a multiple of 4 in 0x00 to 0x3C (20_memory.md R70 item 1). -/
def windowDefined (size off : Nat) : Bool := decide (size = 32) && decide (off % 4 = 0) && decide (off ≤ 0x3C)

/-- What a read of the register at a defined offset returns (10_state.md R41, 20_memory.md R70 item 2). -/
def windowRead (off : Nat) (s : State) : Word :=
  if off = 0x04 then statusWord s
  else if off = 0x08 then configWord s
  else if off = 0x0C then resultWord s
  else if off = 0x10 then nextCodeWord s
  else if off = 0x14 then matchWord s
  else if off = 0x18 then s.cntIn
  else if off = 0x1C then s.cntOut
  else if off = 0x20 then s.cntCodes
  else if off = 0x24 then hdrWord s
  else if off = 0x28 then s.errcmd
  else 0

/-- Append a command word to the tail of CQ (10_state.md R49). -/
def appendCmd (w : Word) (s : State) : State := { s with cq := s.cq ++ [w] }

/-- A write of a register at a defined offset: CMD appends to CQ, every other offset ignores it (20_memory.md R70 items 3, 4). -/
def windowWrite (off : Nat) (w : Word) (s : State) : State := if off = 0 then appendCmd w s else s

/-- CQ is full (20_memory.md R69). -/
def cqFull (s : State) : Bool := decide (s.params.cqDepth ≤ s.cq.length)

/-- The move stalls the host: a write of CMD while CQ is full (20_memory.md R69). -/
def hostStalls : HostMove → State → Bool
  | .writeReg size off _, s => decide (size = 32) && decide (off = 0) && cqFull s
  | .readReg _ _, _ => false
  | .pushIn _, _ => false
  | .setEos, _ => false
  | .clearEos, _ => false
  | .discardIn, _ => false
  | .drainOut _, _ => false
  | .hardReset, _ => false

/-- Hardware reset: block state at its reset values, CQ empty, the ports as they are (70_reset_and_hazards.md R301; log 7). -/
def hardReset (s : State) : State := { resetBlock s with cq := [] }

/-- Set InEOS: it ends the input of the pass that runs, or of the next one where none runs (20_memory.md R62; log 9). -/
def setEos (s : State) : State :=
  { s with inEos := true, eosOwner := some (if s.phase.inPass then .thisPass else .nextPass) }

/-- Clear InEOS (20_memory.md R62, 70_reset_and_hazards.md R305 item 3). -/
def clearEos (s : State) : State := { s with inEos := false, eosOwner := none }

/-- A pass runs, and the set InEOS ends its own input (70_reset_and_hazards.md R309; log 9). -/
def inputEnded (s : State) : Bool := s.phase.inPass && decide (s.eosOwner = some .thisPass)

/-- One move of the host that does not stall (20_memory.md R62, R70; 70_reset_and_hazards.md R305, R311;
93_implementation_defined.md I17, I18; logs 9, 10). -/
def hostMove : HostMove → State → Host.Outcome State Fault Refusal
  | .writeReg size off w, s => if windowDefined size off then .next (windowWrite off w s) else .refused .windowAccess
  | .readReg size off, s =>
    if windowDefined size off then .next { s with hostData := some (windowRead off s) } else .refused .windowAccess
  | .pushIn b, s => if s.inEos && s.phase.inPass then .refused .pushAfterEos else .next { s with inQ := s.inQ ++ [b] }
  | .setEos, s => .next (setEos s)
  | .clearEos, s => if inputEnded s then .refused .inputReplacedInPass else .next (clearEos s)
  | .discardIn, s => if inputEnded s then .refused .inputReplacedInPass else .next { s with inQ := [] }
  | .drainOut n, s => .next { s with outTaken := min (s.outTaken + n) s.outLog.length }
  | .hardReset, s => .next (hardReset s)

end Sys2Proof.Machine
end

