-- ==== Sys2Proof/Machine/Cycle.lean ====
section
/-!
DEFINITION. The command cycle (44_control.md R256) and the choice of whose move the next step is (10_state.md R21;
log 2): the block takes the word at the head of CQ, decodes it and runs it.
-/

namespace Sys2Proof.Machine

/-- `cycle()` of 44_control.md R256. With CQ empty the block waits and nothing changes (70_reset_and_hazards.md R302,
60_exceptions.md R291; log 1). -/
def cycle (s : State) : Host.Outcome State Fault Refusal :=
  match s.cq with
  | [] => .next s
  | cw :: _ =>
    match decode cw with
    | .error _ => .next (popCq (errorEntry .illegalCmd cw s))
    | .ok i => exec i s

/-- The host's move, unless it stalls; while it stalls it stays first on the agenda and the block runs a cycle
(20_memory.md R69; log 15). -/
def hostTurn (m : HostMove) (rest : List Turn) (s : State) : Host.Outcome State Fault Refusal :=
  if hostStalls m s then cycle s else hostMove m { s with agenda := rest }

/-- One step of the machine: the turn at the head of the agenda, the block's when the agenda is empty (log 2). -/
def takeTurn (s : State) : Host.Outcome State Fault Refusal :=
  match s.agenda with
  | [] => cycle s
  | .block :: rest => cycle { s with agenda := rest }
  | .host m :: rest => hostTurn m rest s

/-- The word `w` at the head of CQ, and the next step the block's (log 12). -/
def placeCommand (w : Word) (s : State) : State := { s with cq := w :: s.cq.tail, agenda := [] }

end Sys2Proof.Machine
end

