-- ==== Sys2Proof/Machine/Step.lean ====
section
/-!
DEFINITION. One step of the machine, and the placing of a command word where the next step takes it.
-/

namespace Sys2Proof.Machine

/-- One step: the turn of the block or of the host (44_control.md R256, 10_state.md R21). -/
def step (s : State) : Host.Outcome State Fault Refusal := takeTurn s

/-- `s` with the word that the opcode table numbers `w` at the head of CQ and the block to move (log 12). -/
def State.withFetchWord (s : State) (nbits w : Nat) : State :=
  placeCommand (BitVec.ofNat 32 (w % 2 ^ nbits)) s

end Sys2Proof.Machine
end

