-- ==== Sys2Proof/Machine/Assembler.lean ====
section
/-!
DEFINITION. The assembler's lines (30_encoding.md R101 to R103): a line is a command, a pseudo-instruction, `.word`, a host
directive, or blank, and it stands for the moves by which the host carries it out (log 16).
-/

namespace Sys2Proof.Machine

/-- A blank between the words of a line. -/
def isBlank (c : Char) : Bool := decide (c = ' ') || decide (c = '\t')

/-- `;` starts a comment (30_encoding.md R101). -/
def notSemicolon (c : Char) : Bool := !decide (c = ';')

/-- A line without the blanks at its two ends. -/
def trimBlanks (l : List Char) : List Char := ((l.dropWhile isBlank).reverse.dropWhile isBlank).reverse

/-- The pieces of a line between commas. -/
def splitCommas : List Char → List (List Char)
  | [] => [[]]
  | c :: rest =>
    match splitCommas rest with
    | [] => [[c]]
    | piece :: pieces => if c = ',' then [] :: piece :: pieces else (c :: piece) :: pieces

/-- The value of a digit in bases up to 16. -/
def digitValue (c : Char) : Option Nat :=
  if 48 ≤ c.toNat ∧ c.toNat ≤ 57 then some (c.toNat - 48)
  else if 97 ≤ c.toNat ∧ c.toNat ≤ 102 then some (c.toNat - 87)
  else if 65 ≤ c.toNat ∧ c.toNat ≤ 70 then some (c.toNat - 55)
  else none

/-- The number that digits spell in a base, continuing from `acc`. -/
def digitsFrom (base : Nat) : Nat → List Char → Option Nat
  | acc, [] => some acc
  | acc, c :: rest =>
    match digitValue c with
    | none => none
    | some d => if d < base then digitsFrom base (acc * base + d) rest else none

/-- At least one digit. -/
def digits (base : Nat) : List Char → Option Nat
  | [] => none
  | c :: rest => digitsFrom base 0 (c :: rest)

/-- A number: decimal, `0x` hexadecimal or `0b` binary (30_encoding.md R101). -/
def number : List Char → Option Nat
  | '0' :: 'x' :: rest => digits 16 rest
  | '0' :: 'b' :: rest => digits 2 rest
  | l => digits 10 l

/-- Every piece as a number, `none` if one is not. -/
def numbers : List (List Char) → Option (List Nat)
  | [] => some []
  | l :: rest =>
    match number (trimBlanks l), numbers rest with
    | some n, some ns => some (n :: ns)
    | _, _ => none

/-- The operands of a line: none, or numbers between commas (30_encoding.md R101). -/
def operandsOf (l : List Char) : Option (List Nat) :=
  match trimBlanks l with
  | [] => some []
  | c :: rest => numbers (splitCommas (c :: rest))

/-- The commands without an operand, by mnemonic (30_encoding.md R101). -/
def plainMnemonics : List (List Char × Instr) :=
  [(['N','O','P'], .nop), (['S','O','F','T','_','R','E','S','E','T'], .softReset),
   (['E','N','C','_','S','T','A','R','T'], .encStart), (['E','N','C','_','S','T','E','P'], .encStep),
   (['E','N','C','_','R','U','N'], .encRun), (['D','E','C','_','S','T','A','R','T'], .decStart),
   (['D','E','C','_','S','T','E','P'], .decStep), (['D','E','C','_','R','U','N'], .decRun),
   (['B','S','_','F','L','U','S','H'], .bsFlush)]

/-- The command a mnemonic and its operands name, `none` for operands outside their ranges (30_encoding.md R101). -/
def assembleInstr (m : List Char) (ops : List Nat) : Option Instr :=
  match plainMnemonics.lookup m, ops with
  | some i, [] => some i
  | some _, _ :: _ => none
  | none, [w] =>
    if m = ['B','S','_','R','E','A','D'] ∧ w ≤ 24 then some (.bsRead (BitVec.ofNat 5 w)) else none
  | none, [x, y] =>
    if m = ['C','F','G'] ∧ x ≤ 255 ∧ y ≤ 1 then some (.cfg (BitVec.ofNat 8 x) (decide (y = 1)))
    else if m = ['B','S','_','W','R','I','T','E'] ∧ x ≤ 24 ∧ y ≤ 0xFFFFFF then
      some (.bsWrite (BitVec.ofNat 5 x) (BitVec.ofNat 24 y))
    else none
  | none, _ => none

/-- The pseudo-instruction a mnemonic and its operands name (30_encoding.md R103); the ranges are those of CFG (log 16). -/
def assemblePseudo (m : List Char) : List Nat → Option Pseudo
  | [x, y] =>
    if x ≤ 255 ∧ y ≤ 1 then
      if m = ['C','O','M','P','R','E','S','S'] then some (.compress (BitVec.ofNat 8 x) (decide (y = 1)))
      else if m = ['D','E','C','O','M','P','R','E','S','S'] then some (.decompress (BitVec.ofNat 8 x) (decide (y = 1)))
      else none
    else none
  | _ => none

/-- The host's write of a command word to CMD (10_state.md R49). -/
def writeCmd (w : Word) : HostMove := .writeReg 32 0 w

/-- The bytes of `IN.push`, each 0 to 255 (30_encoding.md R102). -/
def pushMoves : List Nat → Option (List HostMove)
  | [] => some []
  | n :: rest =>
    match pushMoves rest with
    | some ms => if n ≤ 255 then some (.pushIn (BitVec.ofNat 8 n) :: ms) else none
    | none => none

/-- The host directives and `.word` (30_encoding.md R101, R102). The spec writes `.word` with a `0x` number; that a decimal or a
`0b` number is taken too, and that one of 2^32 or more is refused, is the model's (DESIGN CHOICE, log 16). -/
def assembleDirective (m : List Char) (ops : List Nat) : Option (List HostMove) :=
  if m = ['I','N','.','e','o','s'] then (match ops with | [] => some [.setEos] | _ :: _ => none)
  else if m = ['I','N','.','p','u','s','h'] then (match ops with | [] => none | n :: rest => pushMoves (n :: rest))
  else if m = ['.','w','o','r','d'] then
    (match ops with | [w] => if w < 2 ^ 32 then some [writeCmd (BitVec.ofNat 32 w)] else none | _ => none)
  else none

/-- The host's moves for a mnemonic and its operands. -/
def assembleParts (m : List Char) (ops : List Nat) : Option (List HostMove) :=
  match assembleInstr m ops with
  | some i => some [writeCmd (encode i)]
  | none =>
    match assemblePseudo m ops with
    | some p => some (p.expand.map (fun i => writeCmd (encode i)))
    | none => assembleDirective m ops

/-- The host's moves for one line, `none` where the assembler refuses it (30_encoding.md R101 to R103). -/
def assembleLine (line : List Char) : Option (List HostMove) :=
  match trimBlanks (line.takeWhile notSemicolon) with
  | [] => some []
  | c :: rest =>
    let word := (c :: rest).takeWhile (fun x => !isBlank x)
    let tail := (c :: rest).dropWhile (fun x => !isBlank x)
    match operandsOf tail with
    | some ops => assembleParts word ops
    | none => none

end Sys2Proof.Machine
end

