-- ==== Sys2Proof/Machine/BitString.lean ====
section
/-!
DEFINITION. Bit strings (00_scope.md R11) and the two that the codec keeps: the bits written so far, and the bits not yet
read (20_memory.md R65, 40_bitstream.md R134, R140). Claims about the codec are stated in these terms.
-/

namespace Sys2Proof.Machine

/-- The MSB-first bit string of `v` at width `w` (00_scope.md R11). -/
def bitString : Nat → Nat → List Bool
  | 0, _ => []
  | w + 1, v => v.testBit w :: bitString w v

/-- A bit string read as an MSB-first number, continuing from `a`. -/
def bitValueFrom : Nat → List Bool → Nat
  | a, [] => a
  | a, b :: rest => bitValueFrom (2 * a + b.toNat) rest

/-- A bit string read as an MSB-first number (40_bitstream.md R140). -/
def bitValue (l : List Bool) : Nat := bitValueFrom 0 l

/-- The bits of a byte, bit 7 first (20_memory.md R65). -/
def byteBits (b : Byte) : List Bool := bitString 8 b.toNat

/-- The bits of a byte sequence, in order (20_memory.md R65). -/
def bytesBits (l : Bytes) : List Bool := l.flatMap byteBits

/-- The pending bits of the writer, `W_ACC[W_CNT-1:0]` (10_state.md R33). -/
def pendingBits (s : State) : List Bool := bitString s.wCnt.toNat s.wAcc.toNat

/-- Every bit ever written: the bytes of OUT_LOG, then the pending bits (20_memory.md R65, 40_bitstream.md R134). -/
def writtenBits (s : State) : List Bool := bytesBits s.outLog ++ pendingBits s

/-- The bit string B of 40_bitstream.md R140: `R_BUF[R_CNT-1:0]`, then every byte queued on IN. -/
def unreadBits (s : State) : List Bool := bitString s.rCnt.toNat s.rBuf.toNat ++ bytesBits s.inQ

end Sys2Proof.Machine
end

