-- ==== Sys2Proof/Safety.lean ====
section
/-!
DEFINITION. What counts as a safe state and a safe run: the invariant of the block (10_state.md R51 and the rules each clause
cites), and what it is for a step to answer a next state.
-/

namespace Sys2Proof.Machine

/-- The step answers a next state. -/
def nextState : Host.Outcome State Fault Refusal → Option State
  | .next s => some s
  | .fault _ => none
  | .refused _ => none

/-- The step stops with a fault. -/
def isFault : Host.Outcome State Fault Refusal → Bool
  | .next _ => false
  | .fault _ => true
  | .refused _ => false

/-- The next step is the block's (log 2). -/
def blockTurn (s : State) : Bool :=
  match s.agenda with
  | [] => true
  | .block :: _ => true
  | .host _ :: _ => false

/-- WIDTH of an adaptive pass whose encoder's NEXT_CODE is `n` (42_encode.md R198, 10_state.md R51 items 4, 5). -/
def adaptiveWidth (maxBits n : Nat) : Nat := min maxBits (max Config.adaptStartW (bitlen n))

/-- ECHILD in an encode pass with this NEXT_CODE: every entry's parent is a smaller code, the entries' targets are
exactly the codes from 256 up to NEXT_CODE, each the target of one entry (10_state.md R39, R51 item 7). -/
structure TrieInv (d : Dict Code) (next : Nat) : Prop where
  entry  : ∀ k c, d.find k = some c → k < c.toNat * 256 ∧ Config.nSingle ≤ c.toNat ∧ c.toNat < next
  target : ∀ c, Config.nSingle ≤ c → c < next → ∃ k, d.find k = some (BitVec.ofNat 24 c)
  single : ∀ k k' c, d.find k = some c → d.find k' = some c → k = k'

/-- DTAB in a decode pass with this NEXT_CODE: defined exactly below NEXT_CODE, never with an empty sequence, and with
the length bound of 20_memory.md R84 (10_state.md R40, R51 item 8). -/
structure TableInv (d : Dict Bytes) (next : Nat) : Prop where
  defined : ∀ c, (∃ q, dtabAt d c = some q) ↔ c < next
  bounded : ∀ c q, dtabAt d c = some q → q ≠ [] ∧ q.length ≤ max 1 (c - 254)

/-- The invariant of the block. Each clause names the rule that states or implies it. -/
structure State.Inv (s : State) : Prop where
  /-- 00_scope.md R8. -/
  limit        : Config.maxbMin ≤ s.params.maxbLimit ∧ s.params.maxbLimit ≤ Config.maxbLimitTop
  /-- 00_scope.md R8, 20_memory.md R69. -/
  depth        : 1 ≤ s.params.cqDepth ∧ s.cq.length ≤ s.params.cqDepth
  /-- 10_state.md R32: CONFIG always holds a legal value. -/
  config       : Config.maxbMin ≤ s.config.maxBits.toNat ∧ s.config.maxBits.toNat ≤ s.params.maxbLimit
  /-- 60_exceptions.md R276, R279: an error is recorded exactly in the phase ERROR. -/
  errorPhase   : s.phase = .error ↔ s.err ≠ none
  /-- 60_exceptions.md R276, R279: ERRCMD is 0 while no error is recorded. -/
  errorWord    : s.err = none → s.errcmd = 0
  /-- 10_state.md R33, R51 item 1. -/
  accumulator  : s.wAcc.toNat < 2 ^ s.wCnt.toNat
  /-- 10_state.md R30. -/
  nextCode     : Config.nSingle ≤ s.nextCode.toNat ∧ s.nextCode.toNat ≤ 2 ^ s.params.maxbLimit
  /-- 10_state.md R54. -/
  widthTop     : s.width.toNat ≤ s.params.maxbLimit
  /-- 10_state.md R51 item 6. -/
  matchBound   : s.matchReg.valid = true → s.matchReg.code.toNat < s.nextCode.toNat
  /-- 10_state.md R31, R50: the empty match has CODE 0. -/
  matchEmpty   : s.matchReg.valid = false → s.matchReg.code = 0
  /-- 10_state.md R35: RESULT is 0 before the first read, and VALUE is 0 for a no-data result. -/
  result       : (s.result.valid = false → s.result = .cleared) ∧ (s.result.nodata = true → s.result.value = 0) ∧
                   (s.result.midcode = true → s.result.nodata = true)
  /-- 10_state.md R36. -/
  header       : s.hdr.valid = false → s.hdr.byte = 0
  /-- 10_state.md R51 item 2. -/
  passLimit    : s.phase.inPass = true → s.nextCode.toNat ≤ codeLimit s
  /-- 10_state.md R51 item 3. -/
  widthFixed   : s.phase.inPass = true → s.config.adaptive = false → s.width.toNat = s.config.maxBits.toNat
  /-- 10_state.md R51 item 4. -/
  widthEncode  : s.phase = .encActive → s.config.adaptive = true →
                   s.width.toNat = adaptiveWidth s.config.maxBits.toNat s.nextCode.toNat
  /-- 10_state.md R51 item 5. -/
  widthDecode  : s.phase = .decActive → s.config.adaptive = true →
                   s.width.toNat = adaptiveWidth s.config.maxBits.toNat (min (s.nextCode.toNat + 1) (codeLimit s))
  /-- The dictionaries are in canonical form (log 8). -/
  memory       : Memory.wf s = true
  /-- 10_state.md R51 item 7. -/
  trie         : s.phase = .encActive → TrieInv s.echild s.nextCode.toNat
  /-- 10_state.md R51 item 8. -/
  table        : s.phase = .decActive → TableInv s.dtab s.nextCode.toNat
  /-- The host has drained no more bytes than there are (log 5). -/
  drained      : s.outTaken ≤ s.outLog.length
  /-- InEOS has an owner exactly while it is set (log 9). -/
  eosOwner     : s.eosOwner.isSome = s.inEos

end Sys2Proof.Machine
end

