-- ==== Sys2Proof/Certificates/Slice0/Obligations.lean ====
section
/-!
DEFINITION. The statements for the provers, and before them the few words they are said in. A `{ s with … }` on the right of an
equation is the frame: every field that is not named is as it was.
-/

namespace Sys2Proof.Claims

open Sys2Proof Sys2Proof.Machine

/-- The state after a command, spelled `cw`, raised `k` with no effect but the error entry and left CQ: the first error
since the last error exit is kept (60_exceptions.md R276, R282). -/
def afterError (k : ErrKind) (cw : Word) (s : State) : State :=
  { s with
    cq := s.cq.tail, phase := .error,
    err := if s.phase = .error then s.err else some k,
    errcmd := if s.phase = .error then s.errcmd else cw }

/-- The six items of 30_encoding.md R100. -/
def illegalEncoding (cw : Word) : Prop :=
  3 ≤ (cw.extractLsb' 29 3).toNat ∨
  (cw.extractLsb' 29 3 = 0 ∧ (cw.extractLsb' 24 5).toNat ∉ [0, 1, 2, 4, 5, 6, 8, 9, 10, 16]) ∨
  (cw.extractLsb' 29 3 = 0 ∧ (cw.extractLsb' 24 5).toNat = 2 ∧ cw.extractLsb' 9 15 ≠ 0) ∨
  (cw.extractLsb' 29 3 = 0 ∧ (cw.extractLsb' 24 5).toNat ∈ [0, 1, 4, 5, 6, 8, 9, 10, 16] ∧ cw.extractLsb' 0 24 ≠ 0) ∨
  ((cw.extractLsb' 29 3 = 1 ∨ cw.extractLsb' 29 3 = 2) ∧ 24 < (cw.extractLsb' 24 5).toNat) ∨
  (cw.extractLsb' 29 3 = 2 ∧ cw.extractLsb' 0 24 ≠ 0)

/-- The dashes of the table of 44_control.md R255: the command is not legal in the phase. -/
def notLegal : Instr → Phase → Prop
  | .cfg _ _, p => p = .encActive ∨ p = .decActive
  | .encStep, p => p ≠ .encActive
  | .encRun, p => p ≠ .encActive
  | .decStep, p => p ≠ .decActive
  | .decRun, p => p ≠ .decActive
  | .bsFlush, p => p = .encActive ∨ p = .decActive ∨ p = .error
  | .bsWrite _ _, p => p = .encActive ∨ p = .decActive ∨ p = .error
  | .bsRead _, p => p = .encActive ∨ p = .decActive ∨ p = .error
  | .nop, _ => False
  | .softReset, _ => False
  | .encStart, _ => False
  | .decStart, _ => False

/-- IDLE, ENC_DONE or DEC_DONE: the phases in which the raw BitStream commands are legal (40_bitstream.md R144). -/
def rawPhase (s : State) : Prop := s.phase = .idle ∨ s.phase = .encDone ∨ s.phase = .decDone

/-- The command has passed its phase check and its input has not arrived (the negation of the table of 20_memory.md R67). -/
def holdsIn : Instr → State → Prop
  | .encStep, s => s.phase = .encActive ∧ s.inQ = [] ∧ s.inEos = false
  | .encRun, s => s.phase = .encActive ∧ s.inQ = [] ∧ s.inEos = false
  | .decStart, s => s.inQ = [] ∧ s.inEos = false
  | .decStep, s => s.phase = .decActive ∧ s.rCnt.toNat + 8 * s.inQ.length < s.width.toNat ∧ s.inEos = false
  | .decRun, s => s.phase = .decActive ∧ s.rCnt.toNat + 8 * s.inQ.length < s.width.toNat ∧ s.inEos = false
  | .bsRead w, s => rawPhase s ∧ s.rCnt.toNat + 8 * s.inQ.length < w.toNat ∧ s.inEos = false
  | .nop, _ => False
  | .softReset, _ => False
  | .cfg _ _, _ => False
  | .encStart, _ => False
  | .bsFlush, _ => False
  | .bsWrite _ _, _ => False

/-- The word at the head of CQ decodes to `i`. -/
def headIs (i : Instr) (s : State) : Prop := ∃ cw rest, s.cq = cw :: rest ∧ decode cw = .ok i

/-- The step is the block's, and the word at the head of CQ decodes to `i`. -/
def blockRuns (i : Instr) (s : State) : Prop :=
  blockTurn s = true ∧ headIs i s

/-- The step is the host's move `m`. -/
def hostMakes (m : HostMove) (s : State) : Prop := ∃ rest, s.agenda = .host m :: rest

/-- `t` has taken the first `w` unread bits of `s` and popped exactly the bytes that this needs, CNT_IN counting them
(40_bitstream.md R140). -/
def bitsTaken (w : Nat) (s t : State) : Prop :=
  unreadBits t = (unreadBits s).drop w ∧
  t.rCnt.toNat = (s.rCnt.toNat + 24 - w) % 8 ∧
  t.inQ = s.inQ.drop ((w - s.rCnt.toNat + 7) / 8) ∧
  t.cntIn = s.cntIn + BitVec.ofNat 32 ((w - s.rCnt.toNat + 7) / 8)

/-- The value of the first `w` unread bits, MSB first (40_bitstream.md R140). -/
def nextValue (w : Nat) (s : State) : BitVec 24 := BitVec.ofNat 24 (bitValue ((unreadBits s).take w))

/-- RESULT after a read that returned the value `v` (40_bitstream.md R153). -/
def resultOk (v : BitVec 24) : ResultReg := { value := v, valid := true, nodata := false, midcode := false }

/-- RESULT after a read that returned no data (40_bitstream.md R153). -/
def resultNodata (mid : Bool) : ResultReg := { value := 0, valid := true, nodata := true, midcode := mid }

/-- The pass's reader has WIDTH bits: a decode pass with a code to read (20_memory.md R67). -/
def codeArrived (s : State) : Prop :=
  s.phase = .decActive ∧ s.width.toNat ≤ s.rCnt.toNat + 8 * s.inQ.length

/-- What brings the phase from another one to each phase: the arrows of 42_encode.md R191 and 43_decode.md R221, the resets, and the
four causes of an error (60_exceptions.md R272 to R275). -/
def entersPhase (s : State) : Phase → Prop
  | .idle => hostMakes .hardReset s ∨ headIs .softReset s
  | .encActive => headIs .encStart s
  | .encDone => s.phase = .encActive ∧ (headIs .encStep s ∨ headIs .encRun s) ∧ s.inQ = [] ∧ s.inEos = true
  | .decActive => headIs .decStart s ∧ s.inQ ≠ []
  | .decDone => s.phase = .decActive ∧ (headIs .decStep s ∨ headIs .decRun s) ∧ s.inQ = [] ∧ s.inEos = true ∧
      s.rCnt.toNat < s.width.toNat
  | .error =>
    (∃ cw rest e, s.cq = cw :: rest ∧ decode cw = .error e) ∨ (∃ i, headIs i s ∧ notLegal i s.phase) ∨
    (∃ m a, headIs (.cfg m a) s ∧ ¬ (9 ≤ m.toNat ∧ m.toNat ≤ s.params.maxbLimit)) ∨
    (headIs .decStart s ∧ s.inQ = [] ∧ s.inEos = true) ∨
    (s.phase = .decActive ∧ (headIs .decStep s ∨ headIs .decRun s))

/-- `s` with the bytes `l` pushed onto the tail of IN. -/
def withInput (l : Bytes) (s : State) : State := { s with inQ := s.inQ ++ l }

/-- The state after each command in turn, `none` if one does not answer a next state. -/
def runAll : List Instr → State → Option State
  | [], s => some s
  | i :: rest, s =>
    match nextState (exec i s) with
    | none => none
    | some t => runAll rest t

/-- RESULT after each of a sequence of BS_READ, and the state at the end. -/
def readAll : List (BitVec 5) → State → Option (List ResultReg × State)
  | [], s => some ([], s)
  | w :: rest, s =>
    match nextState (exec (.bsRead w) s) with
    | none => none
    | some t =>
      match readAll rest t with
      | none => none
      | some (rs, u) => some (t.result :: rs, u)

/-- The state after `n` steps, `none` if one of them does not answer a next state. -/
def runSteps : Nat → State → Option State
  | 0, s => some s
  | n + 1, s =>
    match nextState (step s) with
    | none => none
    | some t => runSteps n t

end Sys2Proof.Claims

open Sys2Proof Sys2Proof.Machine Sys2Proof.Claims

/-! Encoding. -/

/-- 30_encoding.md R93 to R99: decoding the word of a well-formed command gives it back, with every operand. -/
def Obligations.DecodeOfEncodeGivesTheCommandBack : Prop :=
  ∀ i : Instr, i.wellFormed = true → decode (encode i) = .ok i

/-- 30_encoding.md R99, R100: a word that decodes is the one word of its command, and the command is well formed. -/
def Obligations.EncodeOfDecodeGivesTheWordBack : Prop :=
  ∀ (cw : Word) (i : Instr), decode cw = .ok i → i.wellFormed = true ∧ encode i = cw

/-- 30_encoding.md R99, R100: the words that decode as ILLEGAL are exactly those of the six items. -/
def Obligations.IllegalWordsAreTheSixItems : Prop :=
  ∀ cw : Word, (∃ e, decode cw = .error e) ↔ illegalEncoding cw

/-- 30_encoding.md R98 and 95_test_vectors.md 2.1: words written from the encoding tables decode as the tables say. -/
def Obligations.TableWordsDecodeAsListed : Prop :=
  decode 0x00000000 = .ok .nop ∧ decode 0x01000000 = .ok .softReset ∧ decode 0x020001FF = .ok (.cfg 255 true) ∧
  decode 0x0200000C = .ok (.cfg 12 false) ∧ decode 0x04000000 = .ok .encStart ∧ decode 0x05000000 = .ok .encStep ∧
  decode 0x06000000 = .ok .encRun ∧ decode 0x08000000 = .ok .decStart ∧ decode 0x09000000 = .ok .decStep ∧
  decode 0x0A000000 = .ok .decRun ∧ decode 0x10000000 = .ok .bsFlush ∧ decode 0x38FFFFFF = .ok (.bsWrite 24 0xFFFFFF) ∧
  decode 0x23000005 = .ok (.bsWrite 3 5) ∧ decode 0x58000000 = .ok (.bsRead 24) ∧
  decode 0x03000000 = .error .reservedFn ∧ decode 0x39000000 = .error .widthTooLarge ∧
  decode 0x40000001 = .error .readArgNotZero ∧ decode 0x02000200 = .error .cfgReservedBits ∧
  decode 0x00000001 = .error .argNotZero ∧ decode 0xE0000000 = .error .reservedOpc

/-! The command cycle and the errors. -/

/-- 44_control.md R256: on the block's turn, the word at the head of CQ is decoded and its command run. An empty agenda is
the block's turn, and so is a first turn `block`, which the step takes off (the agenda is the model's own, log 2). -/
def Obligations.StepRunsTheDecodedCommand : Prop :=
  ∀ (s : State) (cw : Word) (rest : List Word) (i : Instr), s.cq = cw :: rest → decode cw = .ok i →
    (s.agenda = [] → step s = exec i s) ∧
    (∀ l, s.agenda = .block :: l → step s = exec i { s with agenda := l })

/-- 60_exceptions.md R272: a word that decodes as ILLEGAL raises ILLEGAL_CMD in every phase and has no other effect. -/
def Obligations.IllegalWordRaisesIllegalCmd : Prop :=
  ∀ (s : State) (cw : Word) (rest : List Word) (e : Illegal), s.agenda = [] → s.cq = cw :: rest → decode cw = .error e →
    step s = .next (afterError .illegalCmd cw s)

/-- 60_exceptions.md R274, 44_control.md R255: a command in a phase where it is not legal raises BAD_PHASE, whatever its
operands and its input, and has no other effect. -/
def Obligations.WrongPhaseRaisesBadPhase : Prop :=
  ∀ (i : Instr) (s : State), notLegal i s.phase → exec i s = .next (afterError .badPhase (encode i) s)

/-- 60_exceptions.md R275, 44_control.md R254: CFG outside a pass with MAX_BITS outside 9 to MAXB_LIMIT raises BAD_CONFIG;
CONFIG and everything else stay. -/
def Obligations.CfgOutOfRangeRaisesBadConfig : Prop :=
  ∀ (s : State) (m : BitVec 8) (a : Bool), s.phase ≠ .encActive → s.phase ≠ .decActive →
    ¬ (9 ≤ m.toNat ∧ m.toNat ≤ s.params.maxbLimit) →
    exec (.cfg m a) s = .next (afterError .badConfig (encode (.cfg m a)) s)

/-- 20_memory.md R67, 60_exceptions.md R291, 70_reset_and_hazards.md R302: a held command and an empty CQ leave the state
as it is. That the model's step then answers the unchanged state is the model's reading of "no step" (log 1). -/
def Obligations.HeldCommandAndEmptyQueueChangeNothing : Prop :=
  (∀ (i : Instr) (s : State), holdsIn i s → exec i s = .next s) ∧
  (∀ s : State, s.agenda = [] → s.cq = [] → step s = .next s)

/-- 60_exceptions.md R280, R282: in ERROR, NOP completes, CFG takes a legal configuration, and every other command but the
three error exits is dropped, with the first ERR and ERRCMD and every other register kept. -/
def Obligations.ErrorStateIsFrozenUntilAnExit : Prop :=
  ∀ (s : State), s.phase = .error →
    (∀ i ∈ [Instr.nop, .encStep, .encRun, .decStep, .decRun, .bsFlush], exec i s = .next { s with cq := s.cq.tail }) ∧
    (∀ w v, exec (.bsWrite w v) s = .next { s with cq := s.cq.tail }) ∧
    (∀ w, exec (.bsRead w) s = .next { s with cq := s.cq.tail }) ∧
    (∀ m a, exec (.cfg m a) s = .next { s with
      cq := s.cq.tail,
      config := if 9 ≤ m.toNat ∧ m.toNat ≤ s.params.maxbLimit then { maxBits := m, adaptive := a } else s.config })

/-- 60_exceptions.md R279: the block leaves ERROR only by SOFT_RESET, ENC_START, DEC_START or hardware reset. -/
def Obligations.OnlyErrorExitsLeaveError : Prop :=
  ∀ s t : State, s.phase = .error → step s = .next t → t.phase ≠ .error →
    hostMakes .hardReset s ∨
      ∃ cw rest, s.cq = cw :: rest ∧ (cw = 0x01000000 ∨ cw = 0x04000000 ∨ cw = 0x08000000)

/-! The control commands and reset. -/

/-- 44_control.md R251: NOP completes in every phase and changes nothing but CQ, which its word leaves. -/
def Obligations.NopChangesNothing : Prop :=
  ∀ s : State, exec .nop s = .next { s with cq := s.cq.tail }

/-- 44_control.md R253, 10_state.md R53: SOFT_RESET completes in every phase and sets every block element but CQ to its
reset value; the ports and the words behind it in CQ stay. -/
def Obligations.SoftResetGivesTheResetValues : Prop :=
  ∀ s : State, exec .softReset s = .next { s with
    cq := s.cq.tail, phase := .idle, err := none, errcmd := 0, width := 0, nextCode := 256,
    matchReg := { valid := false, code := 0 },
    config := { maxBits := BitVec.ofNat 8 (min 12 s.params.maxbLimit), adaptive := false },
    wAcc := 0, wCnt := 0, rBuf := 0, rCnt := 0,
    result := { value := 0, valid := false, nodata := false, midcode := false }, hdr := { byte := 0, valid := false },
    cntIn := 0, cntOut := 0, cntCodes := 0, echild := [], dtab := [] }

/-- 44_control.md R254: CFG outside a pass with MAX_BITS in 9 to MAXB_LIMIT writes CONFIG and nothing else. -/
def Obligations.CfgWritesConfigOnly : Prop :=
  ∀ (s : State) (m : BitVec 8) (a : Bool), s.phase ≠ .encActive → s.phase ≠ .decActive →
    9 ≤ m.toNat → m.toNat ≤ s.params.maxbLimit →
    exec (.cfg m a) s = .next { s with cq := s.cq.tail, config := { maxBits := m, adaptive := a } }

/-- 10_state.md R53, 70_reset_and_hazards.md R301, R304: hardware reset, at any time, puts every element of block state at its reset
value and empties CQ at once, so that a running or held command is abandoned; IN, InEOS and OUT_LOG stay, as does what the host has
drained and read. SOFT_RESET leaves the same state, but for the words behind it in CQ. -/
def Obligations.HardwareResetGivesTheResetValues : Prop :=
  ∀ (s : State) (rest : List Turn), s.agenda = .host .hardReset :: rest →
    let t : State := { s with
      cq := [], phase := .idle, err := none, errcmd := 0, width := 0, nextCode := 256,
      matchReg := { valid := false, code := 0 },
      config := { maxBits := BitVec.ofNat 8 (min 12 s.params.maxbLimit), adaptive := false },
      wAcc := 0, wCnt := 0, rBuf := 0, rCnt := 0,
      result := { value := 0, valid := false, nodata := false, midcode := false }, hdr := { byte := 0, valid := false },
      cntIn := 0, cntOut := 0, cntCodes := 0, echild := [], dtab := [], agenda := rest }
    step s = .next t ∧ (∀ c, dtabAt t.dtab c = if c < 256 then some [BitVec.ofNat 8 c] else none) ∧
    exec .softReset s = .next { t with cq := s.cq.tail, agenda := s.agenda }

/-- 10_state.md R41, R53: the registers of the window right after reset, with the default MAXB_LIMIT. -/
def Obligations.WindowAfterReset : Prop :=
  windowRead 0x00 State.reset = 0 ∧ windowRead 0x04 State.reset = 0 ∧ windowRead 0x08 State.reset = 0x0000000C ∧
  windowRead 0x0C State.reset = 0 ∧ windowRead 0x10 State.reset = 0x00000100 ∧ windowRead 0x14 State.reset = 0 ∧
  windowRead 0x18 State.reset = 0 ∧ windowRead 0x1C State.reset = 0 ∧ windowRead 0x20 State.reset = 0 ∧
  windowRead 0x24 State.reset = 0 ∧ windowRead 0x28 State.reset = 0 ∧
  windowRead 0x2C State.reset = 0 ∧ windowRead 0x30 State.reset = 0 ∧ windowRead 0x34 State.reset = 0 ∧
  windowRead 0x38 State.reset = 0 ∧ windowRead 0x3C State.reset = 0

/-! The BitStream Codec. -/

/-- 40_bitstream.md R134: with P the pending bits followed by the low w bits of v, write_bits pushes the whole bytes of P,
keeps the bits left over right-justified, and sets W_CNT to their number; with w = 0 it changes nothing. The premise is
10_state.md R33, an invariant (EveryStepKeepsTheInvariant). -/
def Obligations.WriteBitsClosedForm : Prop :=
  ∀ (s : State) (v : BitVec 24) (w : Nat), s.wAcc.toNat < 2 ^ s.wCnt.toNat → w ≤ 24 →
    let p := bitString s.wCnt.toNat s.wAcc.toNat ++ bitString w v.toNat
    let n := s.wCnt.toNat + w
    let t := writeBits v w s
    (∃ l, t.outLog = s.outLog ++ l ∧ l.length = n / 8 ∧ bytesBits l = p.take (8 * (n / 8)) ∧
      t = { s with outLog := s.outLog ++ l, cntOut := s.cntOut + BitVec.ofNat 32 (n / 8), wAcc := t.wAcc, wCnt := t.wCnt }) ∧
    bitString t.wCnt.toNat t.wAcc.toNat = p.drop (8 * (n / 8)) ∧ t.wAcc.toNat < 2 ^ t.wCnt.toNat ∧
    t.wCnt.toNat = n % 8 ∧ (w = 0 → t = s)

/-- 40_bitstream.md R151, 20_memory.md R65: BS_WRITE completes in a raw phase and appends the low w bits of v, most
significant first, to the bits written; it writes W_ACC, W_CNT, OUT and CNT_OUT, which counts the bytes pushed, and
nothing else. Bits of v at w and above do not matter. -/
def Obligations.BsWriteAppendsTheLowBits : Prop :=
  ∀ (s : State) (w : BitVec 5) (v : BitVec 24), rawPhase s → s.wAcc.toNat < 2 ^ s.wCnt.toNat →
    ∃ (t : State) (l : List Byte), exec (.bsWrite w v) s = .next t ∧
      t = { s with
        cq := s.cq.tail, wAcc := t.wAcc, wCnt := t.wCnt, outLog := s.outLog ++ l,
        cntOut := s.cntOut + BitVec.ofNat 32 l.length } ∧
      writtenBits t = writtenBits s ++ bitString w.toNat v.toNat ∧ t.wAcc.toNat < 2 ^ t.wCnt.toNat

/-- 40_bitstream.md R135, R150: BS_FLUSH completes in a raw phase; with bits pending it pushes them left-justified with
zeros and empties the writer, and with none it changes nothing. -/
def Obligations.BsFlushPushesThePartialByte : Prop :=
  ∀ s : State, rawPhase s →
    exec .bsFlush s = .next (if s.wCnt = 0 then { s with cq := s.cq.tail } else
      { s with
        cq := s.cq.tail, outLog := s.outLog ++ [BitVec.ofNat 8 (s.wAcc.toNat * 2 ^ (8 - s.wCnt.toNat))],
        cntOut := s.cntOut + 1, wAcc := 0, wCnt := 0 })

/-- 40_bitstream.md R136, R137: a flush right after a flush pushes nothing; the first leaves W_CNT = 0, and what it added
to the bits written is fewer than 8 zeros. -/
def Obligations.SecondFlushPushesNothing : Prop :=
  ∀ s t : State, rawPhase s → s.wAcc.toNat < 2 ^ s.wCnt.toNat → exec .bsFlush s = .next t →
    exec .bsFlush t = .next { t with cq := t.cq.tail } ∧ t.wCnt = 0 ∧
    ∃ k, k < 8 ∧ writtenBits t = writtenBits s ++ List.replicate k false

/-- 40_bitstream.md R140, R153: BS_READ with enough bits completes in a raw phase: RESULT takes the first w unread bits as an
MSB-first number, exactly the bytes needed are popped, and nothing but the reader, IN, CNT_IN and RESULT changes. -/
def Obligations.BsReadReturnsTheNextBits : Prop :=
  ∀ (s : State) (w : BitVec 5), rawPhase s → w.toNat ≤ 24 → w.toNat ≤ s.rCnt.toNat + 8 * s.inQ.length →
    ∃ t, exec (.bsRead w) s = .next t ∧ bitsTaken w.toNat s t ∧
      t = { s with
        cq := s.cq.tail, rBuf := t.rBuf, rCnt := t.rCnt, inQ := t.inQ, cntIn := t.cntIn,
        result := resultOk (nextValue w.toNat s) }

/-- 40_bitstream.md R139, R140, R153: BS_READ at the end of input with too few bits completes with no data: every byte is
popped, R_CNT is 0, VALUE is 0, and MIDCODE says whether a byte was popped. -/
def Obligations.BsReadAtTheEndReturnsNoData : Prop :=
  ∀ (s : State) (w : BitVec 5), rawPhase s → s.rCnt.toNat + 8 * s.inQ.length < w.toNat → s.inEos = true →
    ∃ t, exec (.bsRead w) s = .next t ∧
      t = { s with
        cq := s.cq.tail, rBuf := t.rBuf, rCnt := 0, inQ := [], cntIn := s.cntIn + BitVec.ofNat 32 s.inQ.length,
        result := resultNodata (!s.inQ.isEmpty) }

/-- 40_bitstream.md R141, R153: read_bits of width 0 reads 0, pops nothing and changes nothing, so BS_READ 0 changes RESULT alone, with
IN empty and InEOS set too; and the pipelines never pass width 0. -/
def Obligations.ReadOfWidthZeroReadsNothing : Prop :=
  (∀ s : State, readBits 0 s = (.ok 0, s)) ∧
  (∀ s : State, rawPhase s → exec (.bsRead 0) s = .next { s with cq := s.cq.tail, result := resultOk 0 }) ∧
  (∀ s : State, s.Inv → s.phase = .encActive ∨ s.phase = .decActive → s.width ≠ 0)

/-- 40_bitstream.md R154: what a sequence of BS_WRITE and one BS_FLUSH put on OUT, from an empty writer, the same sequence of
BS_READ gives back from an empty reader, each value cut to its width; a further read of more than 7 bits finds no data at
a code boundary. -/
def Obligations.RawWritesReadBack : Prop :=
  ∀ (l : List (BitVec 5 × BitVec 24)) (s : State), (∀ p ∈ l, p.1.toNat ≤ 24) → rawPhase s → s.wCnt = 0 → s.wAcc = 0 →
    ∃ (t : State) (bytes : List Byte),
      runAll (l.map (fun p => .bsWrite p.1 p.2) ++ [.bsFlush]) s = some t ∧ t.outLog = s.outLog ++ bytes ∧
      ∀ r : State, rawPhase r → r.rCnt = 0 → r.inQ = bytes → r.inEos = true →
        ∃ u, readAll (l.map Prod.fst) r =
            some (l.map (fun p => resultOk (BitVec.ofNat 24 (p.2.toNat % 2 ^ p.1.toNat))), u) ∧
          ∀ w : BitVec 5, 7 < w.toNat → w.toNat ≤ 24 →
            ∃ v, exec (.bsRead w) u = .next v ∧ v.result = resultNodata false

/-! The encode pipeline. -/

/-- 42_encode.md R192: ENC_START completes in every phase: the pass is fresh, WIDTH comes from CONFIG, and the header byte
MAX_BITS is pushed at once. Bits pending in the writer and the reader are discarded. (`eosOwner`, here and below, is the
model's own field, log 9.) -/
def Obligations.EncStartBeginsAPass : Prop :=
  ∀ s : State, exec .encStart s = .next { s with
    cq := s.cq.tail, phase := .encActive, err := none, errcmd := 0,
    width := if s.config.adaptive then 9 else s.config.maxBits.setWidth 5, nextCode := 256,
    matchReg := { valid := false, code := 0 }, wAcc := 0, wCnt := 0, rBuf := 0, rCnt := 0,
    result := { value := 0, valid := false, nodata := false, midcode := false }, hdr := { byte := 0, valid := false },
    cntIn := 0, cntOut := 1, cntCodes := 0, echild := [], dtab := [], eosOwner := s.eosOwner.map EosOwner.atStart,
    outLog := s.outLog ++ [s.config.maxBits] }

/-- 42_encode.md R194: the first byte of a pass becomes the match, with no output. -/
def Obligations.EncStepFirstByteBecomesTheMatch : Prop :=
  ∀ (s : State) (b : Byte) (rest : List Byte), s.phase = .encActive → s.matchReg.valid = false → s.inQ = b :: rest →
    exec .encStep s = .next { s with
      cq := s.cq.tail, inQ := rest, cntIn := s.cntIn + 1, matchReg := { valid := true, code := b.setWidth 24 } }

/-- 42_encode.md R193: a byte that extends the match moves MATCH.CODE along the trie, with no output. -/
def Obligations.EncStepExtendsTheMatch : Prop :=
  ∀ (s : State) (b : Byte) (rest : List Byte) (c : Code), s.phase = .encActive → s.matchReg.valid = true →
    s.inQ = b :: rest → eChild s.matchReg.code b s = some c →
    exec .encStep s = .next { s with
      cq := s.cq.tail, inQ := rest, cntIn := s.cntIn + 1, matchReg := { valid := true, code := c } }

/-- 42_encode.md R195 to R198: a byte that ends the match writes MATCH.CODE at WIDTH, counts it, binds the candidate to
NEXT_CODE unless saturated, widens by the encoder's test after that insertion alone, and starts a match with the byte. -/
def Obligations.EncStepEndsTheMatch : Prop :=
  ∀ (s : State) (b : Byte) (rest : List Byte), s.Inv → s.phase = .encActive → s.matchReg.valid = true →
    s.inQ = b :: rest → eChild s.matchReg.code b s = none →
    ∃ (t : State) (l : List Byte), exec .encStep s = .next t ∧
      t = { s with
        cq := s.cq.tail, inQ := rest, cntIn := s.cntIn + 1, wAcc := t.wAcc, wCnt := t.wCnt,
        outLog := s.outLog ++ l, cntOut := s.cntOut + BitVec.ofNat 32 l.length, cntCodes := s.cntCodes + 1,
        matchReg := { valid := true, code := b.setWidth 24 }, echild := t.echild, nextCode := t.nextCode, width := t.width } ∧
      writtenBits t = writtenBits s ++ bitString s.width.toNat s.matchReg.code.toNat ∧
      (s.nextCode.toNat < 2 ^ s.config.maxBits.toNat →
        t.nextCode.toNat = s.nextCode.toNat + 1 ∧
        (∀ p c, eChild p c t =
          if p = s.matchReg.code ∧ c = b then some (BitVec.ofNat 24 s.nextCode.toNat) else eChild p c s) ∧
        t.width.toNat = if s.config.adaptive = true ∧ 2 ^ s.width.toNat ≤ s.nextCode.toNat + 1 ∧
          s.width.toNat < s.config.maxBits.toNat then s.width.toNat + 1 else s.width.toNat) ∧
      (2 ^ s.config.maxBits.toNat ≤ s.nextCode.toNat →
        t.nextCode = s.nextCode ∧ t.echild = s.echild ∧ t.width = s.width)

/-- 42_encode.md R201: at the end of input the step writes the pending match, if any, at WIDTH, pads to a byte with zeros,
and ends the pass in ENC_DONE; no insertion and no width change. -/
def Obligations.EncStepFinishesThePass : Prop :=
  ∀ s : State, s.phase = .encActive → s.wAcc.toNat < 2 ^ s.wCnt.toNat → s.inQ = [] → s.inEos = true →
    ∃ (t : State) (l : List Byte) (k : Nat), exec .encStep s = .next t ∧
      t = { s with
        cq := s.cq.tail, phase := .encDone, wAcc := t.wAcc, wCnt := 0, outLog := s.outLog ++ l,
        cntOut := s.cntOut + BitVec.ofNat 32 l.length,
        cntCodes := if s.matchReg.valid then s.cntCodes + 1 else s.cntCodes } ∧
      k < 8 ∧ writtenBits t = writtenBits s ++
        (if s.matchReg.valid then bitString s.width.toNat s.matchReg.code.toNat else []) ++ List.replicate k false

/-- 42_encode.md R193, R203: with a byte or the end of input there, ENC_STEP completes, and one iteration of ENC_RUN does what
ENC_STEP does, its word staying at the head of CQ until the pass has ended. -/
def Obligations.EncRunIteratesEncStep : Prop :=
  ∀ s : State, s.phase = .encActive → (s.inQ ≠ [] ∨ s.inEos = true) →
    ∃ t, exec .encStep s = .next t ∧ t.cq = s.cq.tail ∧
      (t.phase = if s.inQ = [] then .encDone else .encActive) ∧
      exec .encRun s = .next { t with cq := if t.phase = .encActive then s.cq else s.cq.tail }

/-- 42_encode.md R204, 30_encoding.md R116: the code an encode pass would write is below NEXT_CODE, below 2^WIDTH and below
2^MAX_BITS. -/
def Obligations.EncodedCodeIsInRange : Prop :=
  ∀ s : State, s.Inv → s.phase = .encActive → s.matchReg.valid = true →
    s.matchReg.code.toNat < s.nextCode.toNat ∧ s.nextCode.toNat ≤ 2 ^ s.config.maxBits.toNat ∧
    s.matchReg.code.toNat < 2 ^ s.width.toNat

/-- 10_state.md R39, R40, 20_memory.md R84: in a pass every code below NEXT_CODE has its sequence, never empty and, from 256 on, no longer
than the code less 254, in either dictionary. -/
def Obligations.EveryCodeHasItsBoundedSequence : Prop :=
  (∀ (s : State) (c : Code), s.Inv → s.phase = .encActive → c.toNat < s.nextCode.toNat →
    ∃ q, seqE s.echild c = some q ∧ q ≠ [] ∧ q.length ≤ max 1 (c.toNat - 254)) ∧
  (∀ (s : State) (c : Nat), s.Inv → s.phase = .decActive → c < s.nextCode.toNat →
    ∃ q, dtabAt s.dtab c = some q ∧ q ≠ [] ∧ q.length ≤ max 1 (c - 254))

/-- 41_dictionaries.md R162, R166: the trie's probe answers what a lookup of the whole candidate sequence answers. -/
def Obligations.ProbeIsLookupOfTheCandidate : Prop :=
  ∀ (s : State) (p : Code) (b : Byte) (q : Bytes), s.Inv → s.phase = .encActive → p.toNat < s.nextCode.toNat →
    seqE s.echild p = some q → trieLookup s.echild q = some p ∧ eChild p b s = trieLookup s.echild (q ++ [b])

/-! The decode pipeline. -/

/-- 43_decode.md R222 to R224: DEC_START with a byte on IN completes in every phase: the pass is fresh, and the byte, whatever
its value, is popped into HDR. -/
def Obligations.DecStartReadsTheHeader : Prop :=
  ∀ (s : State) (h : Byte) (rest : List Byte), s.inQ = h :: rest →
    exec .decStart s = .next { s with
      cq := s.cq.tail, phase := .decActive, err := none, errcmd := 0,
      width := if s.config.adaptive then 9 else s.config.maxBits.setWidth 5, nextCode := 256,
      matchReg := { valid := false, code := 0 }, wAcc := 0, wCnt := 0, rBuf := h, rCnt := 0, inQ := rest,
      result := { value := 0, valid := false, nodata := false, midcode := false }, hdr := { byte := h, valid := true },
      cntIn := 1, cntOut := 0, cntCodes := 0, echild := [], dtab := [],
      eosOwner := s.eosOwner.map EosOwner.atStart }

/-- 43_decode.md R222, 60_exceptions.md R273 item 1, R281: DEC_START with IN empty and InEOS set runs start_common, leaving any
earlier error, and raises INVALID_CODE. -/
def Obligations.DecStartWithoutHeaderRaisesInvalidCode : Prop :=
  ∀ s : State, s.inQ = [] → s.inEos = true →
    exec .decStart s = .next { s with
      cq := s.cq.tail, phase := .error, err := some .invalidCode, errcmd := 0x08000000,
      width := if s.config.adaptive then 9 else s.config.maxBits.setWidth 5, nextCode := 256,
      matchReg := { valid := false, code := 0 }, wAcc := 0, wCnt := 0, rBuf := 0, rCnt := 0,
      result := { value := 0, valid := false, nodata := false, midcode := false }, hdr := { byte := 0, valid := false },
      cntIn := 0, cntOut := 0, cntCodes := 0, echild := [], dtab := [],
      eosOwner := s.eosOwner.map EosOwner.atStart }

/-- 43_decode.md R226, R227, R228: a first code below 256 is pushed as its byte, counted, and becomes the match; the table and
WIDTH stay. -/
def Obligations.DecStepFirstCodeIsItsByte : Prop :=
  ∀ s : State, codeArrived s → s.width.toNat ≤ 24 → s.matchReg.valid = false →
    (nextValue s.width.toNat s).toNat < 256 →
    ∃ t, exec .decStep s = .next t ∧ bitsTaken s.width.toNat s t ∧
      t = { s with
        cq := s.cq.tail, rBuf := t.rBuf, rCnt := t.rCnt, inQ := t.inQ, cntIn := t.cntIn,
        result := resultOk (nextValue s.width.toNat s),
        outLog := s.outLog ++ [(nextValue s.width.toNat s).setWidth 8], cntOut := s.cntOut + 1, cntCodes := s.cntCodes + 1,
        matchReg := { valid := true, code := nextValue s.width.toNat s } }

/-- 43_decode.md R227, R229 item 3, R232, 60_exceptions.md R273 items 3, 4: a first code of 256 or more, and a later code above
NEXT_CODE, raise INVALID_CODE: the read stays done and nothing else changes. -/
def Obligations.DecStepOutOfRangeCodeRaisesInvalidCode : Prop :=
  ∀ s : State, s.Inv → codeArrived s →
    (s.matchReg.valid = false ∧ 256 ≤ (nextValue s.width.toNat s).toNat ∨
      s.matchReg.valid = true ∧ s.nextCode.toNat < (nextValue s.width.toNat s).toNat) →
    ∃ t, exec .decStep s = .next t ∧ bitsTaken s.width.toNat s t ∧
      t = { s with
        cq := s.cq.tail, rBuf := t.rBuf, rCnt := t.rCnt, inQ := t.inQ, cntIn := t.cntIn,
        result := resultOk (nextValue s.width.toNat s),
        phase := .error, err := some .invalidCode, errcmd := 0x09000000 }

/-- 43_decode.md R228 to R231, 41_dictionaries.md R180: a later code that is bound, or equal to NEXT_CODE, is pushed as its
entry (the bound sequence, or the current match and its own first byte), counted, and made the match; unless saturated the
table takes the current match and the entry's first byte at NEXT_CODE, and WIDTH widens by the decoder's test. After
the step the code is bound to the entry in every case. -/
def Obligations.DecStepLaterCodePushesItsEntry : Prop :=
  ∀ s : State, s.Inv → codeArrived s → s.matchReg.valid = true →
    (nextValue s.width.toNat s).toNat ≤ s.nextCode.toNat →
    ∃ (t : State) (c0 e0 : Byte) (cur entry : Bytes),
      dtabAt s.dtab s.matchReg.code.toNat = some (c0 :: cur) ∧
      ((nextValue s.width.toNat s).toNat < s.nextCode.toNat →
        dtabAt s.dtab (nextValue s.width.toNat s).toNat = some (e0 :: entry)) ∧
      ((nextValue s.width.toNat s).toNat = s.nextCode.toNat → e0 :: entry = (c0 :: cur) ++ [c0]) ∧
      exec .decStep s = .next t ∧ bitsTaken s.width.toNat s t ∧
      t = { s with
        cq := s.cq.tail, rBuf := t.rBuf, rCnt := t.rCnt, inQ := t.inQ, cntIn := t.cntIn,
        result := resultOk (nextValue s.width.toNat s), outLog := s.outLog ++ (e0 :: entry),
        cntOut := s.cntOut + BitVec.ofNat 32 (e0 :: entry).length, cntCodes := s.cntCodes + 1,
        matchReg := { valid := true, code := nextValue s.width.toNat s },
        dtab := t.dtab, nextCode := t.nextCode, width := t.width } ∧
      dtabAt t.dtab (nextValue s.width.toNat s).toNat = some (e0 :: entry) ∧
      (s.nextCode.toNat < 2 ^ s.config.maxBits.toNat →
        t.nextCode.toNat = s.nextCode.toNat + 1 ∧
        (∀ c, dtabAt t.dtab c = if c = s.nextCode.toNat then some ((c0 :: cur) ++ [e0]) else dtabAt s.dtab c) ∧
        t.width.toNat = if s.config.adaptive = true ∧ 2 ^ s.width.toNat ≤ s.nextCode.toNat + 2 ∧
          s.width.toNat < s.config.maxBits.toNat then s.width.toNat + 1 else s.width.toNat) ∧
      (2 ^ s.config.maxBits.toNat ≤ s.nextCode.toNat →
        t.nextCode = s.nextCode ∧ t.dtab = s.dtab ∧ t.width = s.width)

/-- 43_decode.md R226, 40_bitstream.md R139: at the end of input with too few bits for a code, DEC_STEP ends the pass in
DEC_DONE when IN was empty (a code boundary), and raises INVALID_CODE when a byte was taken (mid-code); the read stays
done, RESULT says no data, and nothing is pushed. -/
def Obligations.DecStepAtTheEndOfInput : Prop :=
  ∀ s : State, s.phase = .decActive → s.rCnt.toNat + 8 * s.inQ.length < s.width.toNat → s.inEos = true →
    ∃ t, exec .decStep s = .next t ∧
      t = { s with
        cq := s.cq.tail, rBuf := t.rBuf, rCnt := 0, inQ := [], cntIn := s.cntIn + BitVec.ofNat 32 s.inQ.length,
        result := resultNodata (!s.inQ.isEmpty),
        phase := if s.inQ = [] then .decDone else .error,
        err := if s.inQ = [] then s.err else some .invalidCode,
        errcmd := if s.inQ = [] then s.errcmd else 0x09000000 }

/-- 43_decode.md R225, R226, R236: in a state that meets the invariant, with a code or the end of input there, one iteration of DEC_RUN
does what DEC_STEP does, its word staying at the head of CQ until the pass has ended, and ERRCMD taking its own word. A
legal code leaves the pass active, the end of input at a code boundary ends it in DEC_DONE, and anything else raises. -/
def Obligations.DecRunIteratesDecStep : Prop :=
  ∀ s : State, s.Inv → s.phase = .decActive →
    (s.width.toNat ≤ s.rCnt.toNat + 8 * s.inQ.length ∨ s.inEos = true) →
    ∃ t, exec .decStep s = .next t ∧ t.cq = s.cq.tail ∧
      (t.phase = if s.width.toNat ≤ s.rCnt.toNat + 8 * s.inQ.length then
          (if (nextValue s.width.toNat s).toNat ≤ (if s.matchReg.valid then s.nextCode.toNat else 255) then .decActive else .error)
        else if s.inQ = [] then .decDone else .error) ∧
      exec .decRun s = .next { t with
        cq := if t.phase = .decActive then s.cq else s.cq.tail,
        errcmd := if t.phase = .error then 0x0A000000 else t.errcmd }

/-- 43_decode.md R233, R234, R228, 42_encode.md R205: with ENC_START and ENC_RUN on CQ and a finite input S on IN with InEOS set, the
block reaches ENC_DONE; and on any block with the same CONFIG, DEC_START and DEC_RUN on CQ and the bytes pushed on IN with InEOS
set, it reaches DEC_DONE with exactly S pushed, no error, the encoder's code count, and a last read that found no data at a code
boundary. -/
def Obligations.DecodingAnEncodedStreamGivesTheInputBack : Prop :=
  ∀ (s : State) (input : Bytes), s.Inv → s.agenda = [] → s.cq = [encode .encStart, encode .encRun] → s.inQ = input →
    s.inEos = true →
    ∃ (n : Nat) (t : State) (stream : Bytes), runSteps n s = some t ∧ t.phase = .encDone ∧ t.err = none ∧ t.cq = [] ∧
      t.outLog = s.outLog ++ stream ∧
      ∀ d : State, d.Inv → d.agenda = [] → d.cq = [encode .decStart, encode .decRun] → d.inQ = stream → d.inEos = true →
        d.config = s.config →
        ∃ (m : Nat) (u : State), runSteps m d = some u ∧ u.phase = .decDone ∧ u.err = none ∧ u.cq = [] ∧
          u.outLog = d.outLog ++ input ∧ u.cntCodes = t.cntCodes ∧ u.result = resultNodata false

/-! Invariants and rules of the whole machine. -/

/-- 10_state.md R51, R53: the reset state meets the invariant. -/
def Obligations.ResetMeetsTheInvariant : Prop := State.reset.Inv

/-- 10_state.md R51 and the rules `State.Inv` names: every step, of the block or of the host, keeps the invariant. -/
def Obligations.EveryStepKeepsTheInvariant : Prop :=
  ∀ s t : State, s.Inv → step s = .next t → t.Inv

/-- 10_state.md R51 item 8, 30_encoding.md R99, 44_control.md R255: from a state that meets the invariant no step faults, so that the fault
`undefinedEntry`, which is the model's own (log 8), is never reached; and on the block's turn the step answers a next
state. For a held command and an empty CQ, which have no step in the spec (20_memory.md R67, 93_implementation_defined.md
I19), that next state, the state as it was, is the model's reading (DEDUCED, log 1). -/
def Obligations.BlockNeverStopsUnderTheInvariant : Prop :=
  ∀ s : State, s.Inv → isFault (step s) = false ∧ (blockTurn s = true → ∃ t, step s = .next t)

/-- 20_memory.md R64, 43_decode.md R232: a byte once pushed to OUT is never withdrawn, by any step of the block or the host. -/
def Obligations.OutputIsNeverWithdrawn : Prop :=
  ∀ s t : State, step s = .next t → ∃ l, t.outLog = s.outLog ++ l

/-- 20_memory.md R62, R63, R69, R78 and 00_scope.md R8: a step of the block takes bytes from the head of IN alone and the word
at the head of CQ alone, and leaves InEOS, what the host has drained and read, and the parameters as they are. -/
def Obligations.BlockTakesInputAndCommandsInOrder : Prop :=
  ∀ s t : State, blockTurn s = true → step s = .next t →
    (∃ l, s.inQ = l ++ t.inQ) ∧ (t.cq = s.cq ∨ t.cq = s.cq.tail) ∧
    t.inEos = s.inEos ∧ t.outTaken = s.outTaken ∧ t.hostData = s.hostData ∧ t.params = s.params

/-- 42_encode.md R191, 43_decode.md R221: a step that changes PHASE is one of the listed arrows, a reset, or an error. -/
def Obligations.PhaseMovesOnlyAsListed : Prop :=
  ∀ s t : State, step s = .next t → t.phase ≠ s.phase → entersPhase s t.phase

/-- 20_memory.md R66, R67, 42_encode.md R205: while InEOS is clear, bytes that arrive behind those a command needs change nothing it
does: a command that does not hold does the same with them as without, and leaves them on IN. -/
def Obligations.LaterInputDoesNotChangeACommand : Prop :=
  ∀ (i : Instr) (s t : State) (l : Bytes), s.inEos = false → ¬ holdsIn i s → exec i s = .next t →
    exec i (withInput l s) = .next (withInput l t)

/-- 10_state.md R32: only a legal CFG outside a pass, SOFT_RESET and hardware reset write CONFIG. -/
def Obligations.ConfigIsWrittenOnlyByCfgAndResets : Prop :=
  ∀ s t : State, step s = .next t → t.config ≠ s.config →
    hostMakes .hardReset s ∨ headIs .softReset s ∨
      ∃ cw rest m a, s.cq = cw :: rest ∧ decode cw = .ok (.cfg m a) ∧ t.config = { maxBits := m, adaptive := a } ∧
        s.phase ≠ .encActive ∧ s.phase ≠ .decActive ∧ 9 ≤ m.toNat ∧ m.toNat ≤ s.params.maxbLimit

/-- 10_state.md R30, 42_encode.md R204: a step of the block never lowers NEXT_CODE, but for the commands that set it to 256. -/
def Obligations.NextCodeNeverDecreases : Prop :=
  ∀ s t : State, s.Inv → blockTurn s = true → step s = .next t →
    s.nextCode.toNat ≤ t.nextCode.toNat ∨
      (t.nextCode = 256 ∧ (blockRuns .softReset s ∨ blockRuns .encStart s ∨ blockRuns .decStart s))

/-- 41_dictionaries.md R165, R180: within a pass a binding never changes once made. -/
def Obligations.BindingsNeverChangeInAPass : Prop :=
  ∀ s t : State, s.Inv → blockTurn s = true → step s = .next t → t.phase = s.phase →
    ¬ blockRuns .encStart s → ¬ blockRuns .decStart s →
    (s.phase = .encActive → ∀ p b c, eChild p b s = some c → eChild p b t = some c) ∧
    (s.phase = .decActive → ∀ c q, dtabAt s.dtab c = some q → dtabAt t.dtab c = some q)

/-! The register window and the host's moves. -/

/-- 20_memory.md R70, 93_implementation_defined.md I17: a read of a defined offset returns the register and changes nothing else; a
write of CMD appends to CQ, here while it is not full, and a write of any other offset is ignored; an access that is not an aligned
32-bit access of the window is refused. That a read's word is kept in `hostData` is the model's (log 6). -/
def Obligations.WindowAccessesAsDefined : Prop :=
  ∀ (s : State) (size off : Nat) (w : Word) (rest : List Turn),
    (s.agenda = .host (.readReg size off) :: rest →
      step s = if size = 32 ∧ off % 4 = 0 ∧ off ≤ 0x3C then
        .next { s with agenda := rest, hostData := some (windowRead off s) } else .refused .windowAccess) ∧
    (s.agenda = .host (.writeReg size off w) :: rest → s.cq.length < s.params.cqDepth →
      step s = if size = 32 ∧ off % 4 = 0 ∧ off ≤ 0x3C then
        .next { s with agenda := rest, cq := if off = 0 then s.cq ++ [w] else s.cq } else .refused .windowAccess) ∧
    (s.agenda = .host (.writeReg size off w) :: rest → size ≠ 32 ∨ off ≠ 0 →
      step s = if size = 32 ∧ off % 4 = 0 ∧ off ≤ 0x3C then .next { s with agenda := rest } else .refused .windowAccess)

/-- 10_state.md R49, 20_memory.md R69: a write of CMD appends its word to the tail of CQ and changes nothing else; while CQ is full the
write stalls the host: the block runs the word at the head of CQ, and the write is still to come. That the block's cycle is what
a step shows of the stall is the model's (logs 2, 15). -/
def Obligations.CmdWriteAppendsOrStalls : Prop :=
  ∀ (s : State) (w : Word) (rest : List Turn), s.agenda = .host (.writeReg 32 0 w) :: rest →
    (s.cq.length < s.params.cqDepth → step s = .next { s with agenda := rest, cq := s.cq ++ [w] }) ∧
    (s.params.cqDepth ≤ s.cq.length → ∀ cw tail, s.cq = cw :: tail →
      (∀ i, decode cw = .ok i → step s = exec i s) ∧
      (∀ e, decode cw = .error e → step s = .next (afterError .illegalCmd cw s))) ∧
    (∀ t, s.params.cqDepth ≤ s.cq.length → step s = .next t → t.agenda = s.agenda)

/-- 10_state.md R42: the fields of STATUS, its reset value, and that a write of it changes nothing. -/
def Obligations.StatusLayout : Prop :=
  ∀ s : State,
    (windowRead 0x04 s).extractLsb' 0 3 =
      (match s.phase with | .idle => 0 | .encActive => 1 | .encDone => 2 | .decActive => 3 | .decDone => 4 | .error => 7) ∧
    (windowRead 0x04 s).getLsbD 3 = !s.cq.isEmpty ∧
    (windowRead 0x04 s).extractLsb' 4 4 =
      (match s.err with
        | none => 0 | some .invalidCode => 1 | some .illegalCmd => 2 | some .badConfig => 3 | some .badPhase => 4) ∧
    (windowRead 0x04 s).extractLsb' 8 5 = s.width ∧ (windowRead 0x04 s).extractLsb' 13 3 = 0 ∧
    (windowRead 0x04 s).extractLsb' 16 3 = s.wCnt ∧ (windowRead 0x04 s).getLsbD 19 = false ∧
    (windowRead 0x04 s).extractLsb' 20 3 = s.rCnt ∧ (windowRead 0x04 s).getLsbD 23 = s.matchReg.valid ∧
    (windowRead 0x04 s).extractLsb' 24 8 = 0 ∧ windowRead 0x04 State.reset = 0 ∧
    (∀ w rest, s.agenda = .host (.writeReg 32 0x04 w) :: rest → step s = .next { s with agenda := rest })

/-- 10_state.md R27, R41, R43 to R49: the fields of the other registers and their reset values; CMD and the reserved offsets read as 0. -/
def Obligations.OtherRegisterLayouts : Prop :=
  ∀ s : State,
    ((windowRead 0x08 s).extractLsb' 0 8 = s.config.maxBits ∧ (windowRead 0x08 s).getLsbD 8 = s.config.adaptive ∧
      (windowRead 0x08 s).extractLsb' 9 23 = 0) ∧
    ((windowRead 0x0C s).extractLsb' 0 24 = s.result.value ∧ (windowRead 0x0C s).getLsbD 24 = s.result.valid ∧
      (windowRead 0x0C s).getLsbD 25 = s.result.nodata ∧ (windowRead 0x0C s).getLsbD 26 = s.result.midcode ∧
      (windowRead 0x0C s).extractLsb' 27 5 = 0) ∧
    ((windowRead 0x10 s).extractLsb' 0 25 = s.nextCode ∧ (windowRead 0x10 s).extractLsb' 25 7 = 0) ∧
    ((windowRead 0x14 s).extractLsb' 0 24 = s.matchReg.code ∧ (windowRead 0x14 s).extractLsb' 24 7 = 0 ∧
      (windowRead 0x14 s).getLsbD 31 = s.matchReg.valid) ∧
    (windowRead 0x18 s = s.cntIn ∧ windowRead 0x1C s = s.cntOut ∧ windowRead 0x20 s = s.cntCodes) ∧
    ((windowRead 0x24 s).extractLsb' 0 8 = s.hdr.byte ∧ (windowRead 0x24 s).getLsbD 8 = s.hdr.valid ∧
      (windowRead 0x24 s).extractLsb' 9 23 = 0) ∧
    windowRead 0x28 s = s.errcmd ∧ windowRead 0x00 s = 0 ∧
    (∀ off, off ∈ [0x2C, 0x30, 0x34, 0x38, 0x3C] → windowRead off s = 0) ∧
    (windowRead 0x08 State.reset = 0x0000000C ∧ windowRead 0x0C State.reset = 0 ∧ windowRead 0x10 State.reset = 0x00000100 ∧
      windowRead 0x14 State.reset = 0 ∧ windowRead 0x18 State.reset = 0 ∧ windowRead 0x1C State.reset = 0 ∧
      windowRead 0x20 State.reset = 0 ∧ windowRead 0x24 State.reset = 0 ∧ windowRead 0x28 State.reset = 0)

/-- 20_memory.md R62, 70_reset_and_hazards.md R309, 93_implementation_defined.md I18: a byte pushed while InEOS is clear joins the
tail of IN, InEOS is set once by the host, a push after InEOS within a pass is refused; R62, R305 item 3, R311: the host
clears InEOS and discards input between passes, and what is left over within one. The rest is the model's choice, which
no rule gives (DESIGN CHOICE, log 9): a push while InEOS is set outside a pass joins the tail of IN too, setting InEOS again is
allowed and leaves it set, a discard within a pass is accepted also where nothing is left over, a clear or a discard is
refused in the pass whose own input InEOS ends, and the field `eosOwner` says whose that is. -/
def Obligations.HostFeedsTheInputPort : Prop :=
  ∀ (s : State) (b : Byte) (rest : List Turn),
    (s.agenda = .host (.pushIn b) :: rest →
      step s = if s.inEos = true ∧ (s.phase = .encActive ∨ s.phase = .decActive) then .refused .pushAfterEos
        else .next { s with agenda := rest, inQ := s.inQ ++ [b] }) ∧
    (s.agenda = .host .setEos :: rest → step s = .next { s with
      agenda := rest, inEos := true,
      eosOwner := if s.phase = .encActive ∨ s.phase = .decActive then some .thisPass else some .nextPass }) ∧
    (s.agenda = .host .clearEos :: rest →
      step s = if (s.phase = .encActive ∨ s.phase = .decActive) ∧ s.eosOwner = some .thisPass then .refused .inputReplacedInPass
        else .next { s with agenda := rest, inEos := false, eosOwner := none }) ∧
    (s.agenda = .host .discardIn :: rest →
      step s = if (s.phase = .encActive ∨ s.phase = .decActive) ∧ s.eosOwner = some .thisPass then .refused .inputReplacedInPass
        else .next { s with agenda := rest, inQ := [] })

/-- 30_encoding.md R101, R103: the assembler names only well-formed commands, and a pseudo-instruction stands for the three words
of its expansion. -/
def Obligations.AssemblerNamesOnlyCommands : Prop :=
  (∀ (m : List Char) (ops : List Nat) (i : Instr), assembleInstr m ops = some i → i.wellFormed = true) ∧
  (∀ (m : BitVec 8) (a : Bool),
    (Pseudo.compress m a).expand.map encode = [encode (.cfg m a), 0x04000000, 0x06000000] ∧
    (Pseudo.decompress m a).expand.map encode = [encode (.cfg m a), 0x08000000, 0x0A000000])

/-- 70_reset_and_hazards.md R309, 20_memory.md R62: while a pass runs whose own input the set InEOS ends, be it set before the START or
after, no step that the model answers pushes a byte onto IN or clears InEOS; IN only shrinks, and InEOS stays that pass's
until a START begins another. An InEOS set by the host outside a pass is the next pass's. That the model remembers whose
it is, and refuses such moves, is its own (DESIGN CHOICE, log 9). -/
def Obligations.EndedInputGrowsNoMoreInItsPass : Prop :=
  (∀ s t : State, s.Inv → s.phase = .encActive ∨ s.phase = .decActive → s.eosOwner = some .thisPass → step s = .next t →
    t.inEos = true ∧ (∃ l, s.inQ = l ++ t.inQ) ∧
    (t.eosOwner = some .thisPass ∨
      t.eosOwner = some .earlierPass ∧ (headIs .encStart s ∨ headIs .decStart s))) ∧
  (∀ (s t : State) (b : Byte) (rest : List Byte), s.inEos = true → s.eosOwner = some .nextPass → s.inQ = b :: rest →
    (exec .encStart s = .next t ∨ exec .decStart s = .next t) →
    (t.phase = .encActive ∨ t.phase = .decActive) ∧ t.inEos = true ∧ t.eosOwner = some .thisPass)
end

