-- ==== Sys2Proof/Laws/BitString.lean ====
section
/-!
SUPPORT. Bit strings (00_scope.md R11): length, concatenation, and that a bit string and its MSB-first value determine each
other.
-/

namespace Sys2Proof.Machine

@[simp] theorem length_bitString (w v : Nat) : (bitString w v).length = w := by
  induction w with
  | zero => rfl
  | succ n ih => simp [bitString, ih]

theorem bitString_congr {w v v' : Nat} (h : ∀ i, i < w → v.testBit i = v'.testBit i) : bitString w v = bitString w v' := by
  induction w with
  | zero => rfl
  | succ n ih =>
    rw [bitString, bitString, h n (Nat.lt_succ_self n), ih (fun i hi => h i (Nat.lt_succ_of_lt hi))]

theorem bitString_mod (w v : Nat) : bitString w (v % 2 ^ w) = bitString w v :=
  bitString_congr (fun i hi => by simp [Nat.testBit_mod_two_pow, hi])

theorem bitString_add (a b v : Nat) : bitString (a + b) v = bitString a (v / 2 ^ b) ++ bitString b v := by
  induction a with
  | zero => simp [bitString]
  | succ n ih =>
    rw [Nat.add_right_comm, bitString, bitString, ih, List.cons_append]
    simp [Nat.testBit_div_two_pow, Nat.add_comm]

/-- The bits of a number are those of its quotient by 2, then its last bit. -/
theorem bitString_succ (w v : Nat) : bitString (w + 1) v = bitString w (v / 2) ++ [v.testBit 0] := by
  rw [bitString_add w 1 v]
  simp [bitString]

theorem bitValueFrom_append (a : Nat) (l m : List Bool) : bitValueFrom a (l ++ m) = bitValueFrom (bitValueFrom a l) m := by
  induction l generalizing a with
  | nil => rfl
  | cons b rest ih => simp [bitValueFrom, ih]

theorem bitValueFrom_bitString (a w v : Nat) : bitValueFrom a (bitString w v) = a * 2 ^ w + v % 2 ^ w := by
  induction w generalizing v with
  | zero => simp [bitString, bitValueFrom, Nat.mod_one]
  | succ n ih =>
    rw [bitString_succ, bitValueFrom_append, ih]
    simp only [bitValueFrom, Nat.testBit_zero, Nat.pow_succ]
    have h1 : v % (2 ^ n * 2) = 2 * (v / 2 % 2 ^ n) + v % 2 := by
      rw [Nat.mul_comm, Nat.mod_mul]; omega
    have h2 : (decide (v % 2 = 1)).toNat = v % 2 := by
      rcases Nat.mod_two_eq_zero_or_one v with h | h <;> simp [h]
    rw [h1, h2]; ring

@[simp] theorem bitValue_bitString (w v : Nat) : bitValue (bitString w v) = v % 2 ^ w := by
  simp [bitValue, bitValueFrom_bitString]

theorem bitValueFrom_lt (a : Nat) (l : List Bool) : bitValueFrom a l < (a + 1) * 2 ^ l.length := by
  induction l generalizing a with
  | nil => simp [bitValueFrom]
  | cons b rest ih =>
    have h := ih (2 * a + b.toNat)
    have hb : b.toNat ≤ 1 := Bool.toNat_le b
    simp only [bitValueFrom, List.length_cons, Nat.pow_succ]
    calc _ < (2 * a + b.toNat + 1) * 2 ^ rest.length := h
      _ ≤ (2 * (a + 1)) * 2 ^ rest.length := Nat.mul_le_mul_right _ (by omega)
      _ = _ := by ring

theorem bitValue_lt (l : List Bool) : bitValue l < 2 ^ l.length := by
  simpa [bitValue] using bitValueFrom_lt 0 l

theorem bitString_bitValueFrom (l : List Bool) (a : Nat) : bitString l.length (bitValueFrom a l) = l := by
  induction l using List.reverseRecOn generalizing a with
  | nil => rfl
  | append_singleton l b ih =>
    rw [List.length_append, List.length_singleton, bitString_succ, bitValueFrom_append]
    have h1 : bitValueFrom (bitValueFrom a l) [b] / 2 = bitValueFrom a l := by
      cases b <;> simp [bitValueFrom]; omega
    have h2 : (bitValueFrom (bitValueFrom a l) [b]).testBit 0 = b := by
      cases b <;> simp [bitValueFrom, Nat.testBit_zero]
    rw [h1, h2, ih]

/-- A bit string is the MSB-first bit string of its value. -/
@[simp] theorem bitString_bitValue (l : List Bool) : bitString l.length (bitValue l) = l := bitString_bitValueFrom l 0

theorem bitString_inj {w v v' : Nat} (hv : v < 2 ^ w) (hv' : v' < 2 ^ w) (h : bitString w v = bitString w v') : v = v' := by
  have := congrArg bitValue h
  simpa [Nat.mod_eq_of_lt hv, Nat.mod_eq_of_lt hv'] using this

@[simp] theorem length_byteBits (b : Byte) : (byteBits b).length = 8 := length_bitString 8 _

@[simp] theorem bytesBits_nil : bytesBits [] = [] := rfl

@[simp] theorem bytesBits_cons (b : Byte) (l : Bytes) : bytesBits (b :: l) = byteBits b ++ bytesBits l := rfl

@[simp] theorem bytesBits_append (l m : Bytes) : bytesBits (l ++ m) = bytesBits l ++ bytesBits m := by
  simp [bytesBits]

@[simp] theorem length_bytesBits (l : Bytes) : (bytesBits l).length = 8 * l.length := by
  induction l with
  | nil => rfl
  | cons b rest ih => simp [ih]; omega

theorem byteBits_inj {a b : Byte} (h : byteBits a = byteBits b) : a = b :=
  BitVec.eq_of_toNat_eq (bitString_inj (w := 8) a.isLt b.isLt h)

/-- The bytes and the bits left over of a bit string are determined by it. -/
theorem bytesBits_append_inj {l m : Bytes} {p q : List Bool} (hp : p.length < 8) (hq : q.length < 8)
    (h : bytesBits l ++ p = bytesBits m ++ q) : l = m ∧ p = q := by
  have hlen : l.length = m.length := by
    have := congrArg List.length h
    simp at this; omega
  induction l generalizing m with
  | nil =>
    cases m with
    | nil => exact ⟨rfl, by simpa using h⟩
    | cons b rest => simp at hlen
  | cons a l ih =>
    cases m with
    | nil => simp at hlen
    | cons b rest =>
      simp only [bytesBits_cons, List.append_assoc] at h
      have h1 := List.append_inj h (by simp)
      obtain ⟨h2, h3⟩ := ih h1.2 (by simpa using hlen)
      exact ⟨by rw [byteBits_inj h1.1, h2], h3⟩

end Sys2Proof.Machine
end

