-- ==== Sys2Proof/Laws/State.lean ====
section
/-!
SUPPORT. One lemma for each field of State and each named update of it: what the field is after the update. All hold by rfl
and are simp lemmas, so that no proof unfolds a record update.
-/

namespace Sys2Proof.Machine

@[simp] theorem outPush_cq (b : Byte) (s : State) : (outPush b s).cq = s.cq := rfl
@[simp] theorem outPush_phase (b : Byte) (s : State) : (outPush b s).phase = s.phase := rfl
@[simp] theorem outPush_err (b : Byte) (s : State) : (outPush b s).err = s.err := rfl
@[simp] theorem outPush_errcmd (b : Byte) (s : State) : (outPush b s).errcmd = s.errcmd := rfl
@[simp] theorem outPush_width (b : Byte) (s : State) : (outPush b s).width = s.width := rfl
@[simp] theorem outPush_nextCode (b : Byte) (s : State) : (outPush b s).nextCode = s.nextCode := rfl
@[simp] theorem outPush_matchReg (b : Byte) (s : State) : (outPush b s).matchReg = s.matchReg := rfl
@[simp] theorem outPush_config (b : Byte) (s : State) : (outPush b s).config = s.config := rfl
@[simp] theorem outPush_wAcc (b : Byte) (s : State) : (outPush b s).wAcc = s.wAcc := rfl
@[simp] theorem outPush_wCnt (b : Byte) (s : State) : (outPush b s).wCnt = s.wCnt := rfl
@[simp] theorem outPush_rBuf (b : Byte) (s : State) : (outPush b s).rBuf = s.rBuf := rfl
@[simp] theorem outPush_rCnt (b : Byte) (s : State) : (outPush b s).rCnt = s.rCnt := rfl
@[simp] theorem outPush_result (b : Byte) (s : State) : (outPush b s).result = s.result := rfl
@[simp] theorem outPush_hdr (b : Byte) (s : State) : (outPush b s).hdr = s.hdr := rfl
@[simp] theorem outPush_cntIn (b : Byte) (s : State) : (outPush b s).cntIn = s.cntIn := rfl
@[simp] theorem outPush_cntOut (b : Byte) (s : State) : (outPush b s).cntOut = s.cntOut + 1 := rfl
@[simp] theorem outPush_cntCodes (b : Byte) (s : State) : (outPush b s).cntCodes = s.cntCodes := rfl
@[simp] theorem outPush_echild (b : Byte) (s : State) : (outPush b s).echild = s.echild := rfl
@[simp] theorem outPush_dtab (b : Byte) (s : State) : (outPush b s).dtab = s.dtab := rfl
@[simp] theorem outPush_inQ (b : Byte) (s : State) : (outPush b s).inQ = s.inQ := rfl
@[simp] theorem outPush_inEos (b : Byte) (s : State) : (outPush b s).inEos = s.inEos := rfl
@[simp] theorem outPush_eosOwner (b : Byte) (s : State) : (outPush b s).eosOwner = s.eosOwner := rfl
@[simp] theorem outPush_outLog (b : Byte) (s : State) : (outPush b s).outLog = s.outLog ++ [b] := rfl
@[simp] theorem outPush_outTaken (b : Byte) (s : State) : (outPush b s).outTaken = s.outTaken := rfl
@[simp] theorem outPush_hostData (b : Byte) (s : State) : (outPush b s).hostData = s.hostData := rfl
@[simp] theorem outPush_agenda (b : Byte) (s : State) : (outPush b s).agenda = s.agenda := rfl
@[simp] theorem outPush_params (b : Byte) (s : State) : (outPush b s).params = s.params := rfl

@[simp] theorem countCode_cq (s : State) : (countCode s).cq = s.cq := rfl
@[simp] theorem countCode_phase (s : State) : (countCode s).phase = s.phase := rfl
@[simp] theorem countCode_err (s : State) : (countCode s).err = s.err := rfl
@[simp] theorem countCode_errcmd (s : State) : (countCode s).errcmd = s.errcmd := rfl
@[simp] theorem countCode_width (s : State) : (countCode s).width = s.width := rfl
@[simp] theorem countCode_nextCode (s : State) : (countCode s).nextCode = s.nextCode := rfl
@[simp] theorem countCode_matchReg (s : State) : (countCode s).matchReg = s.matchReg := rfl
@[simp] theorem countCode_config (s : State) : (countCode s).config = s.config := rfl
@[simp] theorem countCode_wAcc (s : State) : (countCode s).wAcc = s.wAcc := rfl
@[simp] theorem countCode_wCnt (s : State) : (countCode s).wCnt = s.wCnt := rfl
@[simp] theorem countCode_rBuf (s : State) : (countCode s).rBuf = s.rBuf := rfl
@[simp] theorem countCode_rCnt (s : State) : (countCode s).rCnt = s.rCnt := rfl
@[simp] theorem countCode_result (s : State) : (countCode s).result = s.result := rfl
@[simp] theorem countCode_hdr (s : State) : (countCode s).hdr = s.hdr := rfl
@[simp] theorem countCode_cntIn (s : State) : (countCode s).cntIn = s.cntIn := rfl
@[simp] theorem countCode_cntOut (s : State) : (countCode s).cntOut = s.cntOut := rfl
@[simp] theorem countCode_cntCodes (s : State) : (countCode s).cntCodes = s.cntCodes + 1 := rfl
@[simp] theorem countCode_echild (s : State) : (countCode s).echild = s.echild := rfl
@[simp] theorem countCode_dtab (s : State) : (countCode s).dtab = s.dtab := rfl
@[simp] theorem countCode_inQ (s : State) : (countCode s).inQ = s.inQ := rfl
@[simp] theorem countCode_inEos (s : State) : (countCode s).inEos = s.inEos := rfl
@[simp] theorem countCode_eosOwner (s : State) : (countCode s).eosOwner = s.eosOwner := rfl
@[simp] theorem countCode_outLog (s : State) : (countCode s).outLog = s.outLog := rfl
@[simp] theorem countCode_outTaken (s : State) : (countCode s).outTaken = s.outTaken := rfl
@[simp] theorem countCode_hostData (s : State) : (countCode s).hostData = s.hostData := rfl
@[simp] theorem countCode_agenda (s : State) : (countCode s).agenda = s.agenda := rfl
@[simp] theorem countCode_params (s : State) : (countCode s).params = s.params := rfl

@[simp] theorem setMatch_cq (c : Code) (s : State) : (setMatch c s).cq = s.cq := rfl
@[simp] theorem setMatch_phase (c : Code) (s : State) : (setMatch c s).phase = s.phase := rfl
@[simp] theorem setMatch_err (c : Code) (s : State) : (setMatch c s).err = s.err := rfl
@[simp] theorem setMatch_errcmd (c : Code) (s : State) : (setMatch c s).errcmd = s.errcmd := rfl
@[simp] theorem setMatch_width (c : Code) (s : State) : (setMatch c s).width = s.width := rfl
@[simp] theorem setMatch_nextCode (c : Code) (s : State) : (setMatch c s).nextCode = s.nextCode := rfl
@[simp] theorem setMatch_matchReg (c : Code) (s : State) : (setMatch c s).matchReg = { valid := true, code := c } := rfl
@[simp] theorem setMatch_config (c : Code) (s : State) : (setMatch c s).config = s.config := rfl
@[simp] theorem setMatch_wAcc (c : Code) (s : State) : (setMatch c s).wAcc = s.wAcc := rfl
@[simp] theorem setMatch_wCnt (c : Code) (s : State) : (setMatch c s).wCnt = s.wCnt := rfl
@[simp] theorem setMatch_rBuf (c : Code) (s : State) : (setMatch c s).rBuf = s.rBuf := rfl
@[simp] theorem setMatch_rCnt (c : Code) (s : State) : (setMatch c s).rCnt = s.rCnt := rfl
@[simp] theorem setMatch_result (c : Code) (s : State) : (setMatch c s).result = s.result := rfl
@[simp] theorem setMatch_hdr (c : Code) (s : State) : (setMatch c s).hdr = s.hdr := rfl
@[simp] theorem setMatch_cntIn (c : Code) (s : State) : (setMatch c s).cntIn = s.cntIn := rfl
@[simp] theorem setMatch_cntOut (c : Code) (s : State) : (setMatch c s).cntOut = s.cntOut := rfl
@[simp] theorem setMatch_cntCodes (c : Code) (s : State) : (setMatch c s).cntCodes = s.cntCodes := rfl
@[simp] theorem setMatch_echild (c : Code) (s : State) : (setMatch c s).echild = s.echild := rfl
@[simp] theorem setMatch_dtab (c : Code) (s : State) : (setMatch c s).dtab = s.dtab := rfl
@[simp] theorem setMatch_inQ (c : Code) (s : State) : (setMatch c s).inQ = s.inQ := rfl
@[simp] theorem setMatch_inEos (c : Code) (s : State) : (setMatch c s).inEos = s.inEos := rfl
@[simp] theorem setMatch_eosOwner (c : Code) (s : State) : (setMatch c s).eosOwner = s.eosOwner := rfl
@[simp] theorem setMatch_outLog (c : Code) (s : State) : (setMatch c s).outLog = s.outLog := rfl
@[simp] theorem setMatch_outTaken (c : Code) (s : State) : (setMatch c s).outTaken = s.outTaken := rfl
@[simp] theorem setMatch_hostData (c : Code) (s : State) : (setMatch c s).hostData = s.hostData := rfl
@[simp] theorem setMatch_agenda (c : Code) (s : State) : (setMatch c s).agenda = s.agenda := rfl
@[simp] theorem setMatch_params (c : Code) (s : State) : (setMatch c s).params = s.params := rfl

@[simp] theorem widen_cq (s : State) : (widen s).cq = s.cq := rfl
@[simp] theorem widen_phase (s : State) : (widen s).phase = s.phase := rfl
@[simp] theorem widen_err (s : State) : (widen s).err = s.err := rfl
@[simp] theorem widen_errcmd (s : State) : (widen s).errcmd = s.errcmd := rfl
@[simp] theorem widen_width (s : State) : (widen s).width = s.width + 1 := rfl
@[simp] theorem widen_nextCode (s : State) : (widen s).nextCode = s.nextCode := rfl
@[simp] theorem widen_matchReg (s : State) : (widen s).matchReg = s.matchReg := rfl
@[simp] theorem widen_config (s : State) : (widen s).config = s.config := rfl
@[simp] theorem widen_wAcc (s : State) : (widen s).wAcc = s.wAcc := rfl
@[simp] theorem widen_wCnt (s : State) : (widen s).wCnt = s.wCnt := rfl
@[simp] theorem widen_rBuf (s : State) : (widen s).rBuf = s.rBuf := rfl
@[simp] theorem widen_rCnt (s : State) : (widen s).rCnt = s.rCnt := rfl
@[simp] theorem widen_result (s : State) : (widen s).result = s.result := rfl
@[simp] theorem widen_hdr (s : State) : (widen s).hdr = s.hdr := rfl
@[simp] theorem widen_cntIn (s : State) : (widen s).cntIn = s.cntIn := rfl
@[simp] theorem widen_cntOut (s : State) : (widen s).cntOut = s.cntOut := rfl
@[simp] theorem widen_cntCodes (s : State) : (widen s).cntCodes = s.cntCodes := rfl
@[simp] theorem widen_echild (s : State) : (widen s).echild = s.echild := rfl
@[simp] theorem widen_dtab (s : State) : (widen s).dtab = s.dtab := rfl
@[simp] theorem widen_inQ (s : State) : (widen s).inQ = s.inQ := rfl
@[simp] theorem widen_inEos (s : State) : (widen s).inEos = s.inEos := rfl
@[simp] theorem widen_eosOwner (s : State) : (widen s).eosOwner = s.eosOwner := rfl
@[simp] theorem widen_outLog (s : State) : (widen s).outLog = s.outLog := rfl
@[simp] theorem widen_outTaken (s : State) : (widen s).outTaken = s.outTaken := rfl
@[simp] theorem widen_hostData (s : State) : (widen s).hostData = s.hostData := rfl
@[simp] theorem widen_agenda (s : State) : (widen s).agenda = s.agenda := rfl
@[simp] theorem widen_params (s : State) : (widen s).params = s.params := rfl

@[simp] theorem setPhase_cq (p : Phase) (s : State) : (setPhase p s).cq = s.cq := rfl
@[simp] theorem setPhase_phase (p : Phase) (s : State) : (setPhase p s).phase = p := rfl
@[simp] theorem setPhase_err (p : Phase) (s : State) : (setPhase p s).err = s.err := rfl
@[simp] theorem setPhase_errcmd (p : Phase) (s : State) : (setPhase p s).errcmd = s.errcmd := rfl
@[simp] theorem setPhase_width (p : Phase) (s : State) : (setPhase p s).width = s.width := rfl
@[simp] theorem setPhase_nextCode (p : Phase) (s : State) : (setPhase p s).nextCode = s.nextCode := rfl
@[simp] theorem setPhase_matchReg (p : Phase) (s : State) : (setPhase p s).matchReg = s.matchReg := rfl
@[simp] theorem setPhase_config (p : Phase) (s : State) : (setPhase p s).config = s.config := rfl
@[simp] theorem setPhase_wAcc (p : Phase) (s : State) : (setPhase p s).wAcc = s.wAcc := rfl
@[simp] theorem setPhase_wCnt (p : Phase) (s : State) : (setPhase p s).wCnt = s.wCnt := rfl
@[simp] theorem setPhase_rBuf (p : Phase) (s : State) : (setPhase p s).rBuf = s.rBuf := rfl
@[simp] theorem setPhase_rCnt (p : Phase) (s : State) : (setPhase p s).rCnt = s.rCnt := rfl
@[simp] theorem setPhase_result (p : Phase) (s : State) : (setPhase p s).result = s.result := rfl
@[simp] theorem setPhase_hdr (p : Phase) (s : State) : (setPhase p s).hdr = s.hdr := rfl
@[simp] theorem setPhase_cntIn (p : Phase) (s : State) : (setPhase p s).cntIn = s.cntIn := rfl
@[simp] theorem setPhase_cntOut (p : Phase) (s : State) : (setPhase p s).cntOut = s.cntOut := rfl
@[simp] theorem setPhase_cntCodes (p : Phase) (s : State) : (setPhase p s).cntCodes = s.cntCodes := rfl
@[simp] theorem setPhase_echild (p : Phase) (s : State) : (setPhase p s).echild = s.echild := rfl
@[simp] theorem setPhase_dtab (p : Phase) (s : State) : (setPhase p s).dtab = s.dtab := rfl
@[simp] theorem setPhase_inQ (p : Phase) (s : State) : (setPhase p s).inQ = s.inQ := rfl
@[simp] theorem setPhase_inEos (p : Phase) (s : State) : (setPhase p s).inEos = s.inEos := rfl
@[simp] theorem setPhase_eosOwner (p : Phase) (s : State) : (setPhase p s).eosOwner = s.eosOwner := rfl
@[simp] theorem setPhase_outLog (p : Phase) (s : State) : (setPhase p s).outLog = s.outLog := rfl
@[simp] theorem setPhase_outTaken (p : Phase) (s : State) : (setPhase p s).outTaken = s.outTaken := rfl
@[simp] theorem setPhase_hostData (p : Phase) (s : State) : (setPhase p s).hostData = s.hostData := rfl
@[simp] theorem setPhase_agenda (p : Phase) (s : State) : (setPhase p s).agenda = s.agenda := rfl
@[simp] theorem setPhase_params (p : Phase) (s : State) : (setPhase p s).params = s.params := rfl

@[simp] theorem popCq_cq (s : State) : (popCq s).cq = s.cq.tail := rfl
@[simp] theorem popCq_phase (s : State) : (popCq s).phase = s.phase := rfl
@[simp] theorem popCq_err (s : State) : (popCq s).err = s.err := rfl
@[simp] theorem popCq_errcmd (s : State) : (popCq s).errcmd = s.errcmd := rfl
@[simp] theorem popCq_width (s : State) : (popCq s).width = s.width := rfl
@[simp] theorem popCq_nextCode (s : State) : (popCq s).nextCode = s.nextCode := rfl
@[simp] theorem popCq_matchReg (s : State) : (popCq s).matchReg = s.matchReg := rfl
@[simp] theorem popCq_config (s : State) : (popCq s).config = s.config := rfl
@[simp] theorem popCq_wAcc (s : State) : (popCq s).wAcc = s.wAcc := rfl
@[simp] theorem popCq_wCnt (s : State) : (popCq s).wCnt = s.wCnt := rfl
@[simp] theorem popCq_rBuf (s : State) : (popCq s).rBuf = s.rBuf := rfl
@[simp] theorem popCq_rCnt (s : State) : (popCq s).rCnt = s.rCnt := rfl
@[simp] theorem popCq_result (s : State) : (popCq s).result = s.result := rfl
@[simp] theorem popCq_hdr (s : State) : (popCq s).hdr = s.hdr := rfl
@[simp] theorem popCq_cntIn (s : State) : (popCq s).cntIn = s.cntIn := rfl
@[simp] theorem popCq_cntOut (s : State) : (popCq s).cntOut = s.cntOut := rfl
@[simp] theorem popCq_cntCodes (s : State) : (popCq s).cntCodes = s.cntCodes := rfl
@[simp] theorem popCq_echild (s : State) : (popCq s).echild = s.echild := rfl
@[simp] theorem popCq_dtab (s : State) : (popCq s).dtab = s.dtab := rfl
@[simp] theorem popCq_inQ (s : State) : (popCq s).inQ = s.inQ := rfl
@[simp] theorem popCq_inEos (s : State) : (popCq s).inEos = s.inEos := rfl
@[simp] theorem popCq_eosOwner (s : State) : (popCq s).eosOwner = s.eosOwner := rfl
@[simp] theorem popCq_outLog (s : State) : (popCq s).outLog = s.outLog := rfl
@[simp] theorem popCq_outTaken (s : State) : (popCq s).outTaken = s.outTaken := rfl
@[simp] theorem popCq_hostData (s : State) : (popCq s).hostData = s.hostData := rfl
@[simp] theorem popCq_agenda (s : State) : (popCq s).agenda = s.agenda := rfl
@[simp] theorem popCq_params (s : State) : (popCq s).params = s.params := rfl

@[simp] theorem recordRead_cq (r : ReadResult) (s : State) : (recordRead r s).cq = s.cq := rfl
@[simp] theorem recordRead_phase (r : ReadResult) (s : State) : (recordRead r s).phase = s.phase := rfl
@[simp] theorem recordRead_err (r : ReadResult) (s : State) : (recordRead r s).err = s.err := rfl
@[simp] theorem recordRead_errcmd (r : ReadResult) (s : State) : (recordRead r s).errcmd = s.errcmd := rfl
@[simp] theorem recordRead_width (r : ReadResult) (s : State) : (recordRead r s).width = s.width := rfl
@[simp] theorem recordRead_nextCode (r : ReadResult) (s : State) : (recordRead r s).nextCode = s.nextCode := rfl
@[simp] theorem recordRead_matchReg (r : ReadResult) (s : State) : (recordRead r s).matchReg = s.matchReg := rfl
@[simp] theorem recordRead_config (r : ReadResult) (s : State) : (recordRead r s).config = s.config := rfl
@[simp] theorem recordRead_wAcc (r : ReadResult) (s : State) : (recordRead r s).wAcc = s.wAcc := rfl
@[simp] theorem recordRead_wCnt (r : ReadResult) (s : State) : (recordRead r s).wCnt = s.wCnt := rfl
@[simp] theorem recordRead_rBuf (r : ReadResult) (s : State) : (recordRead r s).rBuf = s.rBuf := rfl
@[simp] theorem recordRead_rCnt (r : ReadResult) (s : State) : (recordRead r s).rCnt = s.rCnt := rfl
@[simp] theorem recordRead_result (r : ReadResult) (s : State) : (recordRead r s).result = { value := r.value, valid := true, nodata := r.nodataFlag, midcode := r.midcodeFlag } := rfl
@[simp] theorem recordRead_hdr (r : ReadResult) (s : State) : (recordRead r s).hdr = s.hdr := rfl
@[simp] theorem recordRead_cntIn (r : ReadResult) (s : State) : (recordRead r s).cntIn = s.cntIn := rfl
@[simp] theorem recordRead_cntOut (r : ReadResult) (s : State) : (recordRead r s).cntOut = s.cntOut := rfl
@[simp] theorem recordRead_cntCodes (r : ReadResult) (s : State) : (recordRead r s).cntCodes = s.cntCodes := rfl
@[simp] theorem recordRead_echild (r : ReadResult) (s : State) : (recordRead r s).echild = s.echild := rfl
@[simp] theorem recordRead_dtab (r : ReadResult) (s : State) : (recordRead r s).dtab = s.dtab := rfl
@[simp] theorem recordRead_inQ (r : ReadResult) (s : State) : (recordRead r s).inQ = s.inQ := rfl
@[simp] theorem recordRead_inEos (r : ReadResult) (s : State) : (recordRead r s).inEos = s.inEos := rfl
@[simp] theorem recordRead_eosOwner (r : ReadResult) (s : State) : (recordRead r s).eosOwner = s.eosOwner := rfl
@[simp] theorem recordRead_outLog (r : ReadResult) (s : State) : (recordRead r s).outLog = s.outLog := rfl
@[simp] theorem recordRead_outTaken (r : ReadResult) (s : State) : (recordRead r s).outTaken = s.outTaken := rfl
@[simp] theorem recordRead_hostData (r : ReadResult) (s : State) : (recordRead r s).hostData = s.hostData := rfl
@[simp] theorem recordRead_agenda (r : ReadResult) (s : State) : (recordRead r s).agenda = s.agenda := rfl
@[simp] theorem recordRead_params (r : ReadResult) (s : State) : (recordRead r s).params = s.params := rfl

@[simp] theorem setConfig_cq (m : BitVec 8) (a : Bool) (s : State) : (setConfig m a s).cq = s.cq := rfl
@[simp] theorem setConfig_phase (m : BitVec 8) (a : Bool) (s : State) : (setConfig m a s).phase = s.phase := rfl
@[simp] theorem setConfig_err (m : BitVec 8) (a : Bool) (s : State) : (setConfig m a s).err = s.err := rfl
@[simp] theorem setConfig_errcmd (m : BitVec 8) (a : Bool) (s : State) : (setConfig m a s).errcmd = s.errcmd := rfl
@[simp] theorem setConfig_width (m : BitVec 8) (a : Bool) (s : State) : (setConfig m a s).width = s.width := rfl
@[simp] theorem setConfig_nextCode (m : BitVec 8) (a : Bool) (s : State) : (setConfig m a s).nextCode = s.nextCode := rfl
@[simp] theorem setConfig_matchReg (m : BitVec 8) (a : Bool) (s : State) : (setConfig m a s).matchReg = s.matchReg := rfl
@[simp] theorem setConfig_config (m : BitVec 8) (a : Bool) (s : State) : (setConfig m a s).config = { maxBits := m, adaptive := a } := rfl
@[simp] theorem setConfig_wAcc (m : BitVec 8) (a : Bool) (s : State) : (setConfig m a s).wAcc = s.wAcc := rfl
@[simp] theorem setConfig_wCnt (m : BitVec 8) (a : Bool) (s : State) : (setConfig m a s).wCnt = s.wCnt := rfl
@[simp] theorem setConfig_rBuf (m : BitVec 8) (a : Bool) (s : State) : (setConfig m a s).rBuf = s.rBuf := rfl
@[simp] theorem setConfig_rCnt (m : BitVec 8) (a : Bool) (s : State) : (setConfig m a s).rCnt = s.rCnt := rfl
@[simp] theorem setConfig_result (m : BitVec 8) (a : Bool) (s : State) : (setConfig m a s).result = s.result := rfl
@[simp] theorem setConfig_hdr (m : BitVec 8) (a : Bool) (s : State) : (setConfig m a s).hdr = s.hdr := rfl
@[simp] theorem setConfig_cntIn (m : BitVec 8) (a : Bool) (s : State) : (setConfig m a s).cntIn = s.cntIn := rfl
@[simp] theorem setConfig_cntOut (m : BitVec 8) (a : Bool) (s : State) : (setConfig m a s).cntOut = s.cntOut := rfl
@[simp] theorem setConfig_cntCodes (m : BitVec 8) (a : Bool) (s : State) : (setConfig m a s).cntCodes = s.cntCodes := rfl
@[simp] theorem setConfig_echild (m : BitVec 8) (a : Bool) (s : State) : (setConfig m a s).echild = s.echild := rfl
@[simp] theorem setConfig_dtab (m : BitVec 8) (a : Bool) (s : State) : (setConfig m a s).dtab = s.dtab := rfl
@[simp] theorem setConfig_inQ (m : BitVec 8) (a : Bool) (s : State) : (setConfig m a s).inQ = s.inQ := rfl
@[simp] theorem setConfig_inEos (m : BitVec 8) (a : Bool) (s : State) : (setConfig m a s).inEos = s.inEos := rfl
@[simp] theorem setConfig_eosOwner (m : BitVec 8) (a : Bool) (s : State) : (setConfig m a s).eosOwner = s.eosOwner := rfl
@[simp] theorem setConfig_outLog (m : BitVec 8) (a : Bool) (s : State) : (setConfig m a s).outLog = s.outLog := rfl
@[simp] theorem setConfig_outTaken (m : BitVec 8) (a : Bool) (s : State) : (setConfig m a s).outTaken = s.outTaken := rfl
@[simp] theorem setConfig_hostData (m : BitVec 8) (a : Bool) (s : State) : (setConfig m a s).hostData = s.hostData := rfl
@[simp] theorem setConfig_agenda (m : BitVec 8) (a : Bool) (s : State) : (setConfig m a s).agenda = s.agenda := rfl
@[simp] theorem setConfig_params (m : BitVec 8) (a : Bool) (s : State) : (setConfig m a s).params = s.params := rfl

@[simp] theorem takeHeader_cq (h : Byte) (s : State) : (takeHeader h s).cq = s.cq := rfl
@[simp] theorem takeHeader_phase (h : Byte) (s : State) : (takeHeader h s).phase = .decActive := rfl
@[simp] theorem takeHeader_err (h : Byte) (s : State) : (takeHeader h s).err = s.err := rfl
@[simp] theorem takeHeader_errcmd (h : Byte) (s : State) : (takeHeader h s).errcmd = s.errcmd := rfl
@[simp] theorem takeHeader_width (h : Byte) (s : State) : (takeHeader h s).width = s.width := rfl
@[simp] theorem takeHeader_nextCode (h : Byte) (s : State) : (takeHeader h s).nextCode = s.nextCode := rfl
@[simp] theorem takeHeader_matchReg (h : Byte) (s : State) : (takeHeader h s).matchReg = s.matchReg := rfl
@[simp] theorem takeHeader_config (h : Byte) (s : State) : (takeHeader h s).config = s.config := rfl
@[simp] theorem takeHeader_wAcc (h : Byte) (s : State) : (takeHeader h s).wAcc = s.wAcc := rfl
@[simp] theorem takeHeader_wCnt (h : Byte) (s : State) : (takeHeader h s).wCnt = s.wCnt := rfl
@[simp] theorem takeHeader_rBuf (h : Byte) (s : State) : (takeHeader h s).rBuf = s.rBuf := rfl
@[simp] theorem takeHeader_rCnt (h : Byte) (s : State) : (takeHeader h s).rCnt = s.rCnt := rfl
@[simp] theorem takeHeader_result (h : Byte) (s : State) : (takeHeader h s).result = s.result := rfl
@[simp] theorem takeHeader_hdr (h : Byte) (s : State) : (takeHeader h s).hdr = { byte := h, valid := true } := rfl
@[simp] theorem takeHeader_cntIn (h : Byte) (s : State) : (takeHeader h s).cntIn = s.cntIn := rfl
@[simp] theorem takeHeader_cntOut (h : Byte) (s : State) : (takeHeader h s).cntOut = s.cntOut := rfl
@[simp] theorem takeHeader_cntCodes (h : Byte) (s : State) : (takeHeader h s).cntCodes = s.cntCodes := rfl
@[simp] theorem takeHeader_echild (h : Byte) (s : State) : (takeHeader h s).echild = s.echild := rfl
@[simp] theorem takeHeader_dtab (h : Byte) (s : State) : (takeHeader h s).dtab = s.dtab := rfl
@[simp] theorem takeHeader_inQ (h : Byte) (s : State) : (takeHeader h s).inQ = s.inQ := rfl
@[simp] theorem takeHeader_inEos (h : Byte) (s : State) : (takeHeader h s).inEos = s.inEos := rfl
@[simp] theorem takeHeader_eosOwner (h : Byte) (s : State) : (takeHeader h s).eosOwner = s.eosOwner := rfl
@[simp] theorem takeHeader_outLog (h : Byte) (s : State) : (takeHeader h s).outLog = s.outLog := rfl
@[simp] theorem takeHeader_outTaken (h : Byte) (s : State) : (takeHeader h s).outTaken = s.outTaken := rfl
@[simp] theorem takeHeader_hostData (h : Byte) (s : State) : (takeHeader h s).hostData = s.hostData := rfl
@[simp] theorem takeHeader_agenda (h : Byte) (s : State) : (takeHeader h s).agenda = s.agenda := rfl
@[simp] theorem takeHeader_params (h : Byte) (s : State) : (takeHeader h s).params = s.params := rfl

@[simp] theorem eInsertChild_cq (p : Code) (b : Byte) (s : State) : (eInsertChild p b s).cq = s.cq := rfl
@[simp] theorem eInsertChild_phase (p : Code) (b : Byte) (s : State) : (eInsertChild p b s).phase = s.phase := rfl
@[simp] theorem eInsertChild_err (p : Code) (b : Byte) (s : State) : (eInsertChild p b s).err = s.err := rfl
@[simp] theorem eInsertChild_errcmd (p : Code) (b : Byte) (s : State) : (eInsertChild p b s).errcmd = s.errcmd := rfl
@[simp] theorem eInsertChild_width (p : Code) (b : Byte) (s : State) : (eInsertChild p b s).width = s.width := rfl
@[simp] theorem eInsertChild_nextCode (p : Code) (b : Byte) (s : State) : (eInsertChild p b s).nextCode = s.nextCode + 1 := rfl
@[simp] theorem eInsertChild_matchReg (p : Code) (b : Byte) (s : State) : (eInsertChild p b s).matchReg = s.matchReg := rfl
@[simp] theorem eInsertChild_config (p : Code) (b : Byte) (s : State) : (eInsertChild p b s).config = s.config := rfl
@[simp] theorem eInsertChild_wAcc (p : Code) (b : Byte) (s : State) : (eInsertChild p b s).wAcc = s.wAcc := rfl
@[simp] theorem eInsertChild_wCnt (p : Code) (b : Byte) (s : State) : (eInsertChild p b s).wCnt = s.wCnt := rfl
@[simp] theorem eInsertChild_rBuf (p : Code) (b : Byte) (s : State) : (eInsertChild p b s).rBuf = s.rBuf := rfl
@[simp] theorem eInsertChild_rCnt (p : Code) (b : Byte) (s : State) : (eInsertChild p b s).rCnt = s.rCnt := rfl
@[simp] theorem eInsertChild_result (p : Code) (b : Byte) (s : State) : (eInsertChild p b s).result = s.result := rfl
@[simp] theorem eInsertChild_hdr (p : Code) (b : Byte) (s : State) : (eInsertChild p b s).hdr = s.hdr := rfl
@[simp] theorem eInsertChild_cntIn (p : Code) (b : Byte) (s : State) : (eInsertChild p b s).cntIn = s.cntIn := rfl
@[simp] theorem eInsertChild_cntOut (p : Code) (b : Byte) (s : State) : (eInsertChild p b s).cntOut = s.cntOut := rfl
@[simp] theorem eInsertChild_cntCodes (p : Code) (b : Byte) (s : State) : (eInsertChild p b s).cntCodes = s.cntCodes := rfl
@[simp] theorem eInsertChild_echild (p : Code) (b : Byte) (s : State) : (eInsertChild p b s).echild = s.echild.put (trieKey p b) (s.nextCode.setWidth 24) := rfl
@[simp] theorem eInsertChild_dtab (p : Code) (b : Byte) (s : State) : (eInsertChild p b s).dtab = s.dtab := rfl
@[simp] theorem eInsertChild_inQ (p : Code) (b : Byte) (s : State) : (eInsertChild p b s).inQ = s.inQ := rfl
@[simp] theorem eInsertChild_inEos (p : Code) (b : Byte) (s : State) : (eInsertChild p b s).inEos = s.inEos := rfl
@[simp] theorem eInsertChild_eosOwner (p : Code) (b : Byte) (s : State) : (eInsertChild p b s).eosOwner = s.eosOwner := rfl
@[simp] theorem eInsertChild_outLog (p : Code) (b : Byte) (s : State) : (eInsertChild p b s).outLog = s.outLog := rfl
@[simp] theorem eInsertChild_outTaken (p : Code) (b : Byte) (s : State) : (eInsertChild p b s).outTaken = s.outTaken := rfl
@[simp] theorem eInsertChild_hostData (p : Code) (b : Byte) (s : State) : (eInsertChild p b s).hostData = s.hostData := rfl
@[simp] theorem eInsertChild_agenda (p : Code) (b : Byte) (s : State) : (eInsertChild p b s).agenda = s.agenda := rfl
@[simp] theorem eInsertChild_params (p : Code) (b : Byte) (s : State) : (eInsertChild p b s).params = s.params := rfl

@[simp] theorem appendCmd_cq (w : Word) (s : State) : (appendCmd w s).cq = s.cq ++ [w] := rfl
@[simp] theorem appendCmd_phase (w : Word) (s : State) : (appendCmd w s).phase = s.phase := rfl
@[simp] theorem appendCmd_err (w : Word) (s : State) : (appendCmd w s).err = s.err := rfl
@[simp] theorem appendCmd_errcmd (w : Word) (s : State) : (appendCmd w s).errcmd = s.errcmd := rfl
@[simp] theorem appendCmd_width (w : Word) (s : State) : (appendCmd w s).width = s.width := rfl
@[simp] theorem appendCmd_nextCode (w : Word) (s : State) : (appendCmd w s).nextCode = s.nextCode := rfl
@[simp] theorem appendCmd_matchReg (w : Word) (s : State) : (appendCmd w s).matchReg = s.matchReg := rfl
@[simp] theorem appendCmd_config (w : Word) (s : State) : (appendCmd w s).config = s.config := rfl
@[simp] theorem appendCmd_wAcc (w : Word) (s : State) : (appendCmd w s).wAcc = s.wAcc := rfl
@[simp] theorem appendCmd_wCnt (w : Word) (s : State) : (appendCmd w s).wCnt = s.wCnt := rfl
@[simp] theorem appendCmd_rBuf (w : Word) (s : State) : (appendCmd w s).rBuf = s.rBuf := rfl
@[simp] theorem appendCmd_rCnt (w : Word) (s : State) : (appendCmd w s).rCnt = s.rCnt := rfl
@[simp] theorem appendCmd_result (w : Word) (s : State) : (appendCmd w s).result = s.result := rfl
@[simp] theorem appendCmd_hdr (w : Word) (s : State) : (appendCmd w s).hdr = s.hdr := rfl
@[simp] theorem appendCmd_cntIn (w : Word) (s : State) : (appendCmd w s).cntIn = s.cntIn := rfl
@[simp] theorem appendCmd_cntOut (w : Word) (s : State) : (appendCmd w s).cntOut = s.cntOut := rfl
@[simp] theorem appendCmd_cntCodes (w : Word) (s : State) : (appendCmd w s).cntCodes = s.cntCodes := rfl
@[simp] theorem appendCmd_echild (w : Word) (s : State) : (appendCmd w s).echild = s.echild := rfl
@[simp] theorem appendCmd_dtab (w : Word) (s : State) : (appendCmd w s).dtab = s.dtab := rfl
@[simp] theorem appendCmd_inQ (w : Word) (s : State) : (appendCmd w s).inQ = s.inQ := rfl
@[simp] theorem appendCmd_inEos (w : Word) (s : State) : (appendCmd w s).inEos = s.inEos := rfl
@[simp] theorem appendCmd_eosOwner (w : Word) (s : State) : (appendCmd w s).eosOwner = s.eosOwner := rfl
@[simp] theorem appendCmd_outLog (w : Word) (s : State) : (appendCmd w s).outLog = s.outLog := rfl
@[simp] theorem appendCmd_outTaken (w : Word) (s : State) : (appendCmd w s).outTaken = s.outTaken := rfl
@[simp] theorem appendCmd_hostData (w : Word) (s : State) : (appendCmd w s).hostData = s.hostData := rfl
@[simp] theorem appendCmd_agenda (w : Word) (s : State) : (appendCmd w s).agenda = s.agenda := rfl
@[simp] theorem appendCmd_params (w : Word) (s : State) : (appendCmd w s).params = s.params := rfl

@[simp] theorem startCommon_cq (s : State) : (startCommon s).cq = s.cq := rfl
@[simp] theorem startCommon_phase (s : State) : (startCommon s).phase = .idle := rfl
@[simp] theorem startCommon_err (s : State) : (startCommon s).err = none := rfl
@[simp] theorem startCommon_errcmd (s : State) : (startCommon s).errcmd = 0 := rfl
@[simp] theorem startCommon_width (s : State) : (startCommon s).width = if s.config.adaptive then BitVec.ofNat 5 Config.adaptStartW else s.config.maxBits.setWidth 5 := rfl
@[simp] theorem startCommon_nextCode (s : State) : (startCommon s).nextCode = 256 := rfl
@[simp] theorem startCommon_matchReg (s : State) : (startCommon s).matchReg = .empty := rfl
@[simp] theorem startCommon_config (s : State) : (startCommon s).config = s.config := rfl
@[simp] theorem startCommon_wAcc (s : State) : (startCommon s).wAcc = 0 := rfl
@[simp] theorem startCommon_wCnt (s : State) : (startCommon s).wCnt = 0 := rfl
@[simp] theorem startCommon_rBuf (s : State) : (startCommon s).rBuf = 0 := rfl
@[simp] theorem startCommon_rCnt (s : State) : (startCommon s).rCnt = 0 := rfl
@[simp] theorem startCommon_result (s : State) : (startCommon s).result = .cleared := rfl
@[simp] theorem startCommon_hdr (s : State) : (startCommon s).hdr = .cleared := rfl
@[simp] theorem startCommon_cntIn (s : State) : (startCommon s).cntIn = 0 := rfl
@[simp] theorem startCommon_cntOut (s : State) : (startCommon s).cntOut = 0 := rfl
@[simp] theorem startCommon_cntCodes (s : State) : (startCommon s).cntCodes = 0 := rfl
@[simp] theorem startCommon_echild (s : State) : (startCommon s).echild = [] := rfl
@[simp] theorem startCommon_dtab (s : State) : (startCommon s).dtab = [] := rfl
@[simp] theorem startCommon_inQ (s : State) : (startCommon s).inQ = s.inQ := rfl
@[simp] theorem startCommon_inEos (s : State) : (startCommon s).inEos = s.inEos := rfl
@[simp] theorem startCommon_eosOwner (s : State) : (startCommon s).eosOwner = s.eosOwner.map EosOwner.atStart := rfl
@[simp] theorem startCommon_outLog (s : State) : (startCommon s).outLog = s.outLog := rfl
@[simp] theorem startCommon_outTaken (s : State) : (startCommon s).outTaken = s.outTaken := rfl
@[simp] theorem startCommon_hostData (s : State) : (startCommon s).hostData = s.hostData := rfl
@[simp] theorem startCommon_agenda (s : State) : (startCommon s).agenda = s.agenda := rfl
@[simp] theorem startCommon_params (s : State) : (startCommon s).params = s.params := rfl

@[simp] theorem resetBlock_cq (s : State) : (resetBlock s).cq = s.cq := rfl
@[simp] theorem resetBlock_phase (s : State) : (resetBlock s).phase = .idle := rfl
@[simp] theorem resetBlock_err (s : State) : (resetBlock s).err = none := rfl
@[simp] theorem resetBlock_errcmd (s : State) : (resetBlock s).errcmd = 0 := rfl
@[simp] theorem resetBlock_width (s : State) : (resetBlock s).width = 0 := rfl
@[simp] theorem resetBlock_nextCode (s : State) : (resetBlock s).nextCode = 256 := rfl
@[simp] theorem resetBlock_matchReg (s : State) : (resetBlock s).matchReg = .empty := rfl
@[simp] theorem resetBlock_config (s : State) : (resetBlock s).config = .atReset s.params.maxbLimit := rfl
@[simp] theorem resetBlock_wAcc (s : State) : (resetBlock s).wAcc = 0 := rfl
@[simp] theorem resetBlock_wCnt (s : State) : (resetBlock s).wCnt = 0 := rfl
@[simp] theorem resetBlock_rBuf (s : State) : (resetBlock s).rBuf = 0 := rfl
@[simp] theorem resetBlock_rCnt (s : State) : (resetBlock s).rCnt = 0 := rfl
@[simp] theorem resetBlock_result (s : State) : (resetBlock s).result = .cleared := rfl
@[simp] theorem resetBlock_hdr (s : State) : (resetBlock s).hdr = .cleared := rfl
@[simp] theorem resetBlock_cntIn (s : State) : (resetBlock s).cntIn = 0 := rfl
@[simp] theorem resetBlock_cntOut (s : State) : (resetBlock s).cntOut = 0 := rfl
@[simp] theorem resetBlock_cntCodes (s : State) : (resetBlock s).cntCodes = 0 := rfl
@[simp] theorem resetBlock_echild (s : State) : (resetBlock s).echild = [] := rfl
@[simp] theorem resetBlock_dtab (s : State) : (resetBlock s).dtab = [] := rfl
@[simp] theorem resetBlock_inQ (s : State) : (resetBlock s).inQ = s.inQ := rfl
@[simp] theorem resetBlock_inEos (s : State) : (resetBlock s).inEos = s.inEos := rfl
@[simp] theorem resetBlock_eosOwner (s : State) : (resetBlock s).eosOwner = s.eosOwner := rfl
@[simp] theorem resetBlock_outLog (s : State) : (resetBlock s).outLog = s.outLog := rfl
@[simp] theorem resetBlock_outTaken (s : State) : (resetBlock s).outTaken = s.outTaken := rfl
@[simp] theorem resetBlock_hostData (s : State) : (resetBlock s).hostData = s.hostData := rfl
@[simp] theorem resetBlock_agenda (s : State) : (resetBlock s).agenda = s.agenda := rfl
@[simp] theorem resetBlock_params (s : State) : (resetBlock s).params = s.params := rfl

@[simp] theorem setEos_cq (s : State) : (setEos s).cq = s.cq := rfl
@[simp] theorem setEos_phase (s : State) : (setEos s).phase = s.phase := rfl
@[simp] theorem setEos_err (s : State) : (setEos s).err = s.err := rfl
@[simp] theorem setEos_errcmd (s : State) : (setEos s).errcmd = s.errcmd := rfl
@[simp] theorem setEos_width (s : State) : (setEos s).width = s.width := rfl
@[simp] theorem setEos_nextCode (s : State) : (setEos s).nextCode = s.nextCode := rfl
@[simp] theorem setEos_matchReg (s : State) : (setEos s).matchReg = s.matchReg := rfl
@[simp] theorem setEos_config (s : State) : (setEos s).config = s.config := rfl
@[simp] theorem setEos_wAcc (s : State) : (setEos s).wAcc = s.wAcc := rfl
@[simp] theorem setEos_wCnt (s : State) : (setEos s).wCnt = s.wCnt := rfl
@[simp] theorem setEos_rBuf (s : State) : (setEos s).rBuf = s.rBuf := rfl
@[simp] theorem setEos_rCnt (s : State) : (setEos s).rCnt = s.rCnt := rfl
@[simp] theorem setEos_result (s : State) : (setEos s).result = s.result := rfl
@[simp] theorem setEos_hdr (s : State) : (setEos s).hdr = s.hdr := rfl
@[simp] theorem setEos_cntIn (s : State) : (setEos s).cntIn = s.cntIn := rfl
@[simp] theorem setEos_cntOut (s : State) : (setEos s).cntOut = s.cntOut := rfl
@[simp] theorem setEos_cntCodes (s : State) : (setEos s).cntCodes = s.cntCodes := rfl
@[simp] theorem setEos_echild (s : State) : (setEos s).echild = s.echild := rfl
@[simp] theorem setEos_dtab (s : State) : (setEos s).dtab = s.dtab := rfl
@[simp] theorem setEos_inQ (s : State) : (setEos s).inQ = s.inQ := rfl
@[simp] theorem setEos_inEos (s : State) : (setEos s).inEos = true := rfl
@[simp] theorem setEos_eosOwner (s : State) : (setEos s).eosOwner = some (if s.phase.inPass then .thisPass else .nextPass) := rfl
@[simp] theorem setEos_outLog (s : State) : (setEos s).outLog = s.outLog := rfl
@[simp] theorem setEos_outTaken (s : State) : (setEos s).outTaken = s.outTaken := rfl
@[simp] theorem setEos_hostData (s : State) : (setEos s).hostData = s.hostData := rfl
@[simp] theorem setEos_agenda (s : State) : (setEos s).agenda = s.agenda := rfl
@[simp] theorem setEos_params (s : State) : (setEos s).params = s.params := rfl

@[simp] theorem clearEos_cq (s : State) : (clearEos s).cq = s.cq := rfl
@[simp] theorem clearEos_phase (s : State) : (clearEos s).phase = s.phase := rfl
@[simp] theorem clearEos_err (s : State) : (clearEos s).err = s.err := rfl
@[simp] theorem clearEos_errcmd (s : State) : (clearEos s).errcmd = s.errcmd := rfl
@[simp] theorem clearEos_width (s : State) : (clearEos s).width = s.width := rfl
@[simp] theorem clearEos_nextCode (s : State) : (clearEos s).nextCode = s.nextCode := rfl
@[simp] theorem clearEos_matchReg (s : State) : (clearEos s).matchReg = s.matchReg := rfl
@[simp] theorem clearEos_config (s : State) : (clearEos s).config = s.config := rfl
@[simp] theorem clearEos_wAcc (s : State) : (clearEos s).wAcc = s.wAcc := rfl
@[simp] theorem clearEos_wCnt (s : State) : (clearEos s).wCnt = s.wCnt := rfl
@[simp] theorem clearEos_rBuf (s : State) : (clearEos s).rBuf = s.rBuf := rfl
@[simp] theorem clearEos_rCnt (s : State) : (clearEos s).rCnt = s.rCnt := rfl
@[simp] theorem clearEos_result (s : State) : (clearEos s).result = s.result := rfl
@[simp] theorem clearEos_hdr (s : State) : (clearEos s).hdr = s.hdr := rfl
@[simp] theorem clearEos_cntIn (s : State) : (clearEos s).cntIn = s.cntIn := rfl
@[simp] theorem clearEos_cntOut (s : State) : (clearEos s).cntOut = s.cntOut := rfl
@[simp] theorem clearEos_cntCodes (s : State) : (clearEos s).cntCodes = s.cntCodes := rfl
@[simp] theorem clearEos_echild (s : State) : (clearEos s).echild = s.echild := rfl
@[simp] theorem clearEos_dtab (s : State) : (clearEos s).dtab = s.dtab := rfl
@[simp] theorem clearEos_inQ (s : State) : (clearEos s).inQ = s.inQ := rfl
@[simp] theorem clearEos_inEos (s : State) : (clearEos s).inEos = false := rfl
@[simp] theorem clearEos_eosOwner (s : State) : (clearEos s).eosOwner = none := rfl
@[simp] theorem clearEos_outLog (s : State) : (clearEos s).outLog = s.outLog := rfl
@[simp] theorem clearEos_outTaken (s : State) : (clearEos s).outTaken = s.outTaken := rfl
@[simp] theorem clearEos_hostData (s : State) : (clearEos s).hostData = s.hostData := rfl
@[simp] theorem clearEos_agenda (s : State) : (clearEos s).agenda = s.agenda := rfl
@[simp] theorem clearEos_params (s : State) : (clearEos s).params = s.params := rfl

@[simp] theorem placeCommand_cq (w : Word) (s : State) : (placeCommand w s).cq = w :: s.cq.tail := rfl
@[simp] theorem placeCommand_phase (w : Word) (s : State) : (placeCommand w s).phase = s.phase := rfl
@[simp] theorem placeCommand_err (w : Word) (s : State) : (placeCommand w s).err = s.err := rfl
@[simp] theorem placeCommand_errcmd (w : Word) (s : State) : (placeCommand w s).errcmd = s.errcmd := rfl
@[simp] theorem placeCommand_width (w : Word) (s : State) : (placeCommand w s).width = s.width := rfl
@[simp] theorem placeCommand_nextCode (w : Word) (s : State) : (placeCommand w s).nextCode = s.nextCode := rfl
@[simp] theorem placeCommand_matchReg (w : Word) (s : State) : (placeCommand w s).matchReg = s.matchReg := rfl
@[simp] theorem placeCommand_config (w : Word) (s : State) : (placeCommand w s).config = s.config := rfl
@[simp] theorem placeCommand_wAcc (w : Word) (s : State) : (placeCommand w s).wAcc = s.wAcc := rfl
@[simp] theorem placeCommand_wCnt (w : Word) (s : State) : (placeCommand w s).wCnt = s.wCnt := rfl
@[simp] theorem placeCommand_rBuf (w : Word) (s : State) : (placeCommand w s).rBuf = s.rBuf := rfl
@[simp] theorem placeCommand_rCnt (w : Word) (s : State) : (placeCommand w s).rCnt = s.rCnt := rfl
@[simp] theorem placeCommand_result (w : Word) (s : State) : (placeCommand w s).result = s.result := rfl
@[simp] theorem placeCommand_hdr (w : Word) (s : State) : (placeCommand w s).hdr = s.hdr := rfl
@[simp] theorem placeCommand_cntIn (w : Word) (s : State) : (placeCommand w s).cntIn = s.cntIn := rfl
@[simp] theorem placeCommand_cntOut (w : Word) (s : State) : (placeCommand w s).cntOut = s.cntOut := rfl
@[simp] theorem placeCommand_cntCodes (w : Word) (s : State) : (placeCommand w s).cntCodes = s.cntCodes := rfl
@[simp] theorem placeCommand_echild (w : Word) (s : State) : (placeCommand w s).echild = s.echild := rfl
@[simp] theorem placeCommand_dtab (w : Word) (s : State) : (placeCommand w s).dtab = s.dtab := rfl
@[simp] theorem placeCommand_inQ (w : Word) (s : State) : (placeCommand w s).inQ = s.inQ := rfl
@[simp] theorem placeCommand_inEos (w : Word) (s : State) : (placeCommand w s).inEos = s.inEos := rfl
@[simp] theorem placeCommand_eosOwner (w : Word) (s : State) : (placeCommand w s).eosOwner = s.eosOwner := rfl
@[simp] theorem placeCommand_outLog (w : Word) (s : State) : (placeCommand w s).outLog = s.outLog := rfl
@[simp] theorem placeCommand_outTaken (w : Word) (s : State) : (placeCommand w s).outTaken = s.outTaken := rfl
@[simp] theorem placeCommand_hostData (w : Word) (s : State) : (placeCommand w s).hostData = s.hostData := rfl
@[simp] theorem placeCommand_agenda (w : Word) (s : State) : (placeCommand w s).agenda = [] := rfl
@[simp] theorem placeCommand_params (w : Word) (s : State) : (placeCommand w s).params = s.params := rfl

end Sys2Proof.Machine
end

