-- ==== Sys2Proof/Laws/Bitstream.lean ====
section
/-!
SUPPORT. What the codec's primitives do, said once: write_bits and flush append to the bits written (40_bitstream.md R134,
R135), read_bits takes from the bits not yet read (R140), and nothing else changes.
-/

namespace Sys2Proof.Machine

/-- R33: `W_ACC < 2^W_CNT`. -/
abbrev accInRange (s : State) : Prop := s.wAcc.toNat < 2 ^ s.wCnt.toNat

theorem length_pendingBits (s : State) : (pendingBits s).length = s.wCnt.toNat := length_bitString _ _

theorem length_pendingBits_lt (s : State) : (pendingBits s).length < 8 := by
  rw [length_pendingBits]; exact s.wCnt.isLt

theorem writeBit_frame (b : Bool) (s : State) :
    writeBit b s = { s with
      wAcc := (writeBit b s).wAcc, wCnt := (writeBit b s).wCnt,
      outLog := (writeBit b s).outLog, cntOut := (writeBit b s).cntOut } := by
  unfold writeBit
  dsimp only
  split <;> rfl

theorem accInRange_lt {s : State} (h : accInRange s) : s.wAcc.toNat < 128 := by
  have h7 : s.wCnt.toNat ≤ 7 := by have := s.wCnt.isLt; omega
  have : (2 : Nat) ^ s.wCnt.toNat ≤ 2 ^ 7 := Nat.pow_le_pow_right (by decide) h7
  unfold accInRange at h; omega

theorem shiftIn_toNat (acc : Byte) (b : Bool) (h : acc.toNat < 128) :
    (acc <<< 1 ||| (BitVec.ofBool b).setWidth 8).toNat = 2 * acc.toNat + b.toNat := by
  have e1 : (acc <<< 1).toNat = 2 * acc.toNat := by
    rw [BitVec.toNat_shiftLeft, Nat.shiftLeft_eq]; omega
  have e2 : ((BitVec.ofBool b).setWidth 8).toNat = b.toNat := by cases b <;> rfl
  rw [BitVec.toNat_or, e1, e2]
  have := Nat.two_pow_add_eq_or_of_lt (i := 1) (b := b.toNat) (by cases b <;> decide) acc.toNat
  simpa using this.symm

theorem writeBit_accInRange (b : Bool) (s : State) (h : accInRange s) : accInRange (writeBit b s) := by
  unfold writeBit accInRange at *
  dsimp only
  split
  · simp
  · next hc =>
    have hlt : s.wCnt.toNat < 7 := by have := s.wCnt.isLt; omega
    have hcnt : (s.wCnt + 1).toNat = s.wCnt.toNat + 1 := by
      rw [BitVec.toNat_add]; simp; omega
    have hacc := shiftIn_toNat s.wAcc b (accInRange_lt h)
    show (s.wAcc <<< 1 ||| (BitVec.ofBool b).setWidth 8).toNat < 2 ^ (s.wCnt + 1).toNat
    rw [hacc, hcnt, Nat.pow_succ]
    have : b.toNat ≤ 1 := Bool.toNat_le b
    omega

/-- A bit string with one more bit shifted in. -/
theorem bitString_shiftIn (w a : Nat) (b : Bool) : bitString (w + 1) (2 * a + b.toNat) = bitString w a ++ [b] := by
  rw [bitString_succ]
  have h1 : (2 * a + b.toNat) / 2 = a := by cases b <;> simp; omega
  have h2 : (2 * a + b.toNat).testBit 0 = b := by cases b <;> simp [Nat.testBit_zero]
  rw [h1, h2]

theorem writeBit_writtenBits (b : Bool) (s : State) (h : accInRange s) :
    writtenBits (writeBit b s) = writtenBits s ++ [b] := by
  have hacc := shiftIn_toNat s.wAcc b (accInRange_lt h)
  unfold writeBit writtenBits pendingBits
  dsimp only
  split
  · next hc =>
    have h7 : s.wCnt.toNat = 7 := by omega
    simp only [outPush_outLog, bytesBits_append, bytesBits_cons, bytesBits_nil, List.append_nil, h7, List.append_assoc]
    congr 1
    simp only [byteBits, hacc]
    simpa [bitString] using bitString_shiftIn 7 s.wAcc.toNat b
  · next hc =>
    have hcnt : (s.wCnt + 1).toNat = s.wCnt.toNat + 1 := by
      have := s.wCnt.isLt
      rw [BitVec.toNat_add]; simp; omega
    simp only [hcnt, hacc, List.append_assoc]
    congr 1
    exact bitString_shiftIn _ _ _

/-- CNT_OUT counts the bytes appended to OUT_LOG from `s` to `t` (10_state.md R38, 20_memory.md R64). -/
abbrev countsOutput (s t : State) : Prop :=
  ∃ l, t.outLog = s.outLog ++ l ∧ t.cntOut = s.cntOut + BitVec.ofNat 32 l.length

theorem countsOutput_refl (s : State) : countsOutput s s := ⟨[], by simp, by simp⟩

theorem countsOutput_trans {s t u : State} (h1 : countsOutput s t) (h2 : countsOutput t u) : countsOutput s u := by
  obtain ⟨l, hl, hcl⟩ := h1
  obtain ⟨m, hm, hcm⟩ := h2
  exact ⟨l ++ m, by rw [hm, hl, List.append_assoc], by
    rw [hcm, hcl, List.length_append, BitVec.ofNat_add, BitVec.add_assoc]⟩

theorem outPush_countsOutput (b : Byte) (s : State) : countsOutput s (outPush b s) := ⟨[b], by simp, by simp⟩

theorem writeBit_countsOutput (b : Bool) (s : State) : countsOutput s (writeBit b s) := by
  unfold writeBit
  dsimp only
  split
  · exact outPush_countsOutput _ s
  · exact countsOutput_refl s

theorem writeBits_frame (v : BitVec 24) (n : Nat) (s : State) :
    writeBits v n s = { s with
      wAcc := (writeBits v n s).wAcc, wCnt := (writeBits v n s).wCnt,
      outLog := (writeBits v n s).outLog, cntOut := (writeBits v n s).cntOut } := by
  induction n generalizing s with
  | zero => rfl
  | succ i ih =>
    rw [writeBits, ih, writeBit_frame]

theorem writeBits_accInRange (v : BitVec 24) (n : Nat) (s : State) (h : accInRange s) : accInRange (writeBits v n s) := by
  induction n generalizing s with
  | zero => exact h
  | succ i ih => exact ih _ (writeBit_accInRange _ s h)

theorem writeBits_countsOutput (v : BitVec 24) (n : Nat) (s : State) : countsOutput s (writeBits v n s) := by
  induction n generalizing s with
  | zero => exact countsOutput_refl s
  | succ i ih => exact countsOutput_trans (writeBit_countsOutput _ s) (ih _)

/-- write_bits appends the low `n` bits of `v`, most significant first (20_memory.md R65, 40_bitstream.md R133, R134). -/
theorem writeBits_writtenBits (v : BitVec 24) (n : Nat) (s : State) (h : accInRange s) :
    writtenBits (writeBits v n s) = writtenBits s ++ bitString n v.toNat := by
  induction n generalizing s with
  | zero => simp [writeBits, bitString]
  | succ i ih =>
    rw [writeBits, ih _ (writeBit_accInRange _ s h), writeBit_writtenBits _ s h, bitString, List.append_assoc]
    rfl

/-- Only the low `n` bits of the value matter (40_bitstream.md R151). -/
theorem writeBits_congr {v v' : BitVec 24} {n : Nat} (h : ∀ i, i < n → v.getLsbD i = v'.getLsbD i) (s : State) :
    writeBits v n s = writeBits v' n s := by
  induction n generalizing s with
  | zero => rfl
  | succ i ih =>
    rw [writeBits, writeBits, h i (Nat.lt_succ_self i), ih (fun j hj => h j (Nat.lt_succ_of_lt hj))]

theorem truncTo_getLsbD (w : Nat) (v : BitVec 24) (i : Nat) (h : i < w) : (truncTo w v).getLsbD i = v.getLsbD i := by
  unfold truncTo
  rw [BitVec.getLsbD_ofNat, Nat.testBit_mod_two_pow]
  by_cases hi : i < 24
  · simp [hi, h]; rfl
  · rw [BitVec.getLsbD_of_ge v i (by omega)]; simp [hi]

theorem writeBits_truncTo (w : Nat) (v : BitVec 24) (s : State) : writeBits (truncTo w v) w s = writeBits v w s :=
  writeBits_congr (fun i hi => truncTo_getLsbD w v i hi) s

theorem flush_frame (s : State) :
    flush s = { s with
      wAcc := (flush s).wAcc, wCnt := (flush s).wCnt, outLog := (flush s).outLog, cntOut := (flush s).cntOut } := by
  unfold flush
  split <;> rfl

theorem flush_wCnt (s : State) : (flush s).wCnt = 0 := by
  unfold flush
  split
  · rfl
  · next h => exact BitVec.eq_of_toNat_eq (by simp; omega)

theorem flush_countsOutput (s : State) : countsOutput s (flush s) := by
  unfold flush
  split
  · exact outPush_countsOutput _ s
  · exact countsOutput_refl s

theorem flush_accInRange (s : State) (h : accInRange s) : accInRange (flush s) := by
  unfold flush
  split
  · simp [accInRange]
  · exact h

/-- How many zero bits flush appends (40_bitstream.md R137). -/
def padding (s : State) : Nat := (8 - s.wCnt.toNat) % 8

theorem bitString_shiftLeft (w k a : Nat) : bitString (w + k) (a * 2 ^ k) = bitString w a ++ List.replicate k false := by
  rw [bitString_add]
  congr 1
  · simp
  · induction k with
    | zero => rfl
    | succ n ih =>
      rw [bitString, List.replicate_succ]
      have h1 : (a * 2 ^ (n + 1)).testBit n = false := by
        rw [Nat.testBit_eq_decide_div_mod_eq, Nat.pow_succ, ← Nat.mul_assoc, Nat.mul_right_comm,
          Nat.mul_div_cancel _ (Nat.two_pow_pos n)]
        simp
      have h2 : bitString n (a * 2 ^ (n + 1)) = bitString n (a * 2 ^ n) := by
        rw [← bitString_mod n (a * 2 ^ (n + 1)), ← bitString_mod n (a * 2 ^ n), Nat.mul_mod_left, Nat.pow_succ,
          ← Nat.mul_assoc, Nat.mul_right_comm, Nat.mul_mod_left]
      rw [h1, h2, ih]

/-- flush completes the last byte with zero bits (40_bitstream.md R135, R137). -/
theorem flush_writtenBits (s : State) (h : accInRange s) :
    writtenBits (flush s) = writtenBits s ++ List.replicate (padding s) false := by
  unfold flush
  split
  · next hc =>
    have hlt := s.wCnt.isLt
    have hp : padding s = 8 - s.wCnt.toNat := by unfold padding; omega
    have hb : byteBits (s.wAcc <<< (8 - s.wCnt.toNat)) = pendingBits s ++ List.replicate (padding s) false := by
      have e : (s.wAcc <<< (8 - s.wCnt.toNat)).toNat = s.wAcc.toNat * 2 ^ (8 - s.wCnt.toNat) := by
        rw [BitVec.toNat_shiftLeft, Nat.shiftLeft_eq, Nat.mod_eq_of_lt]
        calc s.wAcc.toNat * 2 ^ (8 - s.wCnt.toNat) < 2 ^ s.wCnt.toNat * 2 ^ (8 - s.wCnt.toNat) :=
              Nat.mul_lt_mul_of_pos_right h (Nat.two_pow_pos _)
          _ = 2 ^ 8 := by rw [← Nat.pow_add]; congr 1; omega
      have key := bitString_shiftLeft s.wCnt.toNat (8 - s.wCnt.toNat) s.wAcc.toNat
      rw [show s.wCnt.toNat + (8 - s.wCnt.toNat) = 8 by omega] at key
      rw [byteBits, e, key, hp, pendingBits]
    simp [writtenBits, hb, pendingBits, bitString]
  · next hc =>
    have h0 : s.wCnt.toNat = 0 := by omega
    simp [padding, h0]

/-! The reader. -/

theorem length_unreadBits (s : State) : (unreadBits s).length = bitsAvail s := by
  simp [unreadBits, bitsAvail, inAvail]

theorem readBit_none {s : State} (h : readBit s = none) : unreadBits s = [] ∧ s.inQ = [] ∧ s.rCnt.toNat = 0 := by
  unfold readBit at h
  split at h
  · next hc =>
    unfold inPop at h
    cases hq : s.inQ with
    | nil => simp [unreadBits, hq, hc, bitString]
    | cons b rest => simp [hq] at h
  · simp at h

/-- What one bit of the reader does when it finds one. -/
theorem readBit_some {s t : State} {b f : Bool} (h : readBit s = some (b, f, t)) :
    unreadBits s = b :: unreadBits t ∧
    t = { s with rBuf := t.rBuf, rCnt := t.rCnt, inQ := t.inQ, cntIn := t.cntIn } ∧
    ∃ l, s.inQ = l ++ t.inQ ∧ t.cntIn = s.cntIn + BitVec.ofNat 32 l.length ∧ (f = true ↔ l ≠ []) ∧
      (f = true → s.rCnt.toNat = 0) := by
  unfold readBit at h
  split at h
  · next hc =>
    unfold inPop at h
    cases hq : s.inQ with
    | nil => simp [hq] at h
    | cons c rest =>
      simp only [hq, Option.some.injEq, Prod.mk.injEq] at h
      obtain ⟨rfl, rfl, rfl⟩ := h
      refine ⟨?_, rfl, [c], by simp, by simp, by simp, fun _ => hc⟩
      simp only [unreadBits, hq, hc, bytesBits_cons]
      rfl
  · next hc =>
    simp only [Option.some.injEq, Prod.mk.injEq] at h
    obtain ⟨rfl, rfl, rfl⟩ := h
    have hlt := s.rCnt.isLt
    have hsub : (s.rCnt - 1).toNat = s.rCnt.toNat - 1 := by
      rw [BitVec.toNat_sub]; simp; omega
    refine ⟨?_, rfl, [], by simp, by simp, by simp, by simp⟩
    simp only [unreadBits, hsub]
    obtain ⟨k, hk⟩ : ∃ k, s.rCnt.toNat = k + 1 := ⟨s.rCnt.toNat - 1, by omega⟩
    rw [hk, bitString]
    rfl

theorem shiftInCode_toNat (v : BitVec 24) (b : Bool) (h : v.toNat < 2 ^ 23) :
    (v <<< 1 ||| (BitVec.ofBool b).setWidth 24).toNat = 2 * v.toNat + b.toNat := by
  have e1 : (v <<< 1).toNat = 2 * v.toNat := by
    rw [BitVec.toNat_shiftLeft, Nat.shiftLeft_eq]; omega
  have e2 : ((BitVec.ofBool b).setWidth 24).toNat = b.toNat := by cases b <;> rfl
  rw [BitVec.toNat_or, e1, e2]
  have := Nat.two_pow_add_eq_or_of_lt (i := 1) (b := b.toNat) (by cases b <;> decide) v.toNat
  simpa using this.symm

/-- A read never changes anything but the reader and IN (40_bitstream.md R131), and CNT_IN counts the bytes popped. -/
theorem readLoop_frame (n : Nat) (v : BitVec 24) (f : Bool) (s : State) :
    (readLoop n v f s).2 = { s with
      rBuf := (readLoop n v f s).2.rBuf, rCnt := (readLoop n v f s).2.rCnt,
      inQ := (readLoop n v f s).2.inQ, cntIn := (readLoop n v f s).2.cntIn } := by
  induction n generalizing v f s with
  | zero => rfl
  | succ n ih =>
    rw [readLoop]
    split
    · rfl
    · next b g t h =>
      have hf := (readBit_some h).2.1
      have := ih (v <<< 1 ||| (BitVec.ofBool b).setWidth 24) (f || g) t
      generalize (readLoop n (v <<< 1 ||| (BitVec.ofBool b).setWidth 24) (f || g) t).2 = u at *
      rw [hf] at this
      exact this

theorem readLoop_pops (n : Nat) (v : BitVec 24) (f : Bool) (s : State) :
    ∃ l, s.inQ = l ++ (readLoop n v f s).2.inQ ∧
      (readLoop n v f s).2.cntIn = s.cntIn + BitVec.ofNat 32 l.length := by
  induction n generalizing v f s with
  | zero => exact ⟨[], by simp [readLoop], by simp [readLoop]⟩
  | succ n ih =>
    rw [readLoop]
    split
    · exact ⟨[], by simp, by simp⟩
    · next b g t h =>
      obtain ⟨-, -, l, hl, hc, -, -⟩ := readBit_some h
      obtain ⟨m, hm, hd⟩ := ih (v <<< 1 ||| (BitVec.ofBool b).setWidth 24) (f || g) t
      refine ⟨l ++ m, by rw [hl, List.append_assoc, ← hm], ?_⟩
      rw [hd, hc, List.length_append, BitVec.ofNat_add, BitVec.add_assoc]

/-- A read with enough bits takes exactly them, as an MSB-first number (40_bitstream.md R140). -/
theorem readLoop_ok (n : Nat) (v : BitVec 24) (f : Bool) (s : State) (hn : n ≤ 24) (hv : v.toNat < 2 ^ (24 - n))
    (h : n ≤ (unreadBits s).length) :
    (readLoop n v f s).1 = .ok (BitVec.ofNat 24 (bitValueFrom v.toNat ((unreadBits s).take n))) ∧
      unreadBits (readLoop n v f s).2 = (unreadBits s).drop n := by
  induction n generalizing v f s with
  | zero => simp [readLoop, bitValueFrom]
  | succ n ih =>
    rw [readLoop]
    split
    · next hb => rw [(readBit_none hb).1] at h; simp at h
    · next b g t hb =>
      obtain ⟨hu, -, -⟩ := readBit_some hb
      have hv' : v.toNat < 2 ^ 23 := lt_of_lt_of_le hv (Nat.pow_le_pow_right (by decide) (by omega))
      have e := shiftInCode_toNat v b hv'
      have hb1 : b.toNat ≤ 1 := Bool.toNat_le b
      have hp : (2 : Nat) ^ (24 - n) = 2 * 2 ^ (24 - (n + 1)) := by
        rw [← Nat.pow_succ']; congr 1; omega
      have := ih (v <<< 1 ||| (BitVec.ofBool b).setWidth 24) (f || g) t (by omega)
        (by rw [e, hp]; omega) (by rw [hu] at h; simpa using h)
      rw [this.1, this.2, e, hu]
      simp [bitValueFrom]

/-- A read that runs out of bits pops every byte and answers no data (40_bitstream.md R139, R140). -/
theorem readLoop_nodata (n : Nat) (v : BitVec 24) (f : Bool) (s : State) (h : (unreadBits s).length < n) :
    (readLoop n v f s).1 = .nodata (f || !s.inQ.isEmpty) ∧ (readLoop n v f s).2.inQ = [] ∧
      (readLoop n v f s).2.rCnt = 0 := by
  induction n generalizing v f s with
  | zero => simp at h
  | succ n ih =>
    rw [readLoop]
    split
    · next hb =>
      obtain ⟨-, h1, h2⟩ := readBit_none hb
      exact ⟨by simp [h1], h1, BitVec.eq_of_toNat_eq (by simpa using h2)⟩
    · next b g t hb =>
      obtain ⟨hu, -, l, hl, -, hg, -⟩ := readBit_some hb
      obtain ⟨h1, h2, h3⟩ := ih (v <<< 1 ||| (BitVec.ofBool b).setWidth 24) (f || g) t
        (by rw [hu] at h; simpa using h)
      refine ⟨?_, h2, h3⟩
      rw [h1, hl]
      congr 1
      cases hf : g
      · have : l = [] := by
          by_contra hne
          rw [hf] at hg; simp [hne] at hg
        simp [this]
      · have : l ≠ [] := hg.mp hf
        cases l with
        | nil => exact absurd rfl this
        | cons a l => simp

/-- read_bits with enough bits (40_bitstream.md R140). -/
theorem readBits_ok (w : Nat) (s : State) (hw : w ≤ 24) (h : w ≤ bitsAvail s) :
    (readBits w s).1 = .ok (BitVec.ofNat 24 (bitValue ((unreadBits s).take w))) ∧
      unreadBits (readBits w s).2 = (unreadBits s).drop w := by
  have := readLoop_ok w 0 false s hw (by simp) (by rw [length_unreadBits]; exact h)
  simpa [readBits, bitValue] using this

/-- read_bits that runs out of data (40_bitstream.md R139, R140). -/
theorem readBits_nodata (w : Nat) (s : State) (h : bitsAvail s < w) :
    (readBits w s).1 = .nodata (!s.inQ.isEmpty) ∧ (readBits w s).2.inQ = [] ∧ (readBits w s).2.rCnt = 0 := by
  have := readLoop_nodata w 0 false s (by rw [length_unreadBits]; exact h)
  simpa [readBits] using this

theorem readBits_frame (w : Nat) (s : State) :
    (readBits w s).2 = { s with
      rBuf := (readBits w s).2.rBuf, rCnt := (readBits w s).2.rCnt,
      inQ := (readBits w s).2.inQ, cntIn := (readBits w s).2.cntIn } := readLoop_frame w 0 false s

theorem readBits_pops (w : Nat) (s : State) :
    ∃ l, s.inQ = l ++ (readBits w s).2.inQ ∧ (readBits w s).2.cntIn = s.cntIn + BitVec.ofNat 32 l.length :=
  readLoop_pops w 0 false s

/-- A value read at width `w` is below 2^w (40_bitstream.md R138). -/
theorem readBits_lt {w : Nat} {s : State} {v : BitVec 24} (hw : w ≤ 24) (h : (readBits w s).1 = .ok v) :
    v.toNat < 2 ^ w := by
  by_cases ha : w ≤ bitsAvail s
  · have hlen : ((unreadBits s).take w).length = w := by
      rw [List.length_take, length_unreadBits]; omega
    have hlt := bitValue_lt ((unreadBits s).take w)
    rw [hlen] at hlt
    rw [(readBits_ok w s hw ha).1] at h
    cases h
    rw [BitVec.toNat_ofNat, Nat.mod_eq_of_lt]
    · exact hlt
    · exact lt_of_lt_of_le hlt (Nat.pow_le_pow_right (by decide) hw)
  · rw [(readBits_nodata w s (by omega)).1] at h
    cases h

/-- A read with enough bits takes exactly them and pops exactly the bytes that this needs (40_bitstream.md R140). -/
theorem readBits_taken (w : Nat) (s : State) (hw : w ≤ 24) (h : w ≤ s.rCnt.toNat + 8 * s.inQ.length) :
    unreadBits (readBits w s).2 = (unreadBits s).drop w ∧
    (readBits w s).2.rCnt.toNat = (s.rCnt.toNat + 24 - w) % 8 ∧
    (readBits w s).2.inQ = s.inQ.drop ((w - s.rCnt.toNat + 7) / 8) ∧
    (readBits w s).2.cntIn = s.cntIn + BitVec.ofNat 32 ((w - s.rCnt.toNat + 7) / 8) := by
  have hu := (readBits_ok w s hw h).2
  obtain ⟨l, hl, hc⟩ := readBits_pops w s
  generalize (readBits w s).2 = t at *
  have hlen := congrArg List.length hu
  rw [List.length_drop, length_unreadBits, length_unreadBits] at hlen
  unfold bitsAvail inAvail at hlen
  have hll : s.inQ.length = l.length + t.inQ.length := by rw [hl]; simp
  have h1 := s.rCnt.isLt
  have h2 := t.rCnt.isLt
  have hlw : l.length = (w - s.rCnt.toNat + 7) / 8 := by omega
  refine ⟨hu, by omega, ?_, by rw [hc, hlw]⟩
  rw [← hlw]
  conv => rhs; rw [hl]
  simp

/-- With the writer empty, write_bits of 8 bits pushes one byte (42_encode.md R192). -/
theorem writeBits_byte (m : BitVec 8) (s : State) (h1 : s.wAcc = 0) (h2 : s.wCnt = 0) :
    writeBits (m.setWidth 24) 8 s = { s with outLog := s.outLog ++ [m], cntOut := s.cntOut + 1 } := by
  have ha : accInRange s := by unfold accInRange; rw [h1, h2]; decide
  have hf := writeBits_frame (m.setWidth 24) 8 s
  have hb := writeBits_writtenBits (m.setWidth 24) 8 s ha
  have hacc := writeBits_accInRange (m.setWidth 24) 8 s ha
  obtain ⟨l, hl, hc⟩ := writeBits_countsOutput (m.setWidth 24) 8 s
  generalize writeBits (m.setWidth 24) 8 s = t at *
  have hm : (m.setWidth 24).toNat = m.toNat := by
    have := m.isLt
    rw [BitVec.toNat_setWidth, Nat.mod_eq_of_lt (by omega)]
  rw [hm] at hb
  have hb' : bytesBits l ++ pendingBits t = bytesBits [m] ++ [] := by
    have e2 : writtenBits s = bytesBits s.outLog := by rw [writtenBits, pendingBits, h2]; simp [bitString]
    rw [e2, writtenBits, hl, bytesBits_append, List.append_assoc, List.append_cancel_left_eq] at hb
    rw [hb]; simp [byteBits]
  obtain ⟨h3, h4⟩ := bytesBits_append_inj (length_pendingBits_lt t) (by simp) hb'
  have hcnt : t.wCnt = 0 := by
    have := congrArg List.length h4
    rw [length_pendingBits] at this
    exact BitVec.eq_of_toNat_eq (by simpa using this)
  have hac : t.wAcc = 0 := by
    unfold accInRange at hacc
    rw [hcnt] at hacc
    exact BitVec.eq_of_toNat_eq (by simp at hacc ⊢; omega)
  rw [hf, hl, hc, hcnt, hac, h3]
  rw [← h1, ← h2]; rfl

end Sys2Proof.Machine
end

