-- ==== Sys2Proof/Laws/Dictionary.lean ====
section
/-!
SUPPORT. The internal memories (41_dictionaries.md): a read after a write, the canonical form, and that the trie and the
table keep what 10_state.md R51 items 7 and 8 say of them.
-/

namespace Sys2Proof.Machine

/-- A read after a write: the key written reads the value, every other key reads as before. -/
theorem Dict.find_put {β : Type} (d : Dict β) (k k' : Nat) (v : β) :
    Dict.find (Dict.put d k v) k' = if k' = k then some v else Dict.find d k' := by
  induction d with
  | nil => simp [Dict.put, Dict.find]
  | cons e rest ih =>
    obtain ⟨a, w⟩ := e
    unfold Dict.put
    split
    · simp [Dict.find]
    · split
      · next h => subst h; simp only [Dict.find]; split <;> rfl
      · next h1 h2 =>
        simp only [Dict.find, ih]
        by_cases hk : k' = a
        · subst hk; simp [Ne.symm h2]
        · simp [hk]

theorem Dict.mem_put {β : Type} {d : Dict β} {k : Nat} {v : β} {e : Nat × β} (h : e ∈ Dict.put d k v) :
    e = (k, v) ∨ e ∈ d := by
  induction d with
  | nil => simpa [Dict.put] using h
  | cons f rest ih =>
    obtain ⟨a, w⟩ := f
    unfold Dict.put at h
    split at h
    · simpa using h
    · split at h
      · next h2 => simp at h ⊢; tauto
      · simp only [List.mem_cons] at h ⊢
        rcases h with h | h
        · tauto
        · rcases ih h with h | h <;> tauto

/-- A write keeps the canonical form. -/
theorem Dict.wf_put {β : Type} (d : Dict β) (k : Nat) (v : β) (h : Dict.wf d = true) : Dict.wf (Dict.put d k v) = true := by
  induction d with
  | nil => rfl
  | cons f rest ih =>
    obtain ⟨a, w⟩ := f
    simp only [Dict.wf, Bool.and_eq_true, List.all_eq_true, decide_eq_true_eq] at h
    unfold Dict.put
    split
    · next h1 =>
      simp only [Dict.wf, Bool.and_eq_true, List.all_eq_true, decide_eq_true_eq, List.mem_cons, forall_eq_or_imp]
      exact ⟨⟨h1, fun e he => lt_trans h1 (h.1 e he)⟩, h⟩
    · split
      · next h2 =>
        subst h2
        simp only [Dict.wf, Bool.and_eq_true, List.all_eq_true, decide_eq_true_eq]
        exact h
      · next h1 h2 =>
        simp only [Dict.wf, Bool.and_eq_true, List.all_eq_true, decide_eq_true_eq]
        refine ⟨fun e he => ?_, ih h.2⟩
        rcases Dict.mem_put he with rfl | he
        · show a < k; omega
        · exact h.1 e he

theorem Dict.find_mem {β : Type} {d : Dict β} {k : Nat} {v : β} (h : Dict.find d k = some v) : (k, v) ∈ d := by
  induction d with
  | nil => simp [Dict.find] at h
  | cons e rest ih =>
    obtain ⟨a, w⟩ := e
    unfold Dict.find at h
    split at h
    · next h1 => simp at h; simp [h1, h]
    · exact List.mem_cons_of_mem _ (ih h)

/-- Two canonical forms that read alike are the same. -/
theorem Dict.ext_find {β : Type} {d e : Dict β} (hd : Dict.wf d = true) (he : Dict.wf e = true)
    (h : ∀ k, Dict.find d k = Dict.find e k) : d = e := by
  have key : ∀ {a : Nat} {v : β} {rest : Dict β} {k : Nat}, Dict.wf ((a, v) :: rest) = true → k < a →
      Dict.find ((a, v) :: rest) k = none := by
    intro a v rest k hw hk
    cases hf : Dict.find ((a, v) :: rest) k with
    | none => rfl
    | some x =>
      have := Dict.find_mem hf
      simp only [Dict.wf, Bool.and_eq_true, List.all_eq_true, decide_eq_true_eq] at hw
      rcases List.mem_cons.mp this with h1 | h1
      · cases h1; omega
      · have := hw.1 _ h1; simp at this; omega
  have tail : ∀ {a : Nat} {v : β} {rest : Dict β}, Dict.wf ((a, v) :: rest) = true →
      Dict.find rest a = none := by
    intro a v rest hw
    cases hf : Dict.find rest a with
    | none => rfl
    | some x =>
      simp only [Dict.wf, Bool.and_eq_true, List.all_eq_true, decide_eq_true_eq] at hw
      have := hw.1 _ (Dict.find_mem hf); simp at this
  induction d generalizing e with
  | nil =>
    cases e with
    | nil => rfl
    | cons f rest => have := h f.1; simp [Dict.find] at this
  | cons f rest ih =>
    obtain ⟨a, v⟩ := f
    cases e with
    | nil => have := h a; simp [Dict.find] at this
    | cons g rest' =>
      obtain ⟨b, w⟩ := g
      have hab : a = b := by
        rcases lt_trichotomy a b with hl | rfl | hl
        · have := h a; rw [key he hl] at this; simp [Dict.find] at this
        · rfl
        · have := h b; rw [key hd hl] at this; simp [Dict.find] at this
      subst hab
      have hvw : v = w := by have := h a; simpa [Dict.find] using this
      subst hvw
      have hd' : Dict.wf rest = true := by simp only [Dict.wf, Bool.and_eq_true] at hd; exact hd.2
      have he' : Dict.wf rest' = true := by simp only [Dict.wf, Bool.and_eq_true] at he; exact he.2
      rw [ih hd' he' (fun k => ?_)]
      by_cases hk : k = a
      · subst hk; rw [tail hd, tail he]
      · have := h k; simpa [Dict.find, hk] using this

theorem trieKey_inj {p p' : Code} {b b' : Byte} (h : trieKey p b = trieKey p' b') : p = p' ∧ b = b' := by
  unfold trieKey at h
  have h1 := b.isLt
  have h2 := b'.isLt
  exact ⟨BitVec.eq_of_toNat_eq (by omega), BitVec.eq_of_toNat_eq (by omega)⟩

/-- A probe after an insertion (41_dictionaries.md R166, R167). -/
theorem eChild_eInsertChild (p q : Code) (b c : Byte) (s : State) :
    eChild q c (eInsertChild p b s) = if q = p ∧ c = b then some (s.nextCode.setWidth 24) else eChild q c s := by
  simp only [eChild, eInsertChild_echild, Dict.find_put]
  by_cases h : q = p ∧ c = b
  · obtain ⟨rfl, rfl⟩ := h; simp
  · rw [if_neg h, if_neg (fun hk => h (trieKey_inj hk))]

theorem memory_wf_iff (s : State) : Memory.wf s = true ↔
    Dict.wf s.echild = true ∧ Dict.wf s.dtab = true ∧ ∀ e ∈ s.dtab, Config.nSingle ≤ e.1 := by
  simp [Memory.wf, and_assoc]

theorem eInsertChild_memory (p : Code) (b : Byte) (s : State) (h : Memory.wf s = true) :
    Memory.wf (eInsertChild p b s) = true := by
  rw [memory_wf_iff] at *
  exact ⟨Dict.wf_put _ _ _ h.1, h.2⟩

theorem dExtend_frame (q : Bytes) (b : Byte) (s : State) :
    dExtend q b s = { s with dtab := (dExtend q b s).dtab, nextCode := (dExtend q b s).nextCode } := by
  unfold dExtend
  split <;> rfl

theorem dtabPut_wf (d : Dict Bytes) (c : Nat) (q : Bytes)
    (h : Dict.wf d = true ∧ ∀ e ∈ d, Config.nSingle ≤ e.1) :
    Dict.wf (dtabPut d c q) = true ∧ ∀ e ∈ dtabPut d c q, Config.nSingle ≤ e.1 := by
  unfold dtabPut
  split
  · exact h
  · next hc =>
    refine ⟨Dict.wf_put _ _ _ h.1, fun e he => ?_⟩
    rcases Dict.mem_put he with rfl | he
    · exact Nat.le_of_not_lt hc
    · exact h.2 e he

theorem dExtend_memory (q : Bytes) (b : Byte) (s : State) (h : Memory.wf s = true) : Memory.wf (dExtend q b s) = true := by
  rw [memory_wf_iff] at *
  unfold dExtend
  split
  · have := dtabPut_wf s.dtab s.nextCode.toNat (q ++ [b]) h.2
    exact ⟨h.1, this.1, this.2⟩
  · exact h

/-- A lookup after an extension (41_dictionaries.md R179, R180). -/
theorem dtabAt_dtabPut (d : Dict Bytes) (c c' : Nat) (q : Bytes) (hc : Config.nSingle ≤ c) :
    dtabAt (dtabPut d c q) c' = if c' = c then some q else dtabAt d c' := by
  have : ¬ c < Config.nSingle := Nat.not_lt.mpr hc
  unfold dtabAt dtabPut
  rw [if_neg this, Dict.find_put]
  by_cases h : c' = c
  · subst h; simp [this]
  · simp [h]

theorem trieInv_empty : TrieInv [] Config.nSingle where
  entry k c h := by simp [Dict.find] at h
  target c h1 h2 := by omega
  single k k' c h := by simp [Dict.find] at h

theorem tableInv_empty : TableInv [] Config.nSingle where
  defined c := by
    unfold dtabAt
    split
    · next h => simp [h]
    · next h => simp [Dict.find, h]
  bounded c q h := by
    unfold dtabAt at h
    split at h
    · cases h; simp
    · simp [Dict.find] at h

/-- EInsertChild keeps what 10_state.md R51 item 7 says of the trie (41_dictionaries.md R167). -/
theorem TrieInv.insert {d : Dict Code} {n : Nat} (h : TrieInv d n) (p : Code) (b : Byte)
    (hn : Config.nSingle ≤ n) (hn' : n < 2 ^ 24) (hp : p.toNat < n) (hnone : d.find (trieKey p b) = none) :
    TrieInv (d.put (trieKey p b) (BitVec.ofNat 24 n)) (n + 1) where
  entry k c hk := by
    rw [Dict.find_put] at hk
    split at hk
    · next hkk =>
      cases hk
      rw [BitVec.toNat_ofNat, Nat.mod_eq_of_lt hn', hkk]
      have := b.isLt
      unfold trieKey
      exact ⟨by omega, hn, by omega⟩
    · obtain ⟨h1, h2, h3⟩ := h.entry k c hk
      exact ⟨h1, h2, by omega⟩
  target c h1 h2 := by
    by_cases hc : c = n
    · exact ⟨trieKey p b, by rw [Dict.find_put]; simp [hc]⟩
    · obtain ⟨k, hk⟩ := h.target c h1 (by omega)
      refine ⟨k, ?_⟩
      rw [Dict.find_put, if_neg (fun hkk => ?_), hk]
      rw [hkk, hnone] at hk; cases hk
  single k k' c hk hk' := by
    have fresh : ∀ j, d.find j ≠ some (BitVec.ofNat 24 n) := by
      intro j hj
      have := (h.entry j _ hj).2.2
      rw [BitVec.toNat_ofNat, Nat.mod_eq_of_lt hn'] at this
      omega
    rw [Dict.find_put] at hk hk'
    split at hk <;> split at hk'
    · next a b => rw [a, b]
    · cases hk; exact absurd hk' (fresh k')
    · cases hk'; exact absurd hk (fresh k)
    · exact h.single k k' c hk hk'

/-- DExtend keeps what 10_state.md R51 item 8 and 20_memory.md R84 say of the table (41_dictionaries.md R180). -/
theorem TableInv.extend {d : Dict Bytes} {n : Nat} (h : TableInv d n) (q : Bytes) (b : Byte)
    (hn : Config.nSingle ≤ n) (hq : q.length ≤ n - 255) : TableInv (dtabPut d n (q ++ [b])) (n + 1) where
  defined c := by
    rw [dtabAt_dtabPut _ _ _ _ hn]
    split
    · next hc => simp [hc]
    · next hc => rw [h.defined c]; omega
  bounded c r hr := by
    rw [dtabAt_dtabPut _ _ _ _ hn] at hr
    split at hr
    · next hc =>
      cases hr
      simp only [Config.nSingle] at hn
      simp only [ne_eq, List.append_eq_nil_iff, List.cons_ne_nil, and_false, not_false_eq_true, List.length_append,
        List.length_singleton, true_and]
      omega
    · exact h.bounded c r hr

theorem TableInv.lookup {d : Dict Bytes} {n c : Nat} (h : TableInv d n) (hc : c < n) :
    ∃ x l, dtabAt d c = some (x :: l) ∧ (x :: l).length ≤ max 1 (c - 254) := by
  obtain ⟨q, hq⟩ := (h.defined c).mpr hc
  obtain ⟨h1, h2⟩ := h.bounded c q hq
  cases q with
  | nil => exact absurd rfl h1
  | cons x l => exact ⟨x, l, hq, h2⟩

/-- In canonical form a listed pair is what the search finds. -/
theorem Dict.mem_find {β : Type} {d : Dict β} {k : Nat} {v : β} (hw : Dict.wf d = true) (h : (k, v) ∈ d) :
    Dict.find d k = some v := by
  induction d with
  | nil => cases h
  | cons e rest ih =>
    obtain ⟨a, w⟩ := e
    simp only [Dict.wf, Bool.and_eq_true, List.all_eq_true, decide_eq_true_eq] at hw
    unfold Dict.find
    rcases List.mem_cons.mp h with h | h
    · cases h; simp
    · have := hw.1 _ h
      rw [if_neg (by simp at this; omega)]
      exact ih hw.2 h

/-- A key is its parent code and its byte put together. -/
theorem trieKey_parts {k : Nat} (h : k < 2 ^ 32) : trieKey (BitVec.ofNat 24 (k / 256)) (BitVec.ofNat 8 (k % 256)) = k := by
  unfold trieKey
  rw [BitVec.toNat_ofNat, BitVec.toNat_ofNat]; omega

/-- The parent of a code is the key of the one entry that targets it (10_state.md R39). -/
theorem trieParent_some {d : Dict Code} {c p : Code} {b : Byte} (hw : Dict.wf d = true) (h : trieParent d c = some (p, b)) :
    ∃ k, d.find k = some c ∧ p = BitVec.ofNat 24 (k / 256) ∧ b = BitVec.ofNat 8 (k % 256) := by
  have key : ∀ e : Dict Code, trieParent e c = some (p, b) →
      ∃ k, (k, c) ∈ e ∧ p = BitVec.ofNat 24 (k / 256) ∧ b = BitVec.ofNat 8 (k % 256) := by
    intro e he
    induction e with
    | nil => cases he
    | cons f rest ih =>
      obtain ⟨k, t⟩ := f
      unfold trieParent at he
      split at he
      · next ht => cases he; exact ⟨k, by simp [ht], rfl, rfl⟩
      · obtain ⟨k', h1, h2⟩ := ih he; exact ⟨k', List.mem_cons_of_mem _ h1, h2⟩
  obtain ⟨k, h1, h2⟩ := key d h
  exact ⟨k, Dict.mem_find hw h1, h2⟩

/-- A code without a parent is no entry's target. -/
theorem trieParent_none {d : Dict Code} {c : Code} (h : trieParent d c = none) : ∀ k, (k, c) ∉ d := by
  induction d with
  | nil => simp
  | cons f rest ih =>
    obtain ⟨k, t⟩ := f
    unfold trieParent at h
    split at h
    · cases h
    · next ht =>
      intro k' hk
      rcases List.mem_cons.mp hk with hk | hk
      · cases hk; exact ht rfl
      · exact ih h k' hk

/-- What seqE answers, one entry at a time, for a code the trie binds (10_state.md R39). -/
theorem TrieInv.parent {d : Dict Code} {n : Nat} (h : TrieInv d n) (hw : Dict.wf d = true) {c : Code}
    (h1 : 256 ≤ c.toNat) (h2 : c.toNat < n) :
    ∃ p b, trieParent d c = some (p, b) ∧ d.find (trieKey p b) = some c ∧ p.toNat < c.toNat := by
  cases hp : trieParent d c with
  | none =>
    obtain ⟨k, hk⟩ := h.target c.toNat h1 h2
    have : BitVec.ofNat 24 c.toNat = c := by simp
    rw [this] at hk
    exact absurd (Dict.find_mem hk) (trieParent_none hp k)
  | some pb =>
    obtain ⟨p, b⟩ := pb
    obtain ⟨k, hk, rfl, rfl⟩ := trieParent_some hw hp
    have hkc := (h.entry k c hk).1
    have := c.isLt
    refine ⟨_, _, rfl, by rw [trieKey_parts (by omega)]; exact hk, ?_⟩
    rw [BitVec.toNat_ofNat]; omega

theorem trieLookupFrom_append (d : Dict Code) (c : Code) (l : Bytes) (b : Byte) :
    trieLookupFrom d c (l ++ [b]) =
      match trieLookupFrom d c l with
      | none => none
      | some p => d.find (trieKey p b) := by
  induction l generalizing c with
  | nil =>
    simp only [List.nil_append, trieLookupFrom]
    split <;> simp_all
  | cons x l ih =>
    simp only [List.cons_append, trieLookupFrom]
    split
    · rfl
    · exact ih _

/-- The lookup of a sequence with one more byte is the probe of its code (41_dictionaries.md R162, R166). -/
theorem trieLookup_append (d : Dict Code) (q : Bytes) (b : Byte) (hq : q ≠ []) :
    trieLookup d (q ++ [b]) =
      match trieLookup d q with
      | none => none
      | some p => d.find (trieKey p b) := by
  cases q with
  | nil => exact absurd rfl hq
  | cons x l => exact trieLookupFrom_append d _ l b

end Sys2Proof.Machine
end

