-- ==== Sys2Proof/Laws/Invariant.lean ====
section
/-!
SUPPORT. The building blocks of the invariant: what each shared operation needs to keep `State.Inv` (10_state.md R51), and the
arithmetic of the adaptive width (42_encode.md R198, 43_decode.md R230).
-/

namespace Sys2Proof.Machine

theorem bitlen_le {n k : Nat} (h : n < 2 ^ k) : bitlen n ≤ k := by
  unfold bitlen
  split
  · exact Nat.zero_le _
  · next h0 => exact (Nat.log2_lt h0).mpr h

theorem lt_bitlen {n k : Nat} (h : 2 ^ k ≤ n) : k < bitlen n := by
  have h0 : n ≠ 0 := by have := Nat.two_pow_pos k; omega
  unfold bitlen
  rw [if_neg h0]
  have := (Nat.le_log2 h0).mpr h
  omega

theorem lt_two_pow_bitlen (n : Nat) : n < 2 ^ bitlen n := by
  by_contra h
  exact absurd (lt_bitlen (Nat.le_of_not_lt h)) (lt_irrefl _)

theorem two_pow_le_of_lt_bitlen {n k : Nat} (h : k < bitlen n) : 2 ^ k ≤ n := by
  by_contra hn
  exact absurd (bitlen_le (Nat.lt_of_not_le hn)) (Nat.not_le.mpr h)

/-- The width test is the closed form's step: WIDTH grows exactly when the next count needs one bit more. -/
theorem adaptiveWidth_succ (m n : Nat) (hn : 256 ≤ n) :
    adaptiveWidth m (n + 1) =
      if 2 ^ adaptiveWidth m n ≤ n + 1 ∧ adaptiveWidth m n < m then adaptiveWidth m n + 1 else adaptiveWidth m n := by
  have h9 : 8 < bitlen n := lt_bitlen (by omega)
  have h9' : 8 < bitlen (n + 1) := lt_bitlen (by omega)
  have hlt := lt_two_pow_bitlen n
  have hmono : bitlen n ≤ bitlen (n + 1) := by
    by_contra hc
    have := two_pow_le_of_lt_bitlen (Nat.lt_of_not_le hc)
    have := lt_two_pow_bitlen (n + 1)
    omega
  have hup : bitlen (n + 1) ≤ bitlen n + 1 := bitlen_le (by rw [Nat.pow_succ]; omega)
  have hiff : bitlen (n + 1) = bitlen n + 1 ↔ 2 ^ bitlen n ≤ n + 1 := by
    constructor
    · intro h; exact two_pow_le_of_lt_bitlen (by omega)
    · intro h; have := lt_bitlen h; omega
  unfold adaptiveWidth Config.adaptStartW
  rw [Nat.max_eq_right (by omega : 9 ≤ bitlen n), Nat.max_eq_right (by omega : 9 ≤ bitlen (n + 1))]
  by_cases hm : m ≤ bitlen n
  · rw [Nat.min_eq_left hm, Nat.min_eq_left (le_trans hm hmono), if_neg (by omega)]
  · rw [Nat.min_eq_right (by omega : bitlen n ≤ m)]
    split
    · next h => rw [hiff.mpr h.1]; omega
    · next h =>
      have : bitlen (n + 1) = bitlen n := by
        by_contra hne
        exact h ⟨hiff.mp (by omega), by omega⟩
      rw [this]; omega

theorem adaptiveWidth_top (m : Nat) (hm : 9 ≤ m) : adaptiveWidth m (2 ^ m) = m := by
  have := lt_bitlen (le_refl (2 ^ m))
  unfold adaptiveWidth Config.adaptStartW
  omega

theorem adaptiveWidth_256 (m : Nat) (hm : 9 ≤ m) : adaptiveWidth m 256 = 9 := by
  have h1 : bitlen 256 = 9 := by decide
  unfold adaptiveWidth Config.adaptStartW
  rw [h1]; omega

theorem adaptiveWidth_257 (m : Nat) (hm : 9 ≤ m) : adaptiveWidth m 257 = 9 := by
  have h1 : bitlen 257 = 9 := by decide
  unfold adaptiveWidth Config.adaptStartW
  rw [h1]; omega

theorem adaptiveWidth_le (m n : Nat) : adaptiveWidth m n ≤ m := Nat.min_le_left _ _

/-- A count below the adaptive width's own power of two (42_encode.md R204). -/
theorem lt_two_pow_adaptiveWidth {m n c : Nat} (hc : c < n) (hm : n ≤ 2 ^ m) : c < 2 ^ adaptiveWidth m n := by
  unfold adaptiveWidth
  by_cases h : m ≤ max Config.adaptStartW (bitlen n)
  · rw [Nat.min_eq_left h]; omega
  · rw [Nat.min_eq_right (Nat.le_of_not_le h)]
    calc c < n := hc
      _ ≤ 2 ^ bitlen n := (lt_two_pow_bitlen n).le
      _ ≤ _ := Nat.pow_le_pow_right (by decide) (Nat.le_max_right _ _)

/-! Consequences of the invariant that the operations' lemmas use. -/

variable {s t : State}

theorem State.Inv.maxBits_le (h : s.Inv) : s.config.maxBits.toNat ≤ 24 := le_trans h.config.2 h.limit.2

theorem State.Inv.limit_le (h : s.Inv) : 2 ^ s.params.maxbLimit ≤ 2 ^ 24 := Nat.pow_le_pow_right (by decide) h.limit.2

theorem State.Inv.codeLimit_le (h : s.Inv) : codeLimit s ≤ 2 ^ s.params.maxbLimit :=
  Nat.pow_le_pow_right (by decide) h.config.2

theorem State.Inv.codeLimit_ge (h : s.Inv) : 512 ≤ codeLimit s :=
  le_trans (by decide : 512 ≤ 2 ^ 9) (Nat.pow_le_pow_right (by decide) h.config.1)

theorem State.Inv.width_le (h : s.Inv) : s.width.toNat ≤ 24 := le_trans h.widthTop h.limit.2

/-- In a pass WIDTH is at most MAX_BITS (10_state.md R51). -/
theorem State.Inv.width_le_maxBits (h : s.Inv) (hp : s.phase.inPass = true) : s.width.toNat ≤ s.config.maxBits.toNat := by
  cases ha : s.config.adaptive
  · exact (h.widthFixed hp ha).le
  · cases hq : s.phase <;> rw [hq] at hp <;> simp [Phase.inPass] at hp
    · rw [h.widthEncode hq ha]; exact adaptiveWidth_le _ _
    · rw [h.widthDecode hq ha]; exact adaptiveWidth_le _ _

theorem nextCode_succ (s : State) (h : s.nextCode.toNat < 2 ^ 24) : (s.nextCode + 1).toNat = s.nextCode.toNat + 1 := by
  rw [BitVec.toNat_add]; simp; omega

theorem unsaturated_iff (s : State) : unsaturated s = true ↔ s.nextCode.toNat < codeLimit s := by
  simp [unsaturated]

/-! The operations. -/

theorem State.Inv.popCq (h : s.Inv) : (popCq s).Inv :=
  { h with depth := ⟨h.depth.1, by
      have := h.depth.2
      show s.cq.tail.length ≤ s.params.cqDepth
      rw [List.length_tail]; omega⟩ }

theorem State.Inv.setAgenda (h : s.Inv) (l : List Turn) : State.Inv { s with agenda := l } := { h with }

theorem State.Inv.errorEntry (h : s.Inv) (k : ErrKind) (cw : Word) : (errorEntry k cw s).Inv := by
  unfold Machine.errorEntry
  split
  · exact h
  · exact
      { h with
        errorPhase := by simp
        errorWord := by simp
        passLimit := by simp [Phase.inPass]
        widthFixed := by simp [Phase.inPass]
        widthEncode := by simp
        widthDecode := by simp
        trie := by simp
        table := by simp }

/-- A change of the writer and OUT alone keeps the invariant. -/
theorem State.Inv.writer (h : s.Inv) (ht : t = { s with wAcc := t.wAcc, wCnt := t.wCnt, outLog := t.outLog, cntOut := t.cntOut })
    (ha : accInRange t) (hc : countsOutput s t) : t.Inv := by
  obtain ⟨l, hl, -⟩ := hc
  have hd := h.drained
  rw [ht]
  exact { h with
    accumulator := ha
    drained := by
      show s.outTaken ≤ t.outLog.length
      rw [hl, List.length_append]; omega }

theorem State.Inv.writeBits (h : s.Inv) (v : BitVec 24) (n : Nat) : (writeBits v n s).Inv :=
  h.writer (writeBits_frame v n s) (writeBits_accInRange v n s h.accumulator) (writeBits_countsOutput v n s)

theorem State.Inv.flush (h : s.Inv) : (flush s).Inv :=
  h.writer (flush_frame s) (flush_accInRange s h.accumulator) (flush_countsOutput s)

theorem State.Inv.outPush (h : s.Inv) (b : Byte) : (outPush b s).Inv :=
  h.writer rfl h.accumulator (outPush_countsOutput b s)

theorem State.Inv.outPushAll (h : s.Inv) (l : Bytes) : (outPushAll l s).Inv := by
  induction l generalizing s with
  | nil => exact h
  | cons b rest ih => exact ih (h.outPush b)

theorem outPushAll_frame (l : Bytes) (s : State) :
    outPushAll l s = { s with outLog := s.outLog ++ l, cntOut := s.cntOut + BitVec.ofNat 32 l.length } := by
  induction l generalizing s with
  | nil => simp [outPushAll]
  | cons b rest ih =>
    rw [outPushAll, ih]
    simp only [outPush, List.append_assoc, List.singleton_append, List.length_cons]
    congr 1
    rw [BitVec.add_assoc, Nat.add_comm, BitVec.ofNat_add]
    rfl

/-- A change of the reader and IN alone keeps the invariant. -/
theorem State.Inv.reader (h : s.Inv) (ht : t = { s with rBuf := t.rBuf, rCnt := t.rCnt, inQ := t.inQ, cntIn := t.cntIn }) :
    t.Inv := by
  rw [ht]; exact { h with }

theorem State.Inv.readBits (h : s.Inv) (w : Nat) : (readBits w s).2.Inv := h.reader (readBits_frame w s)

theorem State.Inv.inPop (h : s.Inv) {b : Byte} (hp : inPop s = some (b, t)) : t.Inv := by
  unfold Machine.inPop at hp
  split at hp
  · cases hp
  · cases hp; exact { h with }

theorem State.Inv.recordRead (h : s.Inv) (r : ReadResult) : (recordRead r s).Inv :=
  { h with
    result := by
      cases r <;> simp [ReadResult.nodataFlag, ReadResult.value, ReadResult.midcodeFlag] }

theorem State.Inv.countCode (h : s.Inv) : (countCode s).Inv := { h with }

theorem State.Inv.setMatch (h : s.Inv) {c : Code} (hc : c.toNat < s.nextCode.toNat) : (setMatch c s).Inv :=
  { h with
    matchBound := fun _ => hc
    matchEmpty := fun hv => by simp at hv }

theorem singleton_toNat (b : Byte) : (singleton b).toNat = b.toNat := by
  have := b.isLt
  unfold singleton
  rw [BitVec.toNat_setWidth, Nat.mod_eq_of_lt (by omega)]

theorem State.Inv.singleton_lt (h : s.Inv) (b : Byte) : (singleton b).toNat < s.nextCode.toNat := by
  rw [singleton_toNat]
  have := h.nextCode.1
  have := b.isLt
  simp only [Config.nSingle] at *
  omega

/-- Leaving the active phase for a phase that is not ERROR keeps the invariant. -/
theorem State.Inv.leavePass (h : s.Inv) (p : Phase) (hs : s.phase ≠ .error) (hp : p.inPass = false) (he : p ≠ .error) :
    (setPhase p s).Inv :=
  { h with
    errorPhase := by
      have := h.errorPhase
      simp only [setPhase_phase, setPhase_err]
      tauto
    passLimit := by simp [hp]
    widthFixed := by simp [hp]
    widthEncode := by rintro h1; simp only [setPhase_phase] at h1; subst h1; simp [Phase.inPass] at hp
    widthDecode := by rintro h1; simp only [setPhase_phase] at h1; subst h1; simp [Phase.inPass] at hp
    trie := by rintro h1; simp only [setPhase_phase] at h1; subst h1; simp [Phase.inPass] at hp
    table := by rintro h1; simp only [setPhase_phase] at h1; subst h1; simp [Phase.inPass] at hp }

theorem memory_wf_empty (s : State) (h1 : s.echild = []) (h2 : s.dtab = []) : Memory.wf s = true := by
  rw [memory_wf_iff, h1, h2]; simp [Dict.wf]

/-- The reset state's dictionaries are in canonical form. -/
theorem memory_wf_reset : Memory.wf State.reset = true := memory_wf_empty _ rfl rfl

theorem State.Inv.startWidth (h : s.Inv) : (startCommon s).width.toNat =
    if s.config.adaptive then 9 else s.config.maxBits.toNat := by
  have := h.maxBits_le
  simp only [startCommon_width]
  split
  · rfl
  · rw [BitVec.toNat_setWidth, Nat.mod_eq_of_lt (by omega)]

/-- start_common gives a state that meets the invariant, with the phase IDLE (42_encode.md R192). -/
theorem State.Inv.startCommon (h : s.Inv) : (startCommon s).Inv where
  limit := h.limit
  depth := h.depth
  config := h.config
  errorPhase := by simp
  errorWord := by simp
  accumulator := by simp
  nextCode := by
    refine ⟨by simp [Config.nSingle], ?_⟩
    have h1 := h.codeLimit_le
    have h2 := h.codeLimit_ge
    show 256 ≤ 2 ^ s.params.maxbLimit
    omega
  widthTop := by
    have h1 := h.config
    have h2 := h.limit
    rw [h.startWidth]
    simp only [startCommon_params]
    simp only [Config.maxbMin] at h1 h2
    split <;> omega
  matchBound := by simp [MatchReg.empty]
  matchEmpty := by simp [MatchReg.empty]
  result := by simp [ResultReg.cleared]
  header := by simp [HdrReg.cleared]
  passLimit := by simp [Phase.inPass]
  widthFixed := by simp [Phase.inPass]
  widthEncode := by simp
  widthDecode := by simp
  memory := memory_wf_empty _ rfl rfl
  trie := by simp
  table := by simp
  drained := h.drained
  eosOwner := by simpa using h.eosOwner

/-- Entering ENC_ACTIVE from a fresh start (42_encode.md R192). -/
theorem State.Inv.enterEncode (h : s.Inv) (hs : s.phase = .idle) (hn : s.nextCode = 256) (he : s.echild = [])
    (hw : s.width.toNat = if s.config.adaptive then 9 else s.config.maxBits.toNat) :
    (setPhase .encActive s).Inv :=
  { h with
    errorPhase := by
      have := h.errorPhase
      simp only [hs] at this
      simp only [setPhase_phase, setPhase_err]
      simpa using this
    passLimit := by
      intro _
      have := h.codeLimit_ge
      simp only [setPhase_nextCode, hn]
      show 256 ≤ codeLimit s
      omega
    widthFixed := by intro _ ha; rw [setPhase_config] at ha ⊢; rw [setPhase_width, hw, ha]; simp
    widthEncode := by
      intro _ ha
      rw [setPhase_config] at ha ⊢
      rw [setPhase_width, hw, ha, setPhase_nextCode, hn]
      exact (adaptiveWidth_256 _ h.config.1).symm
    widthDecode := by simp
    trie := by intro _; rw [setPhase_echild, he, setPhase_nextCode, hn]; exact trieInv_empty
    table := by simp }

/-- Entering DEC_ACTIVE from a fresh start (43_decode.md R222). -/
theorem State.Inv.enterDecode (h : s.Inv) (b : Byte) (hs : s.phase = .idle) (hn : s.nextCode = 256) (he : s.dtab = [])
    (hw : s.width.toNat = if s.config.adaptive then 9 else s.config.maxBits.toNat) :
    (takeHeader b s).Inv :=
  { h with
    errorPhase := by
      have := h.errorPhase
      simp only [hs] at this
      simp only [takeHeader_phase, takeHeader_err]
      simpa using this
    header := by simp
    passLimit := by
      intro _
      have := h.codeLimit_ge
      simp only [takeHeader_nextCode, hn]
      show 256 ≤ codeLimit s
      omega
    widthFixed := by intro _ ha; rw [takeHeader_config] at ha ⊢; rw [takeHeader_width, hw, ha]; simp
    widthEncode := by simp
    widthDecode := by
      intro _ ha
      rw [takeHeader_config] at ha ⊢
      rw [takeHeader_width, hw, ha, takeHeader_nextCode, hn]
      have := h.codeLimit_ge
      rw [show min ((256 : CodeCount).toNat + 1) (codeLimit (takeHeader b s)) = 257 by
        show min 257 (codeLimit s) = 257
        omega]
      exact (adaptiveWidth_257 _ h.config.1).symm
    trie := by simp
    table := by intro _; rw [takeHeader_dtab, he, takeHeader_nextCode, hn]; exact tableInv_empty }

theorem atReset_legal (n : Nat) (h : Config.maxbMin ≤ n ∧ n ≤ Config.maxbLimitTop) :
    Config.maxbMin ≤ (ConfigReg.atReset n).maxBits.toNat ∧ (ConfigReg.atReset n).maxBits.toNat ≤ n := by
  simp only [ConfigReg.atReset, Config.resetMaxBits, Config.maxbMin, Config.maxbLimitTop] at *
  rw [BitVec.toNat_ofNat, Nat.mod_eq_of_lt (by omega)]
  omega

/-- The reset state of the block meets the invariant (10_state.md R53). -/
theorem State.Inv.resetBlock (h : s.Inv) : (resetBlock s).Inv where
  limit := h.limit
  depth := h.depth
  config := atReset_legal _ h.limit
  errorPhase := by simp
  errorWord := by simp
  accumulator := by simp
  nextCode := by
    refine ⟨by simp [Config.nSingle], ?_⟩
    have h1 := h.codeLimit_le
    have h2 := h.codeLimit_ge
    show 256 ≤ 2 ^ s.params.maxbLimit
    omega
  widthTop := by simp
  matchBound := by simp [MatchReg.empty]
  matchEmpty := by simp [MatchReg.empty]
  result := by simp [ResultReg.cleared]
  header := by simp [HdrReg.cleared]
  passLimit := by simp [Phase.inPass]
  widthFixed := by simp [Phase.inPass]
  widthEncode := by simp
  widthDecode := by simp
  memory := memory_wf_empty _ rfl rfl
  trie := by simp
  table := by simp
  drained := h.drained
  eosOwner := h.eosOwner

/-- A legal CFG outside a pass keeps the invariant (44_control.md R254). -/
theorem State.Inv.setConfig (h : s.Inv) {m : BitVec 8} (a : Bool) (hm : legalMaxBits m s = true)
    (hp : s.phase.inPass = false) : (setConfig m a s).Inv := by
  simp only [legalMaxBits, Bool.and_eq_true, decide_eq_true_eq] at hm
  exact { h with
    config := hm
    passLimit := by simp [hp]
    widthFixed := by simp [hp]
    widthEncode := by rintro h1; simp only [setConfig_phase] at h1; rw [h1] at hp; simp [Phase.inPass] at hp
    widthDecode := by rintro h1; simp only [setConfig_phase] at h1; rw [h1] at hp; simp [Phase.inPass] at hp }

/-- The encoder's insertion with its width test keeps the invariant (42_encode.md R196, R198). -/
theorem State.Inv.encInsert (h : s.Inv) (hp : s.phase = .encActive) (hv : s.matchReg.valid = true) (b : Byte)
    (hnone : eChild s.matchReg.code b s = none) : (encInsert b s).Inv := by
  unfold Machine.encInsert
  split
  swap
  · exact h
  next hu =>
  rw [unsaturated_iff] at hu
  have hlim := h.codeLimit_le
  have hlim24 := h.limit_le
  have hmatch := h.matchBound hv
  have h256 := h.nextCode.1
  have hnext : (s.nextCode + 1).toNat = s.nextCode.toNat + 1 := nextCode_succ s (by omega)
  have hset : s.nextCode.setWidth 24 = BitVec.ofNat 24 s.nextCode.toNat := by
    apply BitVec.eq_of_toNat_eq; simp
  have htrie := (h.trie hp).insert s.matchReg.code b h256 (by omega) hmatch hnone
  rw [← hset] at htrie
  have hmem := eInsertChild_memory s.matchReg.code b s h.memory
  have hstep := adaptiveWidth_succ s.config.maxBits.toNat s.nextCode.toNat h256
  unfold encWiden
  split
  · next hc =>
    simp only [Bool.and_eq_true, decide_eq_true_eq] at hc
    simp only [eInsertChild_config, eInsertChild_width, eInsertChild_nextCode, hnext] at hc
    obtain ⟨⟨ha, hc1⟩, hc2⟩ := hc
    have hw := h.widthEncode hp ha
    have hmax := h.maxBits_le
    have hwid : (s.width + 1).toNat = s.width.toNat + 1 := by
      rw [BitVec.toNat_add]; simp; omega
    exact { h with
      nextCode := by simp only [widen_nextCode, widen_params, eInsertChild_nextCode, eInsertChild_params, hnext]; omega
      widthTop := by
        have := h.config.2
        simp only [widen_width, widen_params, eInsertChild_width, eInsertChild_params, hwid]; omega
      matchBound := by
        intro _
        simp only [widen_nextCode, widen_matchReg, eInsertChild_nextCode, eInsertChild_matchReg, hnext]; omega
      passLimit := by
        intro _
        simp only [widen_nextCode, eInsertChild_nextCode, hnext]; exact hu
      widthFixed := by intro _ h2; simp only [widen_config, eInsertChild_config] at h2; rw [ha] at h2; cases h2
      widthEncode := by
        intro _ _
        simp only [widen_width, widen_config, widen_nextCode, eInsertChild_width, eInsertChild_config,
          eInsertChild_nextCode, hnext, hwid, hstep]
        rw [← hw, if_pos ⟨hc1, hc2⟩]
      widthDecode := by intro h1; simp only [widen_phase, eInsertChild_phase] at h1; rw [hp] at h1; cases h1
      memory := hmem
      trie := by
        intro _
        simp only [widen_nextCode, eInsertChild_nextCode, hnext]; exact htrie
      table := by intro h1; simp only [widen_phase, eInsertChild_phase] at h1; rw [hp] at h1; cases h1 }
  · next hc =>
    simp only [Bool.and_eq_true, decide_eq_true_eq] at hc
    simp only [eInsertChild_config, eInsertChild_width, eInsertChild_nextCode, hnext] at hc
    exact { h with
      nextCode := by simp only [eInsertChild_nextCode, eInsertChild_params, hnext]; omega
      matchBound := by
        intro _
        simp only [eInsertChild_nextCode, eInsertChild_matchReg, hnext]; omega
      passLimit := by
        intro _
        simp only [eInsertChild_nextCode, hnext]; exact hu
      widthEncode := by
        intro _ ha
        simp only [eInsertChild_config] at ha
        have hw := h.widthEncode hp ha
        simp only [eInsertChild_width, eInsertChild_config, eInsertChild_nextCode, hnext, hstep]
        rw [← hw, if_neg (fun hcc => hc ⟨⟨ha, hcc.1⟩, hcc.2⟩)]
      widthDecode := by intro h1; simp only [eInsertChild_phase] at h1; rw [hp] at h1; cases h1
      memory := hmem
      trie := by
        intro _
        simp only [eInsertChild_nextCode, hnext]; exact htrie
      table := by intro h1; simp only [eInsertChild_phase] at h1; rw [hp] at h1; cases h1 }

/-- The decoder's extension with its width test keeps the invariant (43_decode.md R229, R230). -/
theorem State.Inv.decExtend (h : s.Inv) (hp : s.phase = .decActive) (hv : s.matchReg.valid = true) (cur : Bytes) (b : Byte)
    (hcur : dtabAt s.dtab s.matchReg.code.toNat = some cur) : (decExtend cur b s).Inv := by
  unfold Machine.decExtend
  split
  swap
  · exact h
  next hu =>
  have hu' := (unsaturated_iff s).mp hu
  have hlim := h.codeLimit_le
  have hlim24 := h.limit_le
  have hmatch := h.matchBound hv
  have h256 := h.nextCode.1
  have hnext : (s.nextCode + 1).toNat = s.nextCode.toNat + 1 := nextCode_succ s (by omega)
  have hlen := ((h.table hp).bounded _ _ hcur).2
  have htable := (h.table hp).extend cur b h256 (by simp only [Config.nSingle] at h256; omega)
  have hmem := dExtend_memory cur b s h.memory
  have hdx : dExtend cur b s =
      { s with dtab := dtabPut s.dtab s.nextCode.toNat (cur ++ [b]), nextCode := s.nextCode + 1 } := by
    unfold dExtend; rw [if_pos hu]
  rw [hdx] at hmem ⊢
  have hstep := adaptiveWidth_succ s.config.maxBits.toNat (s.nextCode.toNat + 1) (by simp only [Config.nSingle] at h256; omega)
  have hold : s.config.adaptive = true → s.width.toNat = adaptiveWidth s.config.maxBits.toNat (s.nextCode.toNat + 1) := by
    intro ha
    have := h.widthDecode hp ha
    rwa [Nat.min_eq_left (by omega)] at this
  unfold decWiden
  split
  · next hc =>
    simp only [Bool.and_eq_true, decide_eq_true_eq] at hc
    simp only [hnext] at hc
    obtain ⟨⟨ha, hc1⟩, hc2⟩ := hc
    have hw := hold ha
    have hmax := h.maxBits_le
    have hwid : (s.width + 1).toNat = s.width.toNat + 1 := by
      rw [BitVec.toNat_add]; simp; omega
    have hlt : s.nextCode.toNat + 2 ≤ codeLimit s := by
      by_contra hcon
      have heq : s.nextCode.toNat + 1 = 2 ^ s.config.maxBits.toNat := by
        have h1 : codeLimit s = 2 ^ s.config.maxBits.toNat := rfl
        omega
      rw [heq, adaptiveWidth_top _ h.config.1] at hw
      omega
    exact { h with
      nextCode := by simp only [widen_nextCode, widen_params, hnext]; omega
      widthTop := by
        have := h.config.2
        simp only [widen_width, widen_params, hwid]; omega
      matchBound := by
        intro _
        simp only [widen_nextCode, widen_matchReg, hnext]; omega
      passLimit := by
        intro _
        simp only [widen_nextCode, hnext]
        exact Nat.succ_le_of_lt hu'
      widthFixed := by intro _ h2; simp only [widen_config] at h2; rw [ha] at h2; cases h2
      widthEncode := by intro h1; simp only [widen_phase] at h1; rw [hp] at h1; cases h1
      widthDecode := by
        intro _ _
        simp only [widen_width, widen_config, widen_nextCode, hnext, hwid]
        show s.width.toNat + 1 = adaptiveWidth s.config.maxBits.toNat (min (s.nextCode.toNat + 1 + 1) (codeLimit s))
        rw [Nat.min_eq_left hlt, hstep, ← hw, if_pos ⟨hc1, hc2⟩]
      memory := hmem
      trie := by intro h1; simp only [widen_phase] at h1; rw [hp] at h1; cases h1
      table := by
        intro _
        simp only [widen_nextCode, widen_dtab, hnext]; exact htable }
  · next hc =>
    simp only [Bool.and_eq_true, decide_eq_true_eq] at hc
    simp only [hnext] at hc
    exact { h with
      nextCode := by simp only [hnext]; omega
      matchBound := by
        intro _
        simp only [hnext]; omega
      passLimit := by
        intro _
        simp only [hnext]
        exact Nat.succ_le_of_lt hu'
      widthEncode := by intro h1; simp only at h1; rw [hp] at h1; cases h1
      widthDecode := by
        intro _ ha
        simp only at ha
        have hw := hold ha
        simp only [hnext]
        show s.width.toNat = adaptiveWidth s.config.maxBits.toNat (min (s.nextCode.toNat + 1 + 1) (codeLimit s))
        by_cases hlt : s.nextCode.toNat + 2 ≤ codeLimit s
        · rw [Nat.min_eq_left hlt, hstep, ← hw, if_neg (fun hcc => hc ⟨⟨ha, hcc.1⟩, hcc.2⟩)]
        · have heq : codeLimit s = s.nextCode.toNat + 1 := by omega
          rw [heq, Nat.min_eq_right (by omega), ← hw]
      memory := hmem
      trie := by intro h1; simp only at h1; rw [hp] at h1; cases h1
      table := by
        intro _
        simp only [hnext]; exact htable }

end Sys2Proof.Machine
end

