-- ==== Sys2Proof/Laws/Cycle.lean ====
section
/-!
SUPPORT. The command cycle said once (44_control.md R256): how a cycle ends for each way a body ends, and that every body keeps
the invariant in the phases in which its command is legal.
-/

namespace Sys2Proof.Machine

/-- Every state a body hands on has property `P`, and it reads no undefined entry. -/
def Progress.All (P : State → Prop) : Progress → Prop
  | .completes t => P t
  | .continues t => P t
  | .holds => True
  | .raises _ t => P t
  | .undefinedRead => False

/-- What a command of R256 answers when it answers a next state. -/
theorem runCommand_next {i : Instr} {body : State → Progress} {s t : State} (h : runCommand i body s = .next t) :
    (legalIn i s.phase = false ∧ t = popCq (errorEntry .badPhase (encode i) s)) ∨
    (legalIn i s.phase = true ∧
      ((∃ u, body s = .completes u ∧ t = popCq u) ∨ body s = .continues t ∨ (body s = .holds ∧ t = s) ∨
        ∃ k u, body s = .raises k u ∧ t = popCq (errorEntry k (encode i) u))) := by
  unfold runCommand at h
  split at h
  · next hl =>
    refine .inr ⟨hl, ?_⟩
    cases hb : body s <;> rw [hb] at h <;> simp only [finishCycle, Host.Outcome.next.injEq, reduceCtorEq] at h <;>
      subst h <;> simp
  · next hl =>
    simp only [Host.Outcome.next.injEq] at h
    exact .inl ⟨by simpa using hl, h.symm⟩

theorem runCommand_legal {i : Instr} {body : State → Progress} {s : State} (h : legalIn i s.phase = true) :
    runCommand i body s = finishCycle (encode i) s (body s) := by
  unfold runCommand; rw [if_pos h]

theorem runCommand_illegal {i : Instr} {body : State → Progress} {s : State} (h : legalIn i s.phase = false) :
    runCommand i body s = .next (popCq (errorEntry .badPhase (encode i) s)) := by
  unfold runCommand; rw [if_neg (by simp [h])]

/-- How a legal command ends when its body completes. -/
theorem runCommand_completes {i : Instr} {body : State → Progress} {s t : State} (hl : legalIn i s.phase = true)
    (hb : body s = .completes t) : runCommand i body s = .next (popCq t) := by
  rw [runCommand_legal hl, hb]; rfl

/-- How a legal command ends when its body raises an error. -/
theorem runCommand_raises {i : Instr} {body : State → Progress} {s t : State} {k : ErrKind} (hl : legalIn i s.phase = true)
    (hb : body s = .raises k t) : runCommand i body s = .next (popCq (errorEntry k (encode i) t)) := by
  rw [runCommand_legal hl, hb]; rfl

/-- How a legal command ends when its body holds. -/
theorem runCommand_holds {i : Instr} {body : State → Progress} {s : State} (hl : legalIn i s.phase = true)
    (hb : body s = .holds) : runCommand i body s = .next s := by
  rw [runCommand_legal hl, hb]; rfl

/-- The range check of CFG (44_control.md R254). -/
theorem legalMaxBits_iff (m : BitVec 8) (s : State) :
    legalMaxBits m s = true ↔ 9 ≤ m.toNat ∧ m.toNat ≤ s.params.maxbLimit := by
  simp only [legalMaxBits, Bool.and_eq_true, decide_eq_true_eq]; rfl

/-- The enable of a read (20_memory.md R67). -/
theorem readEnabled_iff (w : Nat) (s : State) :
    readEnabled w s = true ↔ w ≤ s.rCnt.toNat + 8 * s.inQ.length ∨ s.inEos = true := by
  simp only [readEnabled, Bool.or_eq_true, decide_eq_true_eq]; rfl

/-- The enable of a byte or of the end of input (20_memory.md R67). -/
theorem inputReady_iff (s : State) : inputReady s = true ↔ s.inQ ≠ [] ∨ s.inEos = true := by
  simp [inputReady, inAvail, List.length_pos_iff]

/-- Outside a pass the phase is neither of the two active ones. -/
theorem inPass_iff (p : Phase) : p.inPass = true ↔ p = .encActive ∨ p = .decActive := by
  cases p <;> simp [Phase.inPass]

/-- The raw phases (40_bitstream.md R144). -/
theorem rawLegal_iff (p : Phase) : p.rawLegal = true ↔ p = .idle ∨ p = .encDone ∨ p = .decDone := by
  cases p <;> simp [Phase.rawLegal]

/-- A command keeps the invariant if its body does in the phases in which it is legal. -/
theorem runCommand_keeps {i : Instr} {body : State → Progress} {s : State} (h : s.Inv)
    (hb : legalIn i s.phase = true → (body s).All State.Inv) : ∃ t, runCommand i body s = .next t ∧ t.Inv := by
  unfold runCommand
  split
  · next hl =>
    have := hb hl
    cases hc : body s <;> rw [hc] at this
    · exact ⟨_, rfl, State.Inv.popCq this⟩
    · exact ⟨_, rfl, this⟩
    · exact ⟨_, rfl, h⟩
    · exact ⟨_, rfl, (State.Inv.errorEntry this _ _).popCq⟩
    · exact this.elim
  · exact ⟨_, rfl, (h.errorEntry _ _).popCq⟩

theorem runIteration_all {p : Phase} {r : Progress} {P : State → Prop} (h : r.All P) : (runIteration p r).All P := by
  cases r with
  | completes t =>
    show (if t.phase = p then Progress.continues t else .completes t).All P
    split <;> exact h
  | continues t => exact h
  | holds => exact h
  | raises k t => exact h
  | undefinedRead => exact h

/-! Every command is one cycle of its body (44_control.md R256). -/

/-- The body of each command. -/
def commandBody : Instr → State → Progress
  | .nop => nopBody
  | .softReset => softResetBody
  | .cfg m a => cfgBody m a
  | .encStart => encStartBody
  | .encStep => encStepBody
  | .encRun => fun s => runIteration .encActive (encStepBody s)
  | .decStart => decStartBody
  | .decStep => decStepBody
  | .decRun => fun s => runIteration .decActive (decStepBody s)
  | .bsFlush => bsFlushBody
  | .bsWrite w v => bsWriteBody w v
  | .bsRead w => bsReadBody w

theorem exec_eq (i : Instr) (s : State) : exec i s = runCommand i (commandBody i) s := by
  cases i <;> rfl

/-- A legal command whose body completes leaves CQ. -/
theorem exec_completes {i : Instr} {s t : State} (hl : legalIn i s.phase = true) (hb : commandBody i s = .completes t) :
    exec i s = .next (popCq t) := by
  rw [exec_eq]; exact runCommand_completes hl hb

/-- A legal command whose body raises takes the error entry and leaves CQ. -/
theorem exec_raises {i : Instr} {s t : State} {k : ErrKind} (hl : legalIn i s.phase = true)
    (hb : commandBody i s = .raises k t) : exec i s = .next (popCq (errorEntry k (encode i) t)) := by
  rw [exec_eq]; exact runCommand_raises hl hb

/-- A legal command whose body holds changes nothing. -/
theorem exec_holds {i : Instr} {s : State} (hl : legalIn i s.phase = true) (hb : commandBody i s = .holds) :
    exec i s = .next s := by
  rw [exec_eq]; exact runCommand_holds hl hb

/-- A RUN whose iteration leaves the pass active stays at the head of CQ. -/
theorem exec_continues {i : Instr} {s t : State} (hl : legalIn i s.phase = true) (hb : commandBody i s = .continues t) :
    exec i s = .next t := by
  rw [exec_eq, runCommand_legal hl, hb]; rfl

theorem exec_nop (s : State) : exec .nop s = runCommand .nop nopBody s := rfl

theorem exec_softReset (s : State) : exec .softReset s = runCommand .softReset softResetBody s := rfl

theorem exec_cfg (m : BitVec 8) (a : Bool) (s : State) : exec (.cfg m a) s = runCommand (.cfg m a) (cfgBody m a) s := rfl

theorem exec_encStart (s : State) : exec .encStart s = runCommand .encStart encStartBody s := rfl

theorem exec_encStep (s : State) : exec .encStep s = runCommand .encStep encStepBody s := rfl

theorem exec_encRun (s : State) : exec .encRun s = runCommand .encRun (fun t => runIteration .encActive (encStepBody t)) s := rfl

theorem exec_decStart (s : State) : exec .decStart s = runCommand .decStart decStartBody s := rfl

theorem exec_decStep (s : State) : exec .decStep s = runCommand .decStep decStepBody s := rfl

theorem exec_decRun (s : State) : exec .decRun s = runCommand .decRun (fun t => runIteration .decActive (decStepBody t)) s := rfl

theorem exec_bsFlush (s : State) : exec .bsFlush s = runCommand .bsFlush bsFlushBody s := rfl

theorem exec_bsWrite (w : BitVec 5) (v : BitVec 24) (s : State) : exec (.bsWrite w v) s = runCommand (.bsWrite w v) (bsWriteBody w v) s := rfl

theorem exec_bsRead (w : BitVec 5) (s : State) : exec (.bsRead w) s = runCommand (.bsRead w) (bsReadBody w) s := rfl

variable {s : State}

theorem softResetBody_all (h : s.Inv) : (softResetBody s).All State.Inv := h.resetBlock

theorem cfgBody_all (h : s.Inv) (m : BitVec 8) (a : Bool) (hp : s.phase.inPass = false) :
    (cfgBody m a s).All State.Inv := by
  unfold cfgBody
  split
  · next hm => exact h.setConfig a hm hp
  · exact h

theorem bsFlushBody_all (h : s.Inv) : (bsFlushBody s).All State.Inv := h.flush

theorem bsWriteBody_all (h : s.Inv) (w : BitVec 5) (v : BitVec 24) : (bsWriteBody w v s).All State.Inv :=
  h.writeBits _ _

theorem bsReadBody_all (h : s.Inv) (w : BitVec 5) : (bsReadBody w s).All State.Inv := by
  unfold bsReadBody
  split
  · exact (h.readBits _).recordRead _
  · exact trivial

theorem encStartBody_all (h : s.Inv) : (encStartBody s).All State.Inv := by
  have h1 := h.startCommon.writeBits ((startCommon s).config.maxBits.setWidth 24) 8
  have hf := writeBits_frame ((startCommon s).config.maxBits.setWidth 24) 8 (startCommon s)
  have hw := h.startWidth
  unfold encStartBody Progress.All
  dsimp only
  generalize writeBits ((startCommon s).config.maxBits.setWidth 24) 8 (startCommon s) = u at *
  refine h1.enterEncode ?_ ?_ ?_ ?_ <;> rw [hf]
  · rfl
  · rfl
  · rfl
  · exact hw

theorem emitMatch_frame (s : State) :
    emitMatch s = { s with
      wAcc := (emitMatch s).wAcc, wCnt := (emitMatch s).wCnt, outLog := (emitMatch s).outLog,
      cntOut := (emitMatch s).cntOut, cntCodes := s.cntCodes + 1 } := by
  unfold emitMatch
  conv => lhs; rw [writeBits_frame]
  rw [countCode]
  simp only [countCode_wAcc, countCode_wCnt, countCode_outLog, countCode_cntOut]

theorem State.Inv.emitMatch (h : s.Inv) : (emitMatch s).Inv := (h.writeBits _ _).countCode

theorem inPop_frame {b : Byte} {t : State} (h : inPop s = some (b, t)) :
    s.inQ = b :: t.inQ ∧ t = { s with inQ := t.inQ, cntIn := s.cntIn + 1 } := by
  unfold inPop at h
  split at h
  · cases h
  · next hq => cases h; exact ⟨hq, rfl⟩

theorem encByte_inv (h : s.Inv) (hp : s.phase = .encActive) (b : Byte) : (encByte b s).Inv := by
  unfold encByte
  split
  · next hv =>
    split
    · next c hc => exact h.setMatch ((h.trie hp).entry _ c hc).2.2
    · next hc =>
      have hf := emitMatch_frame s
      have h1 := h.emitMatch
      have h2 : (encInsert b (emitMatch s)).Inv := by
        refine h1.encInsert ?_ ?_ b ?_
        · rw [hf]; exact hp
        · rw [hf]; exact hv
        · rw [hf]; exact hc
      exact h2.setMatch (h2.singleton_lt b)
  · exact h.setMatch (h.singleton_lt b)

theorem encFinish_inv (h : s.Inv) (hp : s.phase = .encActive) : (encFinish s).Inv := by
  have hphase : ∀ u : State, (flush u).phase = u.phase := fun u => by rw [flush_frame u]
  unfold encFinish
  split
  · refine h.emitMatch.flush.leavePass .encDone ?_ rfl (by simp)
    rw [hphase, emitMatch_frame]; simp [hp]
  · refine h.flush.leavePass .encDone ?_ rfl (by simp)
    rw [hphase, hp]; simp

theorem encStepBody_all (h : s.Inv) (hp : s.phase = .encActive) : (encStepBody s).All State.Inv := by
  unfold encStepBody
  split
  · next b t ht => exact encByte_inv (h.inPop ht) (by rw [(inPop_frame ht).2]; exact hp) b
  · split
    · exact encFinish_inv h hp
    · exact trivial

theorem decStartBody_all (h : s.Inv) : (decStartBody s).All State.Inv := by
  unfold decStartBody
  split
  · dsimp only
    split
    · exact h.startCommon
    · have h1 := h.startCommon.readBits 8
      have hf := readBits_frame 8 (startCommon s)
      have hw := h.startWidth
      unfold Progress.All
      dsimp only
      generalize (readBits 8 (startCommon s)).1.value.setWidth 8 = b at *
      generalize (readBits 8 (startCommon s)).2 = u at *
      refine h1.enterDecode b ?_ ?_ ?_ ?_ <;> rw [hf]
      · rfl
      · rfl
      · rfl
      · exact hw
  · exact trivial

theorem firstCode_all (h : s.Inv) (code : Code) : (firstCode code s).All State.Inv := by
  unfold firstCode
  split
  · exact h
  · next hc =>
    refine ((h.outPush _).countCode).setMatch ?_
    have := h.nextCode.1
    simp only [countCode_nextCode, outPush_nextCode]
    omega

theorem emitEntry_all (h : s.Inv) (hp : s.phase = .decActive) (hv : s.matchReg.valid = true) (code : Code) (cur : Bytes)
    (x : Byte) (l : Bytes) (hcur : dtabAt s.dtab s.matchReg.code.toNat = some cur)
    (hcode : code.toNat < s.nextCode.toNat ∨ (code.toNat = s.nextCode.toNat ∧ s.nextCode.toNat < codeLimit s)) :
    (emitEntry code cur (x :: l) s).All State.Inv := by
  have hf : countCode (outPushAll (x :: l) s) =
      { s with outLog := s.outLog ++ (x :: l), cntOut := s.cntOut + BitVec.ofNat 32 (x :: l).length,
               cntCodes := s.cntCodes + 1 } := by
    rw [outPushAll_frame]; rfl
  have h1 := (h.outPushAll (x :: l)).countCode
  unfold emitEntry Progress.All
  dsimp only
  generalize countCode (outPushAll (x :: l) s) = u at *
  have hup : u.phase = .decActive := by rw [hf]; exact hp
  have huv : u.matchReg.valid = true := by rw [hf]; exact hv
  have huc : dtabAt u.dtab u.matchReg.code.toNat = some cur := by rw [hf]; exact hcur
  have h2 := h1.decExtend hup huv cur x huc
  refine h2.setMatch ?_
  have hun : u.nextCode = s.nextCode := by rw [hf]
  have hul : codeLimit u = codeLimit s := by rw [hf]; rfl
  have hnext : u.nextCode.toNat < codeLimit u → (decExtend cur x u).nextCode.toNat = u.nextCode.toNat + 1 := by
    intro hlt
    have hlim := h1.codeLimit_le
    have hlim24 := h1.limit_le
    have hus := (unsaturated_iff u).mpr hlt
    have hwn : ∀ v : State, (decWiden v).nextCode = v.nextCode := fun v => by unfold decWiden; split <;> rfl
    unfold decExtend
    rw [if_pos hus, hwn]
    unfold dExtend
    rw [if_pos hus]
    exact nextCode_succ u (by omega)
  have hsame : ¬ u.nextCode.toNat < codeLimit u → (decExtend cur x u).nextCode = u.nextCode := by
    intro hlt
    unfold decExtend
    rw [if_neg (by rw [unsaturated_iff]; exact hlt)]
  by_cases hlt : u.nextCode.toNat < codeLimit u
  · rw [hnext hlt, hun]; omega
  · rw [hsame hlt, hun]
    rw [hun, hul] at hlt
    omega

theorem laterCode_all (h : s.Inv) (hp : s.phase = .decActive) (hv : s.matchReg.valid = true) (code : Code) (cur : Bytes)
    (hcur : dtabAt s.dtab s.matchReg.code.toNat = some cur) (hlt : code.toNat < codeLimit s) :
    (laterCode code cur s).All State.Inv := by
  unfold laterCode dGet
  by_cases hc : code.toNat < s.nextCode.toNat
  · obtain ⟨x, l, hx, -⟩ := (h.table hp).lookup hc
    rw [if_pos hc, hx]
    exact emitEntry_all h hp hv code cur x l hcur (.inl hc)
  · rw [if_neg hc]
    dsimp only
    split
    · next heq =>
      have hne := ((h.table hp).bounded _ _ hcur).1
      cases cur with
      | nil => exact absurd rfl hne
      | cons c0 rest =>
        exact emitEntry_all h hp hv code (c0 :: rest) c0 (rest ++ [c0]) hcur (.inr ⟨heq, by omega⟩)
    · exact h

theorem takeCode_all (h : s.Inv) (hp : s.phase = .decActive) (code : Code) (hlt : code.toNat < codeLimit s) :
    (takeCode code s).All State.Inv := by
  unfold takeCode
  split
  · next hv =>
    obtain ⟨x, l, hx, -⟩ := (h.table hp).lookup (h.matchBound hv)
    rw [hx]
    exact laterCode_all h hp hv code (x :: l) hx hlt
  · exact firstCode_all h code

theorem decStepBody_all (h : s.Inv) (hp : s.phase = .decActive) : (decStepBody s).All State.Inv := by
  unfold decStepBody
  split
  swap
  · exact trivial
  have hw : s.width.toNat ≤ s.config.maxBits.toNat := h.width_le_maxBits (by rw [hp]; rfl)
  have h1 := (h.readBits s.width.toNat).recordRead (readBits s.width.toNat s).1
  have hf := readBits_frame s.width.toNat s
  have hlt := fun v => readBits_lt (v := v) (s := s) h.width_le
  dsimp only
  generalize (readBits s.width.toNat s).1 = r at *
  have hp1 : (recordRead r (readBits s.width.toNat s).2).phase = .decActive := by rw [hf]; exact hp
  have hl1 : codeLimit (recordRead r (readBits s.width.toNat s).2) = codeLimit s := by rw [hf]; rfl
  generalize recordRead r (readBits s.width.toNat s).2 = u at *
  cases r with
  | ok code =>
    refine takeCode_all h1 hp1 code ?_
    rw [hl1]
    exact lt_of_lt_of_le (hlt code rfl) (Nat.pow_le_pow_right (by decide) hw)
  | nodata mid =>
    cases mid
    · exact h1.leavePass .decDone (by rw [hp1]; simp) rfl (by simp)
    · exact h1

theorem inPop_cons {b : Byte} {rest : List Byte} {s : State} (h : s.inQ = b :: rest) :
    inPop s = some (b, { s with inQ := rest, cntIn := s.cntIn + 1 }) := by
  rw [inPop, h]

end Sys2Proof.Machine
end

