-- ==== Sys2Proof/Laws/Encoding.lean ====
section
/-!
SUPPORT. The fields of a command word (30_encoding.md R92, R93): putting them together and taking them apart again.
-/

namespace Sys2Proof

/-- Two fields side by side, as a number. -/
theorem toNat_append_add {n m : Nat} (x : BitVec n) (y : BitVec m) : (x ++ y).toNat = x.toNat * 2 ^ m + y.toNat := by
  rw [BitVec.toNat_append, ← Nat.shiftLeft_add_eq_or_of_lt y.isLt, Nat.shiftLeft_eq]

/-- A field of a word, as a number. -/
theorem toNat_extract {n : Nat} (x : BitVec n) (i k : Nat) : (x.extractLsb' i k).toNat = x.toNat / 2 ^ i % 2 ^ k := by
  rw [BitVec.extractLsb'_toNat, Nat.shiftRight_eq_div_pow]

/-- A command word as a number (30_encoding.md R92). -/
theorem commandWord_toNat (o : BitVec 3) (f : BitVec 5) (a : BitVec 24) :
    (commandWord o f a).toNat = o.toNat * 2 ^ 29 + f.toNat * 2 ^ 24 + a.toNat := by
  unfold commandWord
  rw [toNat_append_add, toNat_append_add]; omega

@[simp] theorem opcOf_commandWord (o : BitVec 3) (f : BitVec 5) (a : BitVec 24) : opcOf (commandWord o f a) = o := by
  apply BitVec.eq_of_toNat_eq
  have := a.isLt; have := f.isLt; have := o.isLt
  unfold opcOf; rw [toNat_extract, commandWord_toNat]; omega

@[simp] theorem fnOf_commandWord (o : BitVec 3) (f : BitVec 5) (a : BitVec 24) : fnOf (commandWord o f a) = f := by
  apply BitVec.eq_of_toNat_eq
  have := a.isLt; have := f.isLt; have := o.isLt
  unfold fnOf; rw [toNat_extract, commandWord_toNat]; omega

@[simp] theorem argOf_commandWord (o : BitVec 3) (f : BitVec 5) (a : BitVec 24) : argOf (commandWord o f a) = a := by
  apply BitVec.eq_of_toNat_eq
  have := a.isLt; have := f.isLt; have := o.isLt
  unfold argOf; rw [toNat_extract, commandWord_toNat]; omega

/-- A word is its three fields put together. -/
theorem commandWord_fields (cw : Word) : commandWord (opcOf cw) (fnOf cw) (argOf cw) = cw := by
  apply BitVec.eq_of_toNat_eq
  rw [commandWord_toNat]
  unfold opcOf fnOf argOf
  rw [toNat_extract, toNat_extract, toNat_extract]
  have := cw.isLt
  omega

theorem cfgArg_toNat (m : BitVec 8) (a : Bool) : (cfgArg m a).toNat = a.toNat * 2 ^ 8 + m.toNat := by
  unfold cfgArg
  rw [toNat_append_add, toNat_append_add]
  cases a <;> simp

@[simp] theorem argHigh_cfgArg (m : BitVec 8) (a : Bool) : argHigh (cfgArg m a) = 0 := by
  apply BitVec.eq_of_toNat_eq
  have := m.isLt
  unfold argHigh; rw [toNat_extract, cfgArg_toNat]
  cases a <;> simp <;> omega

@[simp] theorem argMaxBits_cfgArg (m : BitVec 8) (a : Bool) : argMaxBits (cfgArg m a) = m := by
  apply BitVec.eq_of_toNat_eq
  have := m.isLt
  unfold argMaxBits; rw [toNat_extract, cfgArg_toNat]
  cases a <;> simp <;> omega

theorem argAdaptive_eq (x : BitVec 24) : argAdaptive x = decide (x.toNat / 256 % 2 = 1) := by
  unfold argAdaptive
  rw [BitVec.getLsbD, Nat.testBit_eq_decide_div_mod_eq]

@[simp] theorem argAdaptive_cfgArg (m : BitVec 8) (a : Bool) : argAdaptive (cfgArg m a) = a := by
  have := m.isLt
  rw [argAdaptive_eq, cfgArg_toNat]
  cases a <;> simp <;> omega

/-- An ARG of CFG whose reserved bits are 0 is its two operands put together. -/
theorem cfgArg_fields (x : BitVec 24) (h : argHigh x = 0) : cfgArg (argMaxBits x) (argAdaptive x) = x := by
  apply BitVec.eq_of_toNat_eq
  have h1 := congrArg BitVec.toNat h
  unfold argHigh at h1
  rw [toNat_extract] at h1
  have := x.isLt
  rw [cfgArg_toNat, argAdaptive_eq]
  unfold argMaxBits
  rw [toNat_extract]
  simp at h1
  by_cases hb : x.toNat / 256 % 2 = 1
  · simp [hb]; omega
  · simp [hb]; omega

/-- A listed FN is the FN of its command's word (30_encoding.md R98). -/
theorem plainCommand_decode {i : Instr} {fn : BitVec 5} (h : plainCommand fn = some i) :
    fn ≠ 0b00010#5 ∧ encode i = commandWord 0b000#3 fn 0 ∧ i.wellFormed = true := by
  unfold plainCommand at h
  repeat (split at h; (next hf => cases h; subst hf; exact ⟨by decide, rfl, rfl⟩))
  cases h

/-- The bits CFG reserves, as bits of the command word (30_encoding.md R93). -/
theorem argHigh_argOf (cw : Word) : argHigh (argOf cw) = cw.extractLsb' 9 15 := by
  apply BitVec.eq_of_toNat_eq
  unfold argHigh argOf
  rw [toNat_extract, toNat_extract, toNat_extract]
  omega

end Sys2Proof
end

