-- ==== Sys2Proof/Laws/Frame.lean ====
section
/-!
SUPPORT. What a step can do, said once: the cases of a step and of a command cycle (44_control.md R256), and the frame of every
command's body: the parts of the state that no command changes, and the two ports it only takes from or adds to
(10_state.md R37, 20_memory.md R62 to R64).
-/

namespace Sys2Proof.Machine

/-- Every state a body hands on has property `P`; a body that reads an undefined entry hands on none. -/
def Progress.Keeps (P : State → Prop) : Progress → Prop
  | .completes t => P t
  | .continues t => P t
  | .holds => True
  | .raises _ t => P t
  | .undefinedRead => True

theorem Progress.Keeps.imp {P Q : State → Prop} {r : Progress} (h : r.Keeps P) (hi : ∀ t, P t → Q t) : r.Keeps Q := by
  cases r <;> first | exact hi _ h | exact trivial

theorem runIteration_keeps {p : Phase} {r : Progress} {P : State → Prop} (h : r.Keeps P) : (runIteration p r).Keeps P := by
  cases r with
  | completes t =>
    show (if t.phase = p then Progress.continues t else .completes t).Keeps P
    split <;> exact h
  | continues t => exact h
  | holds => exact h
  | raises k t => exact h
  | undefinedRead => exact h

/-- A command that answers a next state: a property that its body, the error entry and the removal of its word keep. -/
theorem runCommand_gives {i : Instr} {body : State → Progress} {s t : State} {P : State → Prop}
    (h : runCommand i body s = .next t) (hs : P s) (hb : legalIn i s.phase = true → (body s).Keeps P)
    (he : ∀ u k cw, P u → P (errorEntry k cw u)) (hp : ∀ u, P u → P (popCq u)) : P t := by
  rcases runCommand_next h with ⟨-, rfl⟩ | ⟨hl, ⟨u, hu, rfl⟩ | hu | ⟨-, rfl⟩ | ⟨k, u, hu, rfl⟩⟩
  · exact hp _ (he _ _ _ hs)
  · have := hb hl; rw [hu] at this; exact hp _ this
  · have := hb hl; rw [hu] at this; exact this
  · exact hs
  · have := hb hl; rw [hu] at this; exact hp _ (he _ _ _ this)

/-- What a cycle can do (44_control.md R256). -/
theorem cycle_next {s t : State} (h : cycle s = .next t) :
    (s.cq = [] ∧ t = s) ∨
    (∃ cw rest e, s.cq = cw :: rest ∧ decode cw = .error e ∧ t = popCq (errorEntry .illegalCmd cw s)) ∨
    (∃ cw rest i, s.cq = cw :: rest ∧ decode cw = .ok i ∧ exec i s = .next t) := by
  unfold cycle at h
  split at h
  · next hc => cases h; exact .inl ⟨hc, rfl⟩
  · next cw rest hc =>
    split at h
    · next e he => cases h; exact .inr (.inl ⟨cw, rest, e, hc, he, rfl⟩)
    · next i hi => exact .inr (.inr ⟨cw, rest, i, hc, hi, h⟩)

/-- What a step can do: a cycle of the block, or a move of the host (log 2, 20_memory.md R69). -/
theorem step_next {s t : State} (h : step s = .next t) :
    (∃ l, (l = s.agenda ∨ s.agenda = .block :: l) ∧ cycle { s with agenda := l } = .next t) ∨
    (∃ m rest, s.agenda = .host m :: rest ∧ hostStalls m s = false ∧ hostMove m { s with agenda := rest } = .next t) := by
  unfold step takeTurn at h
  split at h
  · next ha => exact .inl ⟨s.agenda, .inl rfl, h⟩
  · next l ha => exact .inl ⟨l, .inr ha, h⟩
  · next m rest ha =>
    unfold hostTurn at h
    split at h
    · exact .inl ⟨s.agenda, .inl rfl, h⟩
    · next hs => exact .inr ⟨m, rest, ha, by simpa using hs, h⟩

/-- A step of the block is a cycle. -/
theorem step_blockTurn {s t : State} (hb : blockTurn s = true) (h : step s = .next t) :
    ∃ l, cycle { s with agenda := l } = .next t := by
  rcases step_next h with ⟨l, -, hc⟩ | ⟨m, rest, ha, -, -⟩
  · exact ⟨l, hc⟩
  · simp [blockTurn, ha] at hb

/-- What no command changes, IN from which it only takes, and OUT_LOG to which it only adds. -/
structure PortFrame (s t : State) : Prop where
  cq       : t.cq = s.cq
  inEos    : t.inEos = s.inEos
  eosOwner : t.eosOwner = s.eosOwner
  outTaken : t.outTaken = s.outTaken
  hostData : t.hostData = s.hostData
  agenda   : t.agenda = s.agenda
  params   : t.params = s.params
  inQ      : ∃ l, s.inQ = l ++ t.inQ
  outLog   : ∃ l, t.outLog = s.outLog ++ l

theorem PortFrame.refl (s : State) : PortFrame s s := ⟨rfl, rfl, rfl, rfl, rfl, rfl, rfl, ⟨[], rfl⟩, ⟨[], by simp⟩⟩

theorem PortFrame.trans {s t u : State} (h : PortFrame s t) (g : PortFrame t u) : PortFrame s u where
  cq := g.cq.trans h.cq
  inEos := g.inEos.trans h.inEos
  eosOwner := g.eosOwner.trans h.eosOwner
  outTaken := g.outTaken.trans h.outTaken
  hostData := g.hostData.trans h.hostData
  agenda := g.agenda.trans h.agenda
  params := g.params.trans h.params
  inQ := by
    obtain ⟨l, hl⟩ := h.inQ
    obtain ⟨m, hm⟩ := g.inQ
    exact ⟨l ++ m, by rw [hl, hm, List.append_assoc]⟩
  outLog := by
    obtain ⟨l, hl⟩ := h.outLog
    obtain ⟨m, hm⟩ := g.outLog
    exact ⟨l ++ m, by rw [hm, hl, List.append_assoc]⟩

theorem portFrame_writeBits (v : BitVec 24) (n : Nat) (s : State) : PortFrame s (writeBits v n s) := by
  have hf := writeBits_frame v n s
  obtain ⟨l, hl, -⟩ := writeBits_countsOutput v n s
  generalize writeBits v n s = t at *
  rw [hf]
  exact ⟨rfl, rfl, rfl, rfl, rfl, rfl, rfl, ⟨[], rfl⟩, ⟨l, hl⟩⟩

theorem portFrame_flush (s : State) : PortFrame s (flush s) := by
  have hf := flush_frame s
  obtain ⟨l, hl, -⟩ := flush_countsOutput s
  generalize flush s = t at *
  rw [hf]
  exact ⟨rfl, rfl, rfl, rfl, rfl, rfl, rfl, ⟨[], rfl⟩, ⟨l, hl⟩⟩

theorem portFrame_readBits (w : Nat) (s : State) : PortFrame s (readBits w s).2 := by
  have hf := readBits_frame w s
  obtain ⟨l, hl, -⟩ := readBits_pops w s
  generalize (readBits w s).2 = t at *
  rw [hf]
  exact ⟨rfl, rfl, rfl, rfl, rfl, rfl, rfl, ⟨l, hl⟩, ⟨[], by simp⟩⟩

theorem portFrame_inPop {b : Byte} {s t : State} (h : inPop s = some (b, t)) : PortFrame s t := by
  obtain ⟨hq, hf⟩ := inPop_frame h
  rw [hf]
  exact ⟨rfl, rfl, rfl, rfl, rfl, rfl, rfl, ⟨[b], hq⟩, ⟨[], by simp⟩⟩

theorem portFrame_outPushAll (l : Bytes) (s : State) : PortFrame s (outPushAll l s) := by
  rw [outPushAll_frame]
  exact ⟨rfl, rfl, rfl, rfl, rfl, rfl, rfl, ⟨[], rfl⟩, ⟨l, rfl⟩⟩

/-- An update of the block's own registers and dictionaries alone. -/
theorem portFrame_of_eq {s t : State} (h1 : t.cq = s.cq) (h2 : t.inEos = s.inEos) (h3 : t.outTaken = s.outTaken)
    (h4 : t.hostData = s.hostData) (h5 : t.agenda = s.agenda) (h6 : t.params = s.params) (h7 : t.inQ = s.inQ)
    (h8 : t.outLog = s.outLog) (h9 : t.eosOwner = s.eosOwner) : PortFrame s t :=
  ⟨h1, h2, h9, h3, h4, h5, h6, ⟨[], by rw [h7]; rfl⟩, ⟨[], by rw [h8]; simp⟩⟩

theorem portFrame_emitMatch (s : State) : PortFrame s (emitMatch s) :=
  (portFrame_writeBits _ _ s).trans (portFrame_of_eq rfl rfl rfl rfl rfl rfl rfl rfl rfl)

theorem encInsert_frame (b : Byte) (s : State) :
    encInsert b s = { s with
      echild := (encInsert b s).echild, nextCode := (encInsert b s).nextCode, width := (encInsert b s).width } := by
  unfold encInsert
  split
  · unfold encWiden
    split <;> rfl
  · rfl

theorem decExtend_frame (q : Bytes) (b : Byte) (s : State) :
    decExtend q b s = { s with
      dtab := (decExtend q b s).dtab, nextCode := (decExtend q b s).nextCode, width := (decExtend q b s).width } := by
  unfold decExtend
  split
  · next hu =>
    rw [dExtend, if_pos hu]
    unfold decWiden
    split <;> rfl
  · rfl

theorem portFrame_encInsert (b : Byte) (s : State) : PortFrame s (encInsert b s) := by
  rw [encInsert_frame]
  exact portFrame_of_eq rfl rfl rfl rfl rfl rfl rfl rfl rfl

theorem portFrame_decExtend (q : Bytes) (b : Byte) (s : State) : PortFrame s (decExtend q b s) := by
  rw [decExtend_frame]
  exact portFrame_of_eq rfl rfl rfl rfl rfl rfl rfl rfl rfl

theorem portFrame_setMatch (c : Code) (s : State) : PortFrame s (setMatch c s) :=
  portFrame_of_eq rfl rfl rfl rfl rfl rfl rfl rfl rfl

/-- `s` with the owner of InEOS as the command leaves it: only a START moves it on (log 9). -/
def ownerAfter (i : Instr) (s : State) : State :=
  if i = .encStart ∨ i = .decStart then { s with eosOwner := s.eosOwner.map EosOwner.atStart } else s

theorem portFrame_startCommon (s : State) :
    PortFrame { s with eosOwner := s.eosOwner.map EosOwner.atStart } (startCommon s) :=
  portFrame_of_eq rfl rfl rfl rfl rfl rfl rfl rfl rfl

theorem portFrame_setPhase (p : Phase) (s : State) : PortFrame s (setPhase p s) :=
  portFrame_of_eq rfl rfl rfl rfl rfl rfl rfl rfl rfl

theorem portFrame_takeHeader (b : Byte) (s : State) : PortFrame s (takeHeader b s) :=
  portFrame_of_eq rfl rfl rfl rfl rfl rfl rfl rfl rfl

theorem portFrame_recordRead (r : ReadResult) (s : State) : PortFrame s (recordRead r s) :=
  portFrame_of_eq rfl rfl rfl rfl rfl rfl rfl rfl rfl

theorem portFrame_encByte (b : Byte) (s : State) : PortFrame s (encByte b s) := by
  unfold encByte
  split
  · split
    · exact portFrame_setMatch _ s
    · exact ((portFrame_emitMatch s).trans (portFrame_encInsert _ _)).trans (portFrame_setMatch _ _)
  · exact portFrame_setMatch _ s

theorem portFrame_encFinish (s : State) : PortFrame s (encFinish s) := by
  have h : PortFrame s (if s.matchReg.valid then emitMatch s else s) := by
    split
    · exact portFrame_emitMatch s
    · exact .refl s
  exact (h.trans (portFrame_flush _)).trans (portFrame_setPhase _ _)

theorem portFrame_emitEntry (code : Code) (cur entry : Bytes) (s : State) : (emitEntry code cur entry s).Keeps (PortFrame s) := by
  unfold emitEntry
  split
  · exact trivial
  · exact (((portFrame_outPushAll _ s).trans (u := countCode _) (portFrame_of_eq rfl rfl rfl rfl rfl rfl rfl rfl rfl)).trans
      (portFrame_decExtend _ _ _)).trans (portFrame_setMatch _ _)

theorem portFrame_takeRead (r : ReadResult) (s : State) : (takeRead r s).Keeps (PortFrame s) := by
  unfold takeRead
  split
  · unfold takeCode
    split
    · split
      · exact trivial
      · unfold laterCode
        split
        · exact portFrame_emitEntry _ _ _ s
        · exact trivial
        · split
          · split
            · exact trivial
            · exact portFrame_emitEntry _ _ _ s
          · exact .refl s
    · unfold firstCode
      split
      · exact .refl s
      · exact (portFrame_outPushAll [_] s).trans (portFrame_of_eq rfl rfl rfl rfl rfl rfl rfl rfl rfl)
  · exact .refl s
  · exact portFrame_of_eq rfl rfl rfl rfl rfl rfl rfl rfl rfl

theorem portFrame_encStepBody (s : State) : (encStepBody s).Keeps (PortFrame s) := by
  unfold encStepBody
  split
  · next b t ht => exact (portFrame_inPop ht).trans (portFrame_encByte b t)
  · split
    · exact portFrame_encFinish s
    · exact trivial

theorem portFrame_decStepBody (s : State) : (decStepBody s).Keeps (PortFrame s) := by
  unfold decStepBody
  split
  · exact (portFrame_takeRead _ _).imp fun t ht =>
      ((portFrame_readBits s.width.toNat s).trans (portFrame_recordRead _ _)).trans ht
  · exact trivial

/-- The frame of every command. -/
theorem commandBody_portFrame (i : Instr) (s : State) : (commandBody i s).Keeps (PortFrame (ownerAfter i s)) := by
  cases i with
  | nop => exact .refl s
  | softReset => exact portFrame_of_eq rfl rfl rfl rfl rfl rfl rfl rfl rfl
  | cfg m a =>
    show (cfgBody m a s).Keeps _
    unfold cfgBody
    split
    · exact portFrame_of_eq rfl rfl rfl rfl rfl rfl rfl rfl rfl
    · exact .refl s
  | encStart =>
    show PortFrame { s with eosOwner := s.eosOwner.map EosOwner.atStart } (setPhase .encActive (writeBits _ 8 (startCommon s)))
    exact ((portFrame_startCommon s).trans (portFrame_writeBits _ 8 _)).trans (portFrame_setPhase _ _)
  | encStep => exact portFrame_encStepBody s
  | encRun => exact runIteration_keeps (portFrame_encStepBody s)
  | decStart =>
    show (decStartBody s).Keeps _
    unfold decStartBody
    split
    · dsimp only
      split
      · exact portFrame_startCommon s
      · exact ((portFrame_startCommon s).trans (portFrame_readBits 8 _)).trans (portFrame_takeHeader _ _)
    · exact trivial
  | decStep => exact portFrame_decStepBody s
  | decRun => exact runIteration_keeps (portFrame_decStepBody s)
  | bsFlush => exact portFrame_flush s
  | bsWrite w v => exact portFrame_writeBits _ _ s
  | bsRead w =>
    show (bsReadBody w s).Keeps _
    unfold bsReadBody
    split
    · exact (portFrame_readBits _ s).trans (portFrame_recordRead _ _)
    · exact trivial

/-- The error entry leaves the ports and CQ alone (60_exceptions.md R276). -/
theorem portFrame_errorEntry (k : ErrKind) (cw : Word) (s : State) : PortFrame s (errorEntry k cw s) := by
  unfold errorEntry
  split
  · exact .refl s
  · exact portFrame_of_eq rfl rfl rfl rfl rfl rfl rfl rfl rfl

/-- The owner of InEOS is as it was, or the command is a START, which moves it on. -/
def ownerMoved (i : Instr) (s t : State) : Prop :=
  t.eosOwner = s.eosOwner ∨ (i = .encStart ∨ i = .decStart) ∧ t.eosOwner = s.eosOwner.map EosOwner.atStart

theorem PortFrame.toNext {i : Instr} {s u t : State} (h : PortFrame (ownerAfter i s) u) (ht : t = { u with cq := t.cq }) :
    PortFrame { s with cq := t.cq, eosOwner := t.eosOwner } t ∧ u.cq = s.cq ∧ ownerMoved i s t := by
  unfold ownerAfter at h
  unfold ownerMoved
  split at h
  · next hi =>
    rw [ht]
    exact ⟨⟨rfl, h.inEos, rfl, h.outTaken, h.hostData, h.agenda, h.params, h.inQ, h.outLog⟩, h.cq, .inr ⟨hi, h.eosOwner⟩⟩
  · rw [ht]
    exact ⟨⟨rfl, h.inEos, rfl, h.outTaken, h.hostData, h.agenda, h.params, h.inQ, h.outLog⟩, h.cq, .inl h.eosOwner⟩

/-- What a command that answers a next state leaves: CQ or CQ without its head, the owner of InEOS as it was or moved on by a
START, and the frame of its body. -/
theorem exec_next_frame {i : Instr} {s t : State} (h : exec i s = .next t) :
    PortFrame { s with cq := t.cq, eosOwner := t.eosOwner } t ∧ (t.cq = s.cq ∨ t.cq = s.cq.tail) ∧ ownerMoved i s t := by
  rw [exec_eq] at h
  have hbf := commandBody_portFrame i s
  rcases runCommand_next h with ⟨-, rfl⟩ | ⟨hl, ⟨u, hu, rfl⟩ | hu | ⟨-, rfl⟩ | ⟨k, u, hu, rfl⟩⟩
  · have := portFrame_errorEntry .badPhase (encode i) s
    exact ⟨⟨rfl, this.inEos, rfl, this.outTaken, this.hostData, this.agenda, this.params, this.inQ, this.outLog⟩,
      .inr (by rw [popCq_cq, this.cq]), .inl this.eosOwner⟩
  · rw [hu] at hbf
    obtain ⟨h1, h2, h3⟩ := PortFrame.toNext (t := popCq u) hbf rfl
    exact ⟨h1, .inr (by rw [popCq_cq, h2]), h3⟩
  · rw [hu] at hbf
    obtain ⟨h1, h2, h3⟩ := PortFrame.toNext (t := t) hbf rfl
    exact ⟨h1, .inl h2, h3⟩
  · exact ⟨.refl _, .inl rfl, .inl rfl⟩
  · rw [hu] at hbf
    obtain ⟨h1, h2, h3⟩ := PortFrame.toNext (t := popCq (errorEntry k (encode i) u))
      (hbf.trans (portFrame_errorEntry k (encode i) u)) rfl
    exact ⟨h1, .inr (by rw [popCq_cq, h2]), h3⟩

/-- What a cycle leaves (44_control.md R256). -/
theorem cycle_next_frame {s t : State} (h : cycle s = .next t) :
    PortFrame { s with cq := t.cq, eosOwner := t.eosOwner } t ∧ (t.cq = s.cq ∨ t.cq = s.cq.tail) ∧
      (t.eosOwner = s.eosOwner ∨
        ∃ cw rest i, s.cq = cw :: rest ∧ decode cw = .ok i ∧ ownerMoved i s t) := by
  rcases cycle_next h with ⟨-, rfl⟩ | ⟨cw, rest, e, -, -, rfl⟩ | ⟨cw, rest, i, hcq, hd, he⟩
  · exact ⟨.refl _, .inl rfl, .inl rfl⟩
  · have := portFrame_errorEntry .illegalCmd cw s
    exact ⟨⟨rfl, this.inEos, rfl, this.outTaken, this.hostData, this.agenda, this.params, this.inQ, this.outLog⟩,
      .inr (by rw [popCq_cq, this.cq]), .inl this.eosOwner⟩
  · obtain ⟨h1, h2, h3⟩ := exec_next_frame he
    exact ⟨h1, h2, .inr ⟨cw, rest, i, hcq, hd, h3⟩⟩

theorem encByte_phase (b : Byte) (s : State) : (encByte b s).phase = s.phase := by
  unfold encByte
  split
  · split
    · rfl
    · rw [setMatch_phase, encInsert_frame, emitMatch_frame]
  · rfl

theorem writtenBits_encInsert (b : Byte) (u : State) : writtenBits (encInsert b u) = writtenBits u := by
  rw [encInsert_frame]; rfl

/-- The phases in which DEC_STEP leaves a pass, before an error entry (43_decode.md R225). -/
theorem decStepBody_phase (s : State) (hp : s.phase = .decActive) :
    (decStepBody s).Keeps (fun t => t.phase = .decActive ∨ t.phase = .decDone) := by
  unfold decStepBody
  split
  swap
  · exact trivial
  dsimp only
  have hph : (recordRead (readBits s.width.toNat s).1 (readBits s.width.toNat s).2).phase = .decActive := by
    rw [recordRead_phase, readBits_frame]; exact hp
  generalize recordRead (readBits s.width.toNat s).1 (readBits s.width.toNat s).2 = u at *
  have hem : ∀ c cur e, (emitEntry c cur e u).Keeps (fun t => t.phase = .decActive ∨ t.phase = .decDone) := by
    intro c cur e
    unfold emitEntry
    split
    · exact trivial
    · left
      rw [setMatch_phase, decExtend_frame, countCode_phase, outPushAll_frame]; exact hph
  unfold takeRead
  split
  · unfold takeCode
    split
    · split
      · exact trivial
      · unfold laterCode
        split
        · exact hem _ _ _
        · exact trivial
        · split
          · split
            · exact trivial
            · exact hem _ _ _
          · exact .inl hph
    · unfold firstCode
      split
      · exact .inl hph
      · exact .inl hph
  · exact .inl hph
  · exact .inr rfl

theorem decStepBody_ne_continues (s : State) : ∀ t, decStepBody s ≠ .continues t := by
  intro t
  have hem : ∀ c cur e u, emitEntry c cur e u ≠ .continues t := by
    intro c cur e u; unfold emitEntry; split <;> simp
  unfold decStepBody
  split
  · dsimp only
    unfold takeRead
    split
    · unfold takeCode
      split
      · split
        · simp
        · unfold laterCode
          split
          · exact hem _ _ _ _
          · simp
          · split
            · split
              · simp
              · exact hem _ _ _ _
            · simp
      · unfold firstCode
        split <;> simp
    · simp
    · simp
  · simp

theorem decStepBody_ne_holds (s : State) (h : readEnabled s.width.toNat s = true) : decStepBody s ≠ .holds := by
  have hem : ∀ c cur e u, emitEntry c cur e u ≠ .holds := by
    intro c cur e u; unfold emitEntry; split <;> simp
  unfold decStepBody
  rw [if_pos h]
  dsimp only
  unfold takeRead
  split
  · unfold takeCode
    split
    · split
      · simp
      · unfold laterCode
        split
        · exact hem _ _ _ _
        · simp
        · split
          · split
            · simp
            · exact hem _ _ _ _
          · simp
    · unfold firstCode
      split <;> simp
  · simp
  · simp

/-- DEC_STEP raises from within the pass. -/
theorem decStepBody_raises (s : State) (hp : s.phase = .decActive) {k t} (h : decStepBody s = .raises k t) : t.phase = .decActive := by
  have hem : ∀ c cur e u, emitEntry c cur e u ≠ .raises k t := by
    intro c cur e u; unfold emitEntry; split <;> simp
  unfold decStepBody at h
  split at h
  swap
  · cases h
  dsimp only at h
  have hph : (recordRead (readBits s.width.toNat s).1 (readBits s.width.toNat s).2).phase = .decActive := by
    rw [recordRead_phase, readBits_frame]; exact hp
  generalize recordRead (readBits s.width.toNat s).1 (readBits s.width.toNat s).2 = u at *
  unfold takeRead at h
  split at h
  · unfold takeCode at h
    split at h
    · split at h
      · cases h
      · unfold laterCode at h
        split at h
        · exact absurd h (hem _ _ _ _)
        · cases h
        · split at h
          · split at h
            · cases h
            · exact absurd h (hem _ _ _ _)
          · cases h; exact hph
    · unfold firstCode at h
      split at h
      · cases h; exact hph
      · cases h
  · cases h; exact hph
  · cases h

/-- After the error entry the phase is ERROR (60_exceptions.md R276). -/
theorem errorEntry_phase (k : ErrKind) (cw : Word) (s : State) : (errorEntry k cw s).phase = .error := by
  unfold errorEntry; split
  · assumption
  · rfl

/-- ENC_STEP stays in the pass or, at the end of input, ends it (42_encode.md R191). -/
theorem encStepBody_phase (s : State) (hp : s.phase = .encActive) :
    (encStepBody s).Keeps (fun t => t.phase = .encActive ∨ (t.phase = .encDone ∧ s.inQ = [] ∧ s.inEos = true)) := by
  unfold encStepBody
  split
  · next b t ht =>
    left; rw [encByte_phase, (inPop_frame ht).2]; exact hp
  · next hn =>
    split
    · next he =>
      right
      refine ⟨rfl, ?_, he⟩
      unfold inPop at hn; split at hn
      · assumption
      · cases hn
    · exact trivial

/-- The encode pipeline raises no error (60_exceptions.md R271). -/
theorem encStepBody_ne_raises (s : State) (k t) : encStepBody s ≠ .raises k t := by
  unfold encStepBody; split
  · simp
  · split <;> simp

/-- DEC_STEP ends the pass only at a code boundary, at the end of input (43_decode.md R221, R226). -/
theorem decStepBody_done {s t : State} (ht : decStepBody s = .completes t) (hp : s.phase = .decActive)
    (hd : t.phase = .decDone) : s.inQ = [] ∧ s.inEos = true ∧ s.rCnt.toNat < s.width.toNat := by
  by_cases h : s.width.toNat ≤ s.rCnt.toNat + 8 * s.inQ.length
  · exfalso
    -- with enough bits the read is OK
    have hok : ∃ v, (readBits s.width.toNat s).1 = .ok v := by
      have hn : ∀ n v f (u : State), n ≤ (unreadBits u).length → ∃ x, (readLoop n v f u).1 = .ok x := by
        intro n
        induction n with
        | zero => intro v f u _; exact ⟨v, rfl⟩
        | succ n ih =>
          intro v f u hu
          rw [readLoop]
          split
          · next hb => rw [(readBit_none hb).1] at hu; simp at hu
          · next b g w hb => exact ih _ _ _ (by rw [(readBit_some hb).1] at hu; simpa using hu)
      exact hn _ _ _ _ (by rw [length_unreadBits]; exact h)
    obtain ⟨v, hv⟩ := hok
    unfold decStepBody at ht
    rw [if_pos ((readEnabled_iff _ _).mpr (.inl h))] at ht
    dsimp only at ht
    rw [hv] at ht
    have hph : (recordRead (.ok v) (readBits s.width.toNat s).2).phase = .decActive := by
      rw [recordRead_phase, readBits_frame]; exact hp
    generalize recordRead (.ok v) (readBits s.width.toNat s).2 = u at *
    have hem : ∀ c cur e, emitEntry c cur e u = .completes t → t.phase = .decActive := by
      intro c cur e he
      unfold emitEntry at he
      split at he
      · cases he
      · cases he; rw [setMatch_phase, decExtend_frame, countCode_phase, outPushAll_frame]; exact hph
    have : t.phase = .decActive := by
      unfold takeRead takeCode at ht
      dsimp only at ht
      split at ht
      · split at ht
        · cases ht
        · unfold laterCode at ht
          split at ht
          · exact hem _ _ _ ht
          · cases ht
          · split at ht
            · split at ht
              · cases ht
              · exact hem _ _ _ ht
            · cases ht
      · unfold firstCode at ht
        split at ht
        · cases ht
        · cases ht; exact hph
    rw [this] at hd; cases hd
  · have hlt : bitsAvail s < s.width.toNat := by unfold bitsAvail inAvail; omega
    unfold decStepBody at ht
    split at ht
    · next he =>
      have he' : s.inEos = true := by
        rcases (readEnabled_iff _ _).mp he with h' | h'
        · exact absurd h' h
        · exact h'
      dsimp only at ht
      rw [(readBits_nodata _ s hlt).1] at ht
      cases hq : s.inQ with
      | nil => rw [hq] at h; simp at h; exact ⟨rfl, he', by omega⟩
      | cons b l => rw [hq] at ht; cases ht
    · cases ht

end Sys2Proof.Machine
end

