-- ==== Sys2Proof/Laws/Growth.lean ====
section
/-!
SUPPORT. What a pass does to the dictionaries, said once: NEXT_CODE never falls and a binding never changes (10_state.md R30,
41_dictionaries.md R165, R180); and that only CFG and SOFT_RESET write CONFIG (10_state.md R32).
-/

namespace Sys2Proof.Machine

/-- NEXT_CODE does not fall and no binding changes (41_dictionaries.md R165, R180). -/
structure Grows (s t : State) : Prop where
  next : s.nextCode.toNat ≤ t.nextCode.toNat
  trie : ∀ p b c, eChild p b s = some c → eChild p b t = some c
  table : ∀ c q, dtabAt s.dtab c = some q → dtabAt t.dtab c = some q

theorem Grows.refl (s : State) : Grows s s := ⟨le_rfl, fun _ _ _ h => h, fun _ _ h => h⟩

theorem Grows.trans {s t u : State} (h : Grows s t) (g : Grows t u) : Grows s u :=
  ⟨le_trans h.next g.next, fun p b c x => g.trie p b c (h.trie p b c x), fun c q x => g.table c q (h.table c q x)⟩

theorem Grows.of_eq {s t : State} (h1 : t.nextCode = s.nextCode) (h2 : t.echild = s.echild)
    (h3 : t.dtab = s.dtab) : Grows s t :=
  ⟨by rw [h1], fun p b c x => by rw [eChild, h2]; exact x, fun c q x => by rw [h3]; exact x⟩

theorem grows_errorEntry (k : ErrKind) (cw : Word) (s : State) : Grows s (errorEntry k cw s) := by
  unfold errorEntry; split
  · exact .refl s
  · exact .of_eq rfl rfl rfl

theorem grows_writeBits (v : BitVec 24) (n : Nat) (s : State) : Grows s (writeBits v n s) := by
  have hf := writeBits_frame v n s
  generalize writeBits v n s = t at *
  rw [hf]; exact .of_eq rfl rfl rfl

theorem grows_flush (s : State) : Grows s (flush s) := by
  have hf := flush_frame s
  generalize flush s = t at *
  rw [hf]; exact .of_eq rfl rfl rfl

theorem grows_readBits (w : Nat) (s : State) : Grows s (readBits w s).2 := by
  have hf := readBits_frame w s
  generalize (readBits w s).2 = t at *
  rw [hf]; exact .of_eq rfl rfl rfl

theorem grows_recordRead (r : ReadResult) (s : State) : Grows s (recordRead r s) := .of_eq rfl rfl rfl

theorem grows_emitMatch (s : State) : Grows s (emitMatch s) := (grows_writeBits _ _ s).trans (.of_eq rfl rfl rfl)

theorem grows_encWiden (s : State) : Grows s (encWiden s) := by
  unfold encWiden; split
  · exact .of_eq rfl rfl rfl
  · exact .refl s

theorem grows_decWiden (s : State) : Grows s (decWiden s) := by
  unfold decWiden; split
  · exact .of_eq rfl rfl rfl
  · exact .refl s

theorem grows_encInsert {s : State} (h : s.Inv) (b : Byte) (hnone : eChild s.matchReg.code b s = none) : Grows s (encInsert b s) := by
  unfold encInsert
  split
  · next hu =>
    rw [unsaturated_iff] at hu
    have h1 := h.codeLimit_le
    have h2 := h.limit_le
    have hg : Grows s (eInsertChild s.matchReg.code b s) := by
      refine ⟨?_, ?_, fun _ _ x => x⟩
      · rw [eInsertChild_nextCode, nextCode_succ s (by omega)]; omega
      · intro p c x hx
        rw [eChild_eInsertChild, if_neg]
        · exact hx
        · rintro ⟨rfl, rfl⟩; rw [hnone] at hx; cases hx
    exact hg.trans (grows_encWiden _)
  · exact .refl s

theorem grows_decExtend {s : State} (h : s.Inv) (hp : s.phase = .decActive) (q : Bytes) (b : Byte) : Grows s (decExtend q b s) := by
  unfold decExtend
  split
  · next hu =>
    refine Grows.trans ?_ (grows_decWiden _)
    rw [dExtend, if_pos hu]
    rw [unsaturated_iff] at hu
    have h1 := h.codeLimit_le
    have h2 := h.limit_le
    refine ⟨?_, fun _ _ _ x => x, ?_⟩
    · show s.nextCode.toNat ≤ (s.nextCode + 1).toNat
      rw [nextCode_succ s (by omega)]; omega
    · intro c r hr
      have hlt := ((h.table hp).defined c).mp ⟨r, hr⟩
      show dtabAt (dtabPut s.dtab s.nextCode.toNat (q ++ [b])) c = some r
      rw [dtabAt_dtabPut _ _ _ _ h.nextCode.1, if_neg (by omega)]; exact hr
  · exact .refl s

theorem grows_encStepBody {s : State} (h : s.Inv) : (encStepBody s).Keeps (Grows s) := by
  unfold encStepBody
  split
  · next b t ht =>
    have h1 := h.inPop ht
    have hg : Grows s t := by rw [(inPop_frame ht).2]; exact .of_eq rfl rfl rfl
    refine hg.trans ?_
    unfold encByte
    split
    · split
      · exact .of_eq rfl rfl rfl
      · next hc =>
        refine ((grows_emitMatch t).trans (grows_encInsert h1.emitMatch b ?_)).trans (.of_eq rfl rfl rfl)
        rw [emitMatch_frame]; exact hc
    · exact .of_eq rfl rfl rfl
  · split
    · have h : Grows s (if s.matchReg.valid then emitMatch s else s) := by
        split
        · exact grows_emitMatch s
        · exact .refl s
      exact (h.trans (grows_flush _)).trans (.of_eq rfl rfl rfl)
    · exact trivial

theorem grows_takeRead {s : State} (h : s.Inv) (hp : s.phase = .decActive) (r : ReadResult) : (takeRead r s).Keeps (Grows s) := by
  have hem : ∀ c cur e, (emitEntry c cur e s).Keeps (Grows s) := by
    intro c cur e
    unfold emitEntry
    split
    · exact trivial
    · next x l =>
      have h1 := (h.outPushAll (x :: l)).countCode
      have hg : Grows s (countCode (outPushAll (x :: l) s)) := by
        rw [outPushAll_frame]; exact .of_eq rfl rfl rfl
      refine (hg.trans (grows_decExtend h1 ?_ _ _)).trans (.of_eq rfl rfl rfl)
      rw [countCode_phase, outPushAll_frame]; exact hp
  unfold takeRead
  split
  · unfold takeCode
    split
    · split
      · exact trivial
      · unfold laterCode
        split
        · exact hem _ _ _
        · exact trivial
        · split
          · split
            · exact trivial
            · exact hem _ _ _
          · exact .refl s
    · unfold firstCode
      split
      · exact .refl s
      · exact .of_eq rfl rfl rfl
  · exact .refl s
  · exact .of_eq rfl rfl rfl

theorem grows_decStepBody {s : State} (h : s.Inv) (hp : s.phase = .decActive) : (decStepBody s).Keeps (Grows s) := by
  unfold decStepBody
  split
  · have h1 := (h.readBits s.width.toNat).recordRead (readBits s.width.toNat s).1
    refine (grows_takeRead h1 (by rw [recordRead_phase, readBits_frame]; exact hp) _).imp fun t ht => ?_
    exact ((grows_readBits s.width.toNat s).trans (grows_recordRead _ _)).trans ht
  · exact trivial

/-- Every command but the three that empty the dictionaries only adds to them. -/
theorem commandBody_grows {s : State} (h : s.Inv) (i : Instr) (hl : legalIn i s.phase = true)
    (h1 : i ≠ .softReset) (h2 : i ≠ .encStart) (h3 : i ≠ .decStart) : (commandBody i s).Keeps (Grows s) := by
  cases i with
  | nop => exact .refl s
  | softReset => exact absurd rfl h1
  | cfg m a =>
    show (cfgBody m a s).Keeps _
    unfold cfgBody
    split
    · exact .of_eq rfl rfl rfl
    · exact .refl s
  | encStart => exact absurd rfl h2
  | encStep => exact grows_encStepBody h
  | encRun => exact runIteration_keeps (grows_encStepBody h)
  | decStart => exact absurd rfl h3
  | decStep => exact grows_decStepBody h (by simpa [legalIn] using hl)
  | decRun => exact runIteration_keeps (grows_decStepBody h (by simpa [legalIn] using hl))
  | bsFlush => exact grows_flush s
  | bsWrite w v => exact grows_writeBits _ _ s
  | bsRead w =>
    show (bsReadBody w s).Keeps _
    unfold bsReadBody
    split
    · exact (grows_readBits _ s).trans (.of_eq rfl rfl rfl)
    · exact trivial

/-- A command that answers a next state only adds to the dictionaries, but for the three that empty them. -/
theorem exec_grows {s t : State} (h : s.Inv) {i : Instr} (he : exec i s = .next t) (h1 : i ≠ .softReset) (h2 : i ≠ .encStart) (h3 : i ≠ .decStart) : Grows s t := by
  rw [exec_eq] at he
  exact runCommand_gives he (.refl s) (fun hl => commandBody_grows h i hl h1 h2 h3)
    (fun u k cw hu => hu.trans (grows_errorEntry k cw u)) (fun u hu => hu.trans (.of_eq rfl rfl rfl))
/-! CONFIG is written by CFG and SOFT_RESET alone (10_state.md R32). -/

/-- CONFIG is the same in both. -/
abbrev sameConfig (s t : State) : Prop := t.config = s.config

theorem writeBits_config (v : BitVec 24) (n : Nat) (s : State) : (writeBits v n s).config = s.config := by
  rw [writeBits_frame]

theorem flush_config (s : State) : (flush s).config = s.config := by rw [flush_frame]

theorem readBits_config (w : Nat) (s : State) : (readBits w s).2.config = s.config := by rw [readBits_frame]

theorem emitMatch_config (s : State) : (emitMatch s).config = s.config := by rw [emitMatch_frame]

theorem encByte_config (b : Byte) (s : State) : (encByte b s).config = s.config := by
  unfold encByte
  split
  · split
    · rfl
    · rw [setMatch_config, encInsert_frame]; exact emitMatch_config s
  · rfl

theorem encFinish_config (s : State) : (encFinish s).config = s.config := by
  unfold encFinish
  rw [setPhase_config, flush_config]
  split
  · exact emitMatch_config s
  · rfl

theorem encStepBody_config (s : State) : (encStepBody s).Keeps (sameConfig s) := by
  unfold encStepBody
  split
  · next b t ht =>
    have : t.config = s.config := by rw [(inPop_frame ht).2]
    exact (encByte_config b t).trans this
  · split
    · exact encFinish_config s
    · exact trivial

theorem emitEntry_config (code : Code) (cur entry : Bytes) (s : State) :
    (emitEntry code cur entry s).Keeps (sameConfig s) := by
  unfold emitEntry
  split
  · exact trivial
  · show (decExtend _ _ (countCode (outPushAll _ s))).config = s.config
    rw [decExtend_frame, outPushAll_frame]; rfl

theorem takeRead_config (r : ReadResult) (s : State) : (takeRead r s).Keeps (sameConfig s) := by
  unfold takeRead
  split
  · unfold takeCode
    split
    · split
      · exact trivial
      · unfold laterCode
        split
        · exact emitEntry_config _ _ _ s
        · exact trivial
        · split
          · split
            · exact trivial
            · exact emitEntry_config _ _ _ s
          · exact rfl
    · unfold firstCode
      split <;> exact rfl
  · exact rfl
  · exact rfl

theorem decStepBody_config (s : State) : (decStepBody s).Keeps (sameConfig s) := by
  unfold decStepBody
  split
  · exact (takeRead_config _ _).imp fun t ht => ht.trans (readBits_config _ s)
  · exact trivial

/-- No command but CFG and SOFT_RESET writes CONFIG. -/
theorem commandBody_config (i : Instr) (s : State) (h1 : i ≠ .softReset) (h2 : ∀ m a, i ≠ .cfg m a) :
    (commandBody i s).Keeps (sameConfig s) := by
  cases i with
  | nop => exact rfl
  | softReset => exact absurd rfl h1
  | cfg m a => exact absurd rfl (h2 m a)
  | encStart =>
    show (setPhase .encActive (writeBits _ 8 (startCommon s))).config = s.config
    rw [setPhase_config, writeBits_config]; rfl
  | encStep => exact encStepBody_config s
  | encRun => exact runIteration_keeps (encStepBody_config s)
  | decStart =>
    show (decStartBody s).Keeps _
    unfold decStartBody
    split
    · dsimp only
      split
      · exact rfl
      · show (takeHeader _ (readBits 8 (startCommon s)).2).config = s.config
        rw [takeHeader_config, readBits_config]; rfl
    · exact trivial
  | decStep => exact decStepBody_config s
  | decRun => exact runIteration_keeps (decStepBody_config s)
  | bsFlush => exact flush_config s
  | bsWrite w v => exact writeBits_config _ _ s
  | bsRead w =>
    show (bsReadBody w s).Keeps _
    unfold bsReadBody
    split
    · exact readBits_config _ s
    · exact trivial

theorem errorEntry_config (k : ErrKind) (cw : Word) (s : State) : (errorEntry k cw s).config = s.config := by
  unfold errorEntry
  split <;> rfl

theorem exec_config {i : Instr} {s t : State} (h : exec i s = .next t) (h1 : i ≠ .softReset) (h2 : ∀ m a, i ≠ .cfg m a) :
    t.config = s.config := by
  rw [exec_eq] at h
  exact runCommand_gives (P := sameConfig s) h rfl (fun _ => commandBody_config i s h1 h2)
    (fun u k cw hu => (errorEntry_config k cw u).trans hu) (fun _ hu => hu)

end Sys2Proof.Machine
end

