-- ==== Sys2Proof/Laws/PerInstr.lean ====
section
/-!
SUPPORT. The family TableRow, one lemma for each command: the word of the command holds the fixed bits of its row of
spec/opcode_table.json, with every value of its operands.
-/

namespace Sys2Proof.Laws.TableRow

open Sys2Proof

/-- A fixed field of a row: bits `hi` down to `lo` hold `value`. -/
structure FixedField where
  hi    : Nat
  lo    : Nat
  value : Nat
  deriving DecidableEq, Repr

/-- The fixed fields that spec/opcode_table.json gives each command's row. -/
def fixedFields : Instr → List FixedField
  | .nop => [⟨31, 0, 0⟩]
  | .softReset => [⟨31, 0, 16777216⟩]
  | .cfg _ _ => [⟨31, 9, 65536⟩]
  | .encStart => [⟨31, 0, 67108864⟩]
  | .encStep => [⟨31, 0, 83886080⟩]
  | .encRun => [⟨31, 0, 100663296⟩]
  | .decStart => [⟨31, 0, 134217728⟩]
  | .decStep => [⟨31, 0, 150994944⟩]
  | .decRun => [⟨31, 0, 167772160⟩]
  | .bsFlush => [⟨31, 0, 268435456⟩]
  | .bsWrite _ _ => [⟨31, 29, 1⟩]
  | .bsRead _ => [⟨23, 0, 0⟩, ⟨31, 29, 2⟩]

/-- The command's word holds every fixed field of its row. -/
def Statement (i : Instr) : Prop :=
  ∀ f ∈ fixedFields i, (encode i).toNat / 2 ^ f.lo % 2 ^ (f.hi + 1 - f.lo) = f.value

theorem nop : Statement .nop := by unfold Statement; decide

theorem softReset : Statement .softReset := by unfold Statement; decide

theorem cfg (m : BitVec 8) (a : Bool) : Statement (.cfg m a) := by
  intro f hf
  obtain rfl := List.mem_singleton.mp hf
  have := m.isLt
  have ha : a.toNat ≤ 1 := Bool.toNat_le a
  rw [encode, commandWord_toNat, cfgArg_toNat]
  simp only [BitVec.toNat_ofNat]
  omega

theorem encStart : Statement .encStart := by unfold Statement; decide

theorem encStep : Statement .encStep := by unfold Statement; decide

theorem encRun : Statement .encRun := by unfold Statement; decide

theorem decStart : Statement .decStart := by unfold Statement; decide

theorem decStep : Statement .decStep := by unfold Statement; decide

theorem decRun : Statement .decRun := by unfold Statement; decide

theorem bsFlush : Statement .bsFlush := by unfold Statement; decide

theorem bsWrite (w : BitVec 5) (v : BitVec 24) : Statement (.bsWrite w v) := by
  intro f hf
  obtain rfl := List.mem_singleton.mp hf
  have := w.isLt
  have := v.isLt
  rw [encode, commandWord_toNat]
  simp only [BitVec.toNat_ofNat]
  omega

theorem bsRead (w : BitVec 5) : Statement (.bsRead w) := by
  intro f hf
  have := w.isLt
  rw [encode, commandWord_toNat]
  have z : (0 : BitVec 24).toNat = 0 := rfl
  rw [z]
  simp only [fixedFields, List.mem_cons, List.not_mem_nil, or_false] at hf
  rcases hf with rfl | rfl
  · simp only [BitVec.toNat_ofNat]; omega
  · simp only [BitVec.toNat_ofNat]; omega

end Sys2Proof.Laws.TableRow
end

