-- ==== Sys2Proof/Laws/Sequences.lean ====
section
/-!
SUPPORT. The sequence of a code as a relation over the trie's entries (10_state.md R39): it is kept when entries are added, and a
code has at most one.
-/

namespace Sys2Proof.Machine

/-- `Bound d c q`: the entries of the trie bind code `c` to the sequence `q` (10_state.md R39). -/
inductive Bound (d : Dict Code) : Code → Bytes → Prop where
  | single (b : Byte) : Bound d (singleton b) [b]
  | ext {p c : Code} {q : Bytes} {b : Byte} (h : Bound d p q) (hf : d.find (trieKey p b) = some c) : Bound d c (q ++ [b])

theorem Bound.ne_nil {d : Dict Code} {c : Code} {q : Bytes} (h : Bound d c q) : q ≠ [] := by
  cases h <;> simp

/-- More entries keep what is bound. -/
theorem Bound.mono {d e : Dict Code} (hde : ∀ k c, d.find k = some c → e.find k = some c) {c : Code} {q : Bytes}
    (h : Bound d c q) : Bound e c q := by
  induction h with
  | single b => exact .single b
  | ext _ hf ih => exact .ext ih (hde _ _ hf)

/-- A code has one sequence (41_dictionaries.md R165). -/
theorem Bound.unique {d : Dict Code} {n : Nat} (hd : TrieInv d n) {c : Code} {q r : Bytes} (h : Bound d c q) (g : Bound d c r) :
    q = r := by
  induction h generalizing r with
  | single b =>
    generalize hc : singleton b = c at g
    cases g with
    | single b' =>
      have : b.toNat = b'.toNat := by rw [← singleton_toNat, ← singleton_toNat, hc]
      rw [BitVec.eq_of_toNat_eq this]
    | ext hg hf =>
      have := (hd.entry _ _ hf).2.1
      rw [← hc, singleton_toNat] at this
      have := b.isLt
      simp only [Config.nSingle] at *
      omega
  | @ext p c q b _ hf ih =>
    cases g with
    | single b' =>
      have := (hd.entry _ _ hf).2.1
      rw [singleton_toNat] at this
      have := b'.isLt
      simp only [Config.nSingle] at *
      omega
    | @ext p' _ q' b'' hg hf' =>
      obtain ⟨rfl, rfl⟩ := trieKey_inj (hd.single _ _ _ hf hf')
      rw [ih hg]

end Sys2Proof.Machine
end

