-- ==== Sys2Proof/Laws/Window.lean ====
section
/-!
SUPPORT. The words of the register window as numbers, one field above the other (10_state.md R42 to R48).
-/

namespace Sys2Proof.Machine

theorem getLsbD_eq {n : Nat} (x : BitVec n) (i : Nat) : x.getLsbD i = decide (x.toNat / 2 ^ i % 2 = 1) := by
  rw [BitVec.getLsbD, Nat.testBit_eq_decide_div_mod_eq]
theorem ofBool_toNat_le (b : Bool) : (BitVec.ofBool b).toNat ≤ 1 := by cases b <;> decide
theorem ofBool_dec (b : Bool) : decide ((BitVec.ofBool b).toNat = 1) = b := by cases b <;> rfl

theorem statusWord_toNat (s : State) : (statusWord s).toNat = (BitVec.ofBool s.matchReg.valid).toNat * 2 ^ 23 +
    s.rCnt.toNat * 2 ^ 20 + s.wCnt.toNat * 2 ^ 16 + s.width.toNat * 2 ^ 8 + (errBits s.err).toNat * 2 ^ 4 +
    (BitVec.ofBool (busy s)).toNat * 2 ^ 3 + s.phase.bits.toNat := by
  simp only [statusWord, toNat_append_add]
  have := s.phase.bits.isLt
  rw [show (0#8).toNat = 0 from rfl, show (0#1).toNat = 0 from rfl, show (0#3).toNat = 0 from rfl]
  omega

theorem configWord_toNat (s : State) :
    (configWord s).toNat = (BitVec.ofBool s.config.adaptive).toNat * 2 ^ 8 + s.config.maxBits.toNat := by
  simp only [configWord, toNat_append_add]; rw [show (0#23).toNat = 0 from rfl]; omega

theorem hdrWord_toNat (s : State) :
    (hdrWord s).toNat = (BitVec.ofBool s.hdr.valid).toNat * 2 ^ 8 + s.hdr.byte.toNat := by
  simp only [hdrWord, toNat_append_add]; rw [show (0#23).toNat = 0 from rfl]; omega

theorem nextCodeWord_toNat (s : State) : (nextCodeWord s).toNat = s.nextCode.toNat := by
  simp only [nextCodeWord, toNat_append_add]; rw [show (0#7).toNat = 0 from rfl]; omega

theorem matchWord_toNat (s : State) :
    (matchWord s).toNat = (BitVec.ofBool s.matchReg.valid).toNat * 2 ^ 31 + s.matchReg.code.toNat := by
  simp only [matchWord, toNat_append_add]; rw [show (0#7).toNat = 0 from rfl]; omega

theorem resultWord_toNat (s : State) :
    (resultWord s).toNat = (BitVec.ofBool s.result.midcode).toNat * 2 ^ 26 +
      (BitVec.ofBool s.result.nodata).toNat * 2 ^ 25 + (BitVec.ofBool s.result.valid).toNat * 2 ^ 24 +
      s.result.value.toNat := by
  simp only [resultWord, toNat_append_add]; rw [show (0#5).toNat = 0 from rfl]; omega

end Sys2Proof.Machine
end

