-- ==== Sys2Proof/Tests/Slice0.lean ====
section
/-!
SUPPORT. Tests of one step each, with results taken from the spec, and for every obligation with hypotheses a witness that meets
them, at the boundary of each clause.
-/

namespace Sys2Proof.Tests
set_option Elab.async false  -- one theorem after another: many kernel evaluations at once take a thread each

open Sys2Proof Sys2Proof.Machine Sys2Proof.Claims

/-! Well-formedness and decoding. The words are written out from 30_encoding.md R92 to R98. -/

/-- 30_encoding.md R100 item 5: a width above 24 has no encoding. -/
theorem test_wellFormed_width : (Instr.bsWrite 25 0).wellFormed = false ∧ (Instr.bsRead 25).wellFormed = false ∧
    (Instr.bsWrite 31 0).wellFormed = false ∧ (Instr.bsWrite 24 0).wellFormed = true ∧ (Instr.bsRead 24).wellFormed = true := by
  decide

theorem test_decode_control :
    decode 0b00000000000000000000000000000000 = .ok .nop ∧
    decode 0b00000001000000000000000000000000 = .ok .softReset ∧
    decode 0b00000010000000000000000100011000 = .ok (.cfg 24 true) := by decide

theorem test_decode_encode_pass :
    decode 0b00000100000000000000000000000000 = .ok .encStart ∧
    decode 0b00000101000000000000000000000000 = .ok .encStep ∧
    decode 0b00000110000000000000000000000000 = .ok .encRun := by decide

theorem test_decode_decode_pass :
    decode 0b00001000000000000000000000000000 = .ok .decStart ∧
    decode 0b00001001000000000000000000000000 = .ok .decStep ∧
    decode 0b00001010000000000000000000000000 = .ok .decRun := by decide

theorem test_decode_bitstream :
    decode 0b00010000000000000000000000000000 = .ok .bsFlush ∧
    decode 0b00101001000000000000000111111111 = .ok (.bsWrite 9 0x1FF) ∧
    decode 0b01000011000000000000000000000000 = .ok (.bsRead 3) := by decide

theorem test_decode_rejects :
    decode 0b01100000000000000000000000000000 = .error .reservedOpc ∧
    decode 0b00000111000000000000000000000000 = .error .reservedFn ∧
    decode 0b00000010000000000000001000001100 = .error .cfgReservedBits ∧
    decode 0b00000000000000000000000000000001 = .error .argNotZero ∧
    decode 0b00111001000000000000000000000000 = .error .widthTooLarge ∧
    decode 0b01011001000000000000000000000000 = .error .widthTooLarge ∧
    decode 0b01000011000000000000000000000001 = .error .readArgNotZero := by decide

theorem test_decodeTableWord : decodeTableWord 32 0x05000000 = some .encStep ∧ decodeTableWord 32 0x39000000 = none := by
  decide

/-- 30_encoding.md R101 to R103. -/
theorem test_assembler :
    assembleLine ['B','S','_','W','R','I','T','E',' ','3',',',' ','0','b','1','0','1'] = some [.writeReg 32 0 0x23000005] ∧
    assembleLine ['C','O','M','P','R','E','S','S',' ','1','2',',','0'] =
      some [.writeReg 32 0 0x0200000C, .writeReg 32 0 0x04000000, .writeReg 32 0 0x06000000] ∧
    assembleLine ['B','S','_','R','E','A','D',' ','2','5'] = none := by decide

/-! States of small runs. -/

/-- What a state shows after a step, if there is one. -/
def seen {α : Type} (f : State → α) (o : Host.Outcome State Fault Refusal) : Option α := (nextState o).map f

/-- The word of `i` alone on CQ. -/
def queue (i : Instr) (s : State) : State := { s with cq := [encode i] }

/-- `l` on IN, InEOS as given. -/
def input (l : Bytes) (eos : Bool) (s : State) : State :=
  { s with inQ := l, inEos := eos, eosOwner := if eos then some (if s.phase.inPass then .thisPass else .nextPass) else none }

/-- Three bits 101 pending in the writer (after `BS_WRITE 3, 0b101`). -/
def pending3 : State := { State.reset with wAcc := 5, wCnt := 3 }

/-- In ERROR after the word 0xE0000000. -/
def failed : State := { State.reset with phase := .error, err := some .illegalCmd, errcmd := 0xE0000000 }

/-- A fresh encode pass with CONFIG 12, fixed. -/
def enc0 : State := { State.reset with phase := .encActive, width := 12, outLog := [0x0C], cntOut := 1 }

/-- An encode pass with `n` entries in the trie, the match 'A', and CONFIG (m, a), at width w. -/
def encN (n m w : Nat) (a : Bool) : State :=
  { State.reset with
    phase := .encActive, width := BitVec.ofNat 5 w, config := { maxBits := BitVec.ofNat 8 m, adaptive := a },
    nextCode := BitVec.ofNat 25 (256 + n), matchReg := { valid := true, code := 65 },
    echild := (List.range n).map (fun i => (i * 256, BitVec.ofNat 24 (256 + i))) }

/-- A fresh decode pass with CONFIG 12, fixed. -/
def dec0 : State := { State.reset with phase := .decActive, width := 12, hdr := { byte := 0x0C, valid := true }, rBuf := 0x0C, cntIn := 1 }

/-- A decode pass with `n` entries in the table, the match 'A', and CONFIG (m, a), at width w. -/
def decN (n m w : Nat) (a : Bool) : State :=
  { State.reset with
    phase := .decActive, width := BitVec.ofNat 5 w, config := { maxBits := BitVec.ofNat 8 m, adaptive := a },
    nextCode := BitVec.ofNat 25 (256 + n), matchReg := { valid := true, code := 65 },
    dtab := (List.range n).map (fun i => (256 + i, [BitVec.ofNat 8 i, 0])) }

/-! One step of each command. -/

/-- 44_control.md R251: `NOP` in DEC_ACTIVE leaves every register unchanged. -/
theorem test_nop : seen id (step (queue .nop dec0)) = some dec0 := by decide +kernel

/-- 44_control.md R253: after an error SOFT_RESET gives STATUS 0, CONFIG 0x0C, NEXT_CODE 0x100 and ERRCMD 0. -/
theorem test_softReset : seen (fun t => (windowRead 0x04 t, windowRead 0x08 t, windowRead 0x10 t, windowRead 0x28 t))
    (step (queue .softReset failed)) = some (0, 0x0C, 0x100, 0) := by decide +kernel

/-- 44_control.md R254: `CFG 24, 1` gives CONFIG = 0x118. -/
theorem test_cfg_legal : seen (windowRead 0x08) (step { State.reset with cq := [0x02000118] }) = some 0x118 := by
  decide +kernel

/-- 44_control.md R254: `CFG 25, 1` raises BAD_CONFIG with ERRCMD = 0x02000119, CONFIG unchanged. -/
theorem test_cfg_tooWide : seen (fun t => (t.err, t.errcmd, windowRead 0x08 t)) (step { State.reset with cq := [0x02000119] }) =
    some (some .badConfig, 0x02000119, 0x0C) := by decide +kernel

/-- 42_encode.md R192: from reset ENC_START pushes 0x0C, and STATUS = 0x00000C01. -/
theorem test_encStart : seen (fun t => (t.outLog, windowRead 0x04 t)) (step (queue .encStart State.reset)) =
    some ([0x0C], 0x00000C01) := by decide +kernel

/-- 42_encode.md R193: the second step of "ABABABA" at 9 bits fixed leaves MATCH.CODE = 66 and NEXT_CODE = 257, and has pushed the
first byte 0x20 of the codes. -/
theorem test_encStep_ends : seen (fun t => (t.matchReg.code, t.nextCode, t.outLog)) (step (queue .encStep (input [0x42] false (encN 0 9 9 false)))) =
    some (66, 257, [0x20]) := by decide +kernel

/-- 42_encode.md R198, R208: the insertion that makes NEXT_CODE = 512 makes WIDTH = 10 (MAX_BITS 10, adaptive). -/
theorem test_encStep_widens : seen (fun t => (t.nextCode, t.width)) (step (queue .encStep (input [0x42] false (encN 255 10 9 true)))) =
    some (512, 10) := by decide +kernel

/-- 95_test_vectors.md 1.7: `COMPRESS 12, 0` on an empty input ends with OUT = 0C and STATUS = 0x00000C02. -/
theorem test_encRun : seen (fun t => (t.outLog, windowRead 0x04 t)) (step (queue .encRun (input [] true enc0))) =
    some ([0x0C], 0x00000C02) := by decide +kernel

/-- 43_decode.md R222: DEC_START on 0C 04 11 leaves HDR = 0x10C, CNT_IN = 1 and STATUS = 0x00000C03. -/
theorem test_decStart : seen (fun t => (windowRead 0x24 t, t.cntIn, windowRead 0x04 t))
    (step (queue .decStart (input [0x0C, 0x04, 0x11] false State.reset))) = some (0x10C, 1, 0x00000C03) := by decide +kernel

/-- 43_decode.md R222, 60_exceptions.md R273: with no header byte DEC_START raises INVALID_CODE with ERRCMD = 0x08000000. -/
theorem test_decStart_empty : seen (fun t => (t.phase, t.err, t.errcmd)) (step (queue .decStart (input [] true State.reset))) =
    some (.error, some .invalidCode, 0x08000000) := by decide +kernel

/-- 43_decode.md R225: the fourth step on 09 20 90 A0 10 20 reads 258 = NEXT_CODE, and the entry is "AB" ++ "A". -/
theorem test_decStep_self : seen (fun t => (t.outLog, t.nextCode, t.matchReg.code)) (step (queue .decStep
    { input [0x20] true (decN 0 9 9 false) with
      rBuf := 0x10, rCnt := 5, nextCode := 258, matchReg := { valid := true, code := 256 },
      dtab := [(256, [0x41, 0x42]), (257, [0x42, 0x41])] })) = some ([0x41, 0x42, 0x41], 259, 258) := by decide +kernel

/-- 43_decode.md R241: 0C 04 11 2C reads 65, then 300 > NEXT_CODE, which raises INVALID_CODE with RESULT = 0x0100012C. -/
theorem test_decStep_invalid : seen (fun t => (t.err, windowRead 0x0C t, t.nextCode)) (step (queue .decStep
    { input [0x2C] true (decN 0 12 12 false) with rBuf := 0x11, rCnt := 4 })) =
    some (some .invalidCode, 0x0100012C, 256) := by decide +kernel

/-- 95_test_vectors.md 1.7: on a header-only stream DEC_RUN ends in DEC_DONE with RESULT = 0x03000000 and STATUS = 0x00000C04 (12, fixed). -/
theorem test_decRun : seen (fun t => (windowRead 0x0C t, windowRead 0x04 t)) (step (queue .decRun (input [] true dec0))) =
    some (0x03000000, 0x00000C04) := by decide +kernel

/-- 40_bitstream.md R150: after `BS_WRITE 3, 0b101` BS_FLUSH pushes 0xA0. -/
theorem test_bsFlush : seen (fun t => (t.outLog, t.wCnt)) (step (queue .bsFlush pending3)) = some ([0xA0], 0) := by decide +kernel

/-- 40_bitstream.md R151: `BS_WRITE 3, 0b101 ; BS_WRITE 9, 0x1FF` has pushed 0xBF, with 1111 pending. -/
theorem test_bsWrite : seen (fun t => (t.outLog, t.wAcc, t.wCnt)) (step (queue (.bsWrite 9 0x1FF) pending3)) =
    some ([0xBF], 0xF, 4) := by decide +kernel

/-- 40_bitstream.md R151: `BS_WRITE 4, 0xABC` appends 0b1100. -/
theorem test_bsWrite_low : seen (fun t => (t.wAcc, t.wCnt)) (step (queue (.bsWrite 4 0xABC) State.reset)) = some (0xC, 4) := by
  decide +kernel

/-- 40_bitstream.md R153: with IN = BF E0, BS_READ 3 gives 5. -/
theorem test_bsRead : seen (fun t => (t.result.value, t.rCnt)) (step (queue (.bsRead 3) (input [0xBF, 0xE0] true State.reset))) =
    some (5, 5) := by decide +kernel

/-- 40_bitstream.md R153: BS_READ 9 next gives 0x1FE and leaves R_CNT = 4. -/
theorem test_bsRead_across : seen (fun t => (t.result.value, t.rCnt))
    (step (queue (.bsRead 9) { input [0xE0] true State.reset with rBuf := 0xBF, rCnt := 5 })) = some (0x1FE, 4) := by
  decide +kernel

/-! The invariant holds in the states that the witnesses use. -/

/-- Every clause of the invariant but those about the dictionaries. -/
abbrev plainInv (s : State) : Prop :=
  ((9 ≤ s.params.maxbLimit ∧ s.params.maxbLimit ≤ 24) ∧ (1 ≤ s.params.cqDepth ∧ s.cq.length ≤ s.params.cqDepth) ∧
    (9 ≤ s.config.maxBits.toNat ∧ s.config.maxBits.toNat ≤ s.params.maxbLimit)) ∧
  ((s.phase = .error ↔ s.err ≠ none) ∧ (s.err = none → s.errcmd = 0) ∧ s.wAcc.toNat < 2 ^ s.wCnt.toNat ∧
    (256 ≤ s.nextCode.toNat ∧ s.nextCode.toNat ≤ 2 ^ s.params.maxbLimit) ∧ s.width.toNat ≤ s.params.maxbLimit) ∧
  ((s.matchReg.valid = true → s.matchReg.code.toNat < s.nextCode.toNat) ∧ (s.matchReg.valid = false → s.matchReg.code = 0) ∧
    ((s.result.valid = false → s.result = .cleared) ∧ (s.result.nodata = true → s.result.value = 0) ∧
      (s.result.midcode = true → s.result.nodata = true)) ∧ (s.hdr.valid = false → s.hdr.byte = 0)) ∧
  ((s.phase.inPass = true → s.nextCode.toNat ≤ codeLimit s) ∧
    (s.phase.inPass = true → s.config.adaptive = false → s.width.toNat = s.config.maxBits.toNat) ∧
    (s.phase = .encActive → s.config.adaptive = true →
      s.width.toNat = adaptiveWidth s.config.maxBits.toNat s.nextCode.toNat) ∧
    (s.phase = .decActive → s.config.adaptive = true →
      s.width.toNat = adaptiveWidth s.config.maxBits.toNat (min (s.nextCode.toNat + 1) (codeLimit s)))) ∧
  s.outTaken ≤ s.outLog.length ∧ s.eosOwner.isSome = s.inEos

theorem inv_of {s : State} (h : plainInv s) (hm : Memory.wf s = true) (ht : s.phase = .encActive → TrieInv s.echild s.nextCode.toNat)
    (hd : s.phase = .decActive → TableInv s.dtab s.nextCode.toNat) : s.Inv := by
  obtain ⟨⟨h1, h2, h3⟩, ⟨h4, h5, h6, h7, h8⟩, ⟨h9, h10, h11, h12⟩, ⟨h13, h14, h15, h16⟩, h18, h19⟩ := h
  exact ⟨h1, h2, h3, h4, h5, h6, h7, h8, h9, h10, h11, h12, h13, h14, h15, h16, hm, ht, hd, h18, h19⟩

theorem wf_range {β : Type} {key : Nat → Nat} {v : Nat → β} (h : ∀ i j, i < j → key i < key j) (n : Nat) :
    Dict.wf ((List.range n).map (fun i => (key i, v i))) = true := by
  suffices ∀ a, Dict.wf ((List.range' a n).map (fun i => (key i, v i))) = true by
    rw [List.range_eq_range']; exact this 0
  induction n with
  | zero => intro a; rfl
  | succ n ih =>
    intro a
    rw [List.range'_succ, List.map_cons]
    simp only [Dict.wf, Bool.and_eq_true, List.all_eq_true, decide_eq_true_eq]
    refine ⟨fun e he => ?_, ih _⟩
    obtain ⟨i, hi, rfl⟩ := List.mem_map.mp he
    exact h _ _ (by have := List.mem_range'_1.mp hi; omega)

theorem trie_of {n : Nat} (hn : n ≤ 256) :
    TrieInv ((List.range n).map (fun i => (i * 256, BitVec.ofNat 24 (256 + i)))) (256 + n) where
  entry k c h := by
    obtain ⟨i, hi, he⟩ := List.mem_map.mp (Dict.find_mem h)
    cases he
    have := List.mem_range.mp hi
    rw [BitVec.toNat_ofNat]; simp only [Config.nSingle]; omega
  target c h1 h2 := by
    simp only [Config.nSingle] at h1
    refine ⟨(c - 256) * 256, Dict.mem_find (wf_range (fun i j _ => by omega) n) (List.mem_map.mpr ⟨c - 256, List.mem_range.mpr (by omega), ?_⟩)⟩
    rw [show 256 + (c - 256) = c by omega]
  single k k' c h h' := by
    obtain ⟨i, hi, he⟩ := List.mem_map.mp (Dict.find_mem h)
    obtain ⟨j, hj, he'⟩ := List.mem_map.mp (Dict.find_mem h')
    have hi := List.mem_range.mp hi
    have hj := List.mem_range.mp hj
    rw [Prod.mk.injEq] at he he'
    have := congrArg BitVec.toNat (he.2.trans he'.2.symm)
    rw [BitVec.toNat_ofNat, BitVec.toNat_ofNat] at this
    omega

theorem table_of (n : Nat) :
    TableInv ((List.range n).map (fun i => (256 + i, [BitVec.ofNat 8 i, 0]))) (256 + n) where
  defined c := by
    unfold dtabAt
    split
    · next h => simp only [Config.nSingle] at h; simp; omega
    · next h =>
      simp only [Config.nSingle] at h
      constructor
      · rintro ⟨q, hq⟩
        obtain ⟨i, hi, he⟩ := List.mem_map.mp (Dict.find_mem hq)
        have hi := List.mem_range.mp hi
        rw [Prod.mk.injEq] at he
        omega
      · intro hc
        refine ⟨[BitVec.ofNat 8 (c - 256), 0], Dict.mem_find (wf_range (fun i j _ => by omega) n)
          (List.mem_map.mpr ⟨c - 256, List.mem_range.mpr (by omega), ?_⟩)⟩
        rw [show 256 + (c - 256) = c by omega]
  bounded c q h := by
    unfold dtabAt at h
    split at h
    · cases h; exact ⟨by simp, by simp⟩
    · next hc =>
      obtain ⟨i, hi, he⟩ := List.mem_map.mp (Dict.find_mem h)
      rw [Prod.mk.injEq] at he
      obtain ⟨he1, rfl⟩ := he
      refine ⟨by simp, ?_⟩
      simp only [List.length_cons, List.length_nil]; omega

theorem plain_inv {s : State} (h : plainInv s) (hm : Memory.wf s = true) (he : s.phase ≠ .encActive) (hd : s.phase ≠ .decActive) :
    s.Inv := inv_of h hm (fun h' => absurd h' he) (fun h' => absurd h' hd)

theorem next_of {α : Type} {f : State → α} {o : Host.Outcome State Fault Refusal} {v : α} (h : seen f o = some v) :
    ∃ t, o = .next t ∧ f t = v := by
  cases o with
  | next t => exact ⟨t, rfl, Option.some.inj h⟩
  | fault e => cases h
  | refused e => cases h

/-- The next moves are the host's `m`. -/
def turn (m : HostMove) (s : State) : State := { s with agenda := [.host m] }

/-- An encode pass right after its first byte, at 9 bits fixed. -/
abbrev encFresh (l : Bytes) (eos : Bool) : State := input l eos (encN 0 9 9 false)

/-- A decode pass right after its first code, at 9 bits fixed. -/
abbrev decFresh (l : Bytes) (eos : Bool) : State := input l eos (decN 0 9 9 false)

theorem encN_inv {n m w : Nat} {a eos : Bool} {l : Bytes} (h : plainInv (input l eos (encN n m w a))) (hn : n ≤ 256) :
    (input l eos (encN n m w a)).Inv := by
  refine inv_of h ?_ (fun _ => ?_) (fun h' => by cases h')
  · simp [Memory.wf, input, encN, State.reset, Dict.wf, wf_range (key := fun i => i * 256) (fun i j _ => by omega)]
  · have e : (input l eos (encN n m w a)).nextCode.toNat = 256 + n := by
      show (BitVec.ofNat 25 (256 + n)).toNat = 256 + n
      rw [BitVec.toNat_ofNat]; omega
    rw [e]
    exact trie_of hn

theorem decN_inv {n m w : Nat} {a eos : Bool} {l : Bytes} (h : plainInv (input l eos (decN n m w a))) (hn : n ≤ 256) :
    (input l eos (decN n m w a)).Inv := by
  refine inv_of h ?_ (fun h' => by cases h') (fun _ => ?_)
  · simp [Memory.wf, input, decN, State.reset, Dict.wf, Config.nSingle,
      wf_range (key := fun i => 256 + i) (fun i j _ => by omega)]
  · have e : (input l eos (decN n m w a)).nextCode.toNat = 256 + n := by
      show (BitVec.ofNat 25 (256 + n)).toNat = 256 + n
      rw [BitVec.toNat_ofNat]; omega
    rw [e]
    exact table_of n

theorem encFresh_inv : (encFresh [0x42] false).Inv := encN_inv (by decide +kernel) (by decide)

/-- Unsaturated and adaptive, one insertion before the encoder's test holds. -/
theorem encN_below_inv : (input [0x42] false (encN 254 10 9 true)).Inv := encN_inv (by decide +kernel) (by decide)

/-- Unsaturated and adaptive, the insertion that widens. -/
theorem encN_widening_inv : (input [0x42] false (encN 255 10 9 true)).Inv := encN_inv (by decide +kernel) (by decide)

theorem encN_saturated_inv : (input [0x42] false (encN 256 9 9 false)).Inv := encN_inv (by decide +kernel) (by decide)

theorem decFresh_inv {l : Bytes} {eos : Bool} (h : plainInv (decFresh l eos)) : (decFresh l eos).Inv :=
  decN_inv h (by decide)

theorem decN_widening_inv : (input [0x20, 0x80] false (decN 254 10 9 true)).Inv := decN_inv (by decide +kernel) (by decide)

theorem decN_saturated_inv : (input [0xFF, 0x80] false (decN 256 9 9 false)).Inv := decN_inv (by decide +kernel) (by decide)

theorem dec0_inv {l : Bytes} {eos : Bool} (h : plainInv (input l eos dec0)) : (input l eos dec0).Inv :=
  inv_of h rfl (fun h' => by cases h') (fun _ => table_of 0)

/-! Witnesses: encoding and the command cycle. -/

theorem witness_DecodeOfEncodeGivesTheCommandBack :
    (Instr.bsWrite 24 0xFFFFFF).wellFormed = true ∧ (Instr.bsRead 0).wellFormed = true ∧ (Instr.cfg 255 true).wellFormed = true := by
  decide +kernel

theorem witness_EncodeOfDecodeGivesTheWordBack :
    decode 0x38FFFFFF = .ok (.bsWrite 24 0xFFFFFF) ∧ decode 0x40000000 = .ok (.bsRead 0) := by decide +kernel

theorem witness_IllegalWordsAreTheSixItems :
    (∃ e, decode 0x60000000 = .error e) ∧ (∃ e, decode 0x03000000 = .error e) ∧ (∃ e, decode 0x02000200 = .error e) ∧
    (∃ e, decode 0x00000001 = .error e) ∧ (∃ e, decode 0x39000000 = .error e) ∧ (∃ e, decode 0x40000001 = .error e) ∧
    ¬ ∃ e, decode 0x38FFFFFF = .error e :=
  ⟨⟨.reservedOpc, by decide +kernel⟩, ⟨.reservedFn, by decide +kernel⟩, ⟨.cfgReservedBits, by decide +kernel⟩, ⟨.argNotZero, by decide +kernel⟩,
    ⟨.widthTooLarge, by decide +kernel⟩, ⟨.readArgNotZero, by decide +kernel⟩, fun ⟨e, h⟩ => by
      rw [show decode 0x38FFFFFF = .ok (.bsWrite 24 0xFFFFFF) by decide] at h; cases h⟩

theorem witness_StepRunsTheDecodedCommand :
    (queue .nop State.reset).cq = [0] ∧ decode 0 = .ok .nop ∧ (queue .nop State.reset).agenda = [] ∧
    { queue .nop State.reset with agenda := [.block] }.agenda = [.block] := by decide +kernel

theorem witness_IllegalWordRaisesIllegalCmd :
    State.reset.agenda = [] ∧ { State.reset with cq := [0xE0000000] }.cq = [0xE0000000] ∧
    decode 0xE0000000 = .error .reservedOpc ∧ { failed with cq := [0x60000000] }.cq = [0x60000000] ∧
    decode 0x60000000 = .error .reservedOpc := by decide +kernel

theorem witness_WrongPhaseRaisesBadPhase :
    notLegal (.cfg 12 false) .encActive ∧ notLegal (.cfg 8 true) .decActive ∧ notLegal .encStep .idle ∧ notLegal .encRun .error ∧
    notLegal .decStep .encActive ∧ notLegal .decRun .decDone ∧ notLegal .bsFlush .error ∧ notLegal (.bsWrite 24 0) .decActive ∧
    notLegal (.bsRead 0) .encActive := by
  unfold notLegal; decide +kernel

theorem witness_CfgOutOfRangeRaisesBadConfig :
    State.reset.phase ≠ .encActive ∧ State.reset.phase ≠ .decActive ∧
    ¬ (9 ≤ (8 : BitVec 8).toNat ∧ (8 : BitVec 8).toNat ≤ State.reset.params.maxbLimit) ∧
    ¬ (9 ≤ (25 : BitVec 8).toNat ∧ (25 : BitVec 8).toNat ≤ State.reset.params.maxbLimit) := by decide +kernel

theorem witness_HeldCommandAndEmptyQueueChangeNothing :
    holdsIn .encStep enc0 ∧ holdsIn .encRun enc0 ∧ holdsIn .decStart State.reset ∧ holdsIn .decStep (input [0x04] false dec0) ∧
    holdsIn .decRun (input [0x04] false dec0) ∧ holdsIn (.bsRead 1) State.reset ∧ holdsIn (.bsRead 24) (input [1, 2] false State.reset) ∧
    State.reset.agenda = [] ∧ State.reset.cq = [] := by
  unfold holdsIn rawPhase; decide +kernel

theorem witness_ErrorStateIsFrozenUntilAnExit :
    failed.phase = .error ∧ (9 ≤ (24 : BitVec 8).toNat ∧ (24 : BitVec 8).toNat ≤ failed.params.maxbLimit) ∧
    ¬ (9 ≤ (8 : BitVec 8).toNat ∧ (8 : BitVec 8).toNat ≤ failed.params.maxbLimit) := by decide +kernel

theorem witness_OnlyErrorExitsLeaveError : failed.phase = .error ∧
    (∃ t, step (queue .softReset failed) = .next t ∧ t.phase = .idle) ∧
    (∃ t, step (queue .encStart failed) = .next t ∧ t.phase = .encActive) ∧
    (∃ t, step (queue .decStart (input [9] false failed)) = .next t ∧ t.phase = .decActive) ∧
    (∃ t, step (turn .hardReset failed) = .next t ∧ t.phase = .idle) :=
  ⟨rfl, next_of (by decide +kernel), next_of (by decide +kernel), next_of (by decide +kernel), next_of (by decide +kernel)⟩

theorem witness_CfgWritesConfigOnly :
    State.reset.phase ≠ .encActive ∧ State.reset.phase ≠ .decActive ∧ 9 ≤ (9 : BitVec 8).toNat ∧
    (9 : BitVec 8).toNat ≤ State.reset.params.maxbLimit ∧ 9 ≤ (24 : BitVec 8).toNat ∧
    (24 : BitVec 8).toNat ≤ State.reset.params.maxbLimit := by decide +kernel

theorem witness_HardwareResetGivesTheResetValues : (turn .hardReset (queue .encStep enc0)).agenda = [.host .hardReset] := rfl

/-! Witnesses: the BitStream Codec. -/

theorem witness_WriteBitsClosedForm :
    pending3.wAcc.toNat < 2 ^ pending3.wCnt.toNat ∧ 0 ≤ 24 ∧ 24 ≤ 24 ∧
    { State.reset with wAcc := 0x7F, wCnt := 7 }.wAcc.toNat < 2 ^ { State.reset with wAcc := 0x7F, wCnt := 7 }.wCnt.toNat := by decide +kernel

theorem witness_BsWriteAppendsTheLowBits :
    rawPhase pending3 ∧ pending3.wAcc.toNat < 2 ^ pending3.wCnt.toNat ∧ rawPhase { pending3 with phase := .decDone } := by
  unfold rawPhase; decide +kernel

theorem witness_BsFlushPushesThePartialByte :
    rawPhase State.reset ∧ rawPhase pending3 ∧ rawPhase { State.reset with phase := .encDone } ∧
    rawPhase { State.reset with phase := .decDone } := by
  unfold rawPhase; decide +kernel

theorem witness_SecondFlushPushesNothing :
    rawPhase pending3 ∧ pending3.wAcc.toNat < 2 ^ pending3.wCnt.toNat ∧
    ∃ t, exec .bsFlush pending3 = .next t ∧ t.outLog = [0xA0] := ⟨.inl rfl, by decide +kernel, next_of (by decide +kernel)⟩

theorem witness_BsReadReturnsTheNextBits :
    rawPhase (input [1, 2, 3] false State.reset) ∧ (24 : BitVec 5).toNat ≤ 24 ∧
    (24 : BitVec 5).toNat ≤ State.reset.rCnt.toNat + 8 * [1, 2, 3].length ∧
    (0 : BitVec 5).toNat ≤ State.reset.rCnt.toNat + 8 * ([] : Bytes).length := by
  unfold rawPhase; decide +kernel

theorem witness_BsReadAtTheEndReturnsNoData :
    rawPhase (input [] true State.reset) ∧
    (input [] true State.reset).rCnt.toNat + 8 * (input [] true State.reset).inQ.length < (1 : BitVec 5).toNat ∧
    (input [0xE0] true State.reset).rCnt.toNat + 8 * (input [0xE0] true State.reset).inQ.length < (9 : BitVec 5).toNat ∧
    (input [0xE0] true State.reset).inEos = true := by
  unfold rawPhase; decide +kernel

theorem witness_ReadOfWidthZeroReadsNothing :
    rawPhase (input [] true State.reset) ∧ (encFresh [0x42] false).Inv ∧ (encFresh [0x42] false).phase = .encActive ∧
    (input [] true dec0).Inv ∧ dec0.phase = .decActive :=
  ⟨.inl rfl, encFresh_inv, rfl, dec0_inv (by decide +kernel), rfl⟩

/-- 40_bitstream.md R151, R153: `BS_WRITE 3, 0b101 ; BS_WRITE 9, 0x1FF ; BS_FLUSH` puts BF F0 on OUT. -/
theorem witness_RawWritesReadBack :
    (∀ p ∈ [((3, 5) : BitVec 5 × BitVec 24), (9, 0x1FF)], p.1.toNat ≤ 24) ∧ rawPhase State.reset ∧ State.reset.wCnt = 0 ∧
    State.reset.wAcc = 0 ∧
    (runAll ([((3, 5) : BitVec 5 × BitVec 24), (9, 0x1FF)].map (fun p => .bsWrite p.1 p.2) ++ [.bsFlush]) State.reset).map
      (·.outLog) = some [0xBF, 0xF0] ∧
    rawPhase (input [0xBF, 0xF0] true State.reset) ∧ State.reset.rCnt = 0 ∧ (input [0xBF, 0xF0] true State.reset).inEos = true ∧
    7 < (8 : BitVec 5).toNat ∧ 7 < (24 : BitVec 5).toNat ∧ (24 : BitVec 5).toNat ≤ 24 :=
  ⟨by simp, .inl rfl, rfl, rfl, by decide +kernel, .inl rfl, rfl, rfl, by decide, by decide, by decide⟩

/-! Witnesses: the encode pipeline. -/

theorem witness_EncStepFirstByteBecomesTheMatch :
    enc0.phase = .encActive ∧ enc0.matchReg.valid = false ∧ (input [0xFF] true enc0).inQ = [0xFF] := by decide +kernel

theorem witness_EncStepExtendsTheMatch :
    (encN 66 9 9 false).phase = .encActive ∧ (encN 66 9 9 false).matchReg.valid = true ∧
    (input [0] false (encN 66 9 9 false)).inQ = [0] ∧ eChild 65 0 (encN 66 9 9 false) = some 321 := by decide +kernel

/-- Fixed and unsaturated; adaptive just before and at the insertion that widens; saturated. -/
theorem witness_EncStepEndsTheMatch :
    ((encFresh [0x42] false).Inv ∧ (input [0x42] false (encN 254 10 9 true)).Inv ∧ (input [0x42] false (encN 255 10 9 true)).Inv ∧
      (input [0x42] false (encN 256 9 9 false)).Inv) ∧
    (eChild 65 0x42 (encN 0 9 9 false) = none ∧ eChild 65 0x42 (encN 254 10 9 true) = none ∧
      eChild 65 0x42 (encN 255 10 9 true) = none ∧ eChild 65 0x42 (encN 256 9 9 false) = none) ∧
    ((encN 255 10 9 true).nextCode.toNat < 2 ^ (encN 255 10 9 true).config.maxBits.toNat ∧
      2 ^ (encN 256 9 9 false).config.maxBits.toNat ≤ (encN 256 9 9 false).nextCode.toNat) ∧
    (encFresh [0x42] false).phase = .encActive ∧ (encFresh [0x42] false).matchReg.valid = true ∧ (encFresh [0x42] false).inQ = [0x42] :=
  ⟨⟨encFresh_inv, encN_below_inv, encN_widening_inv, encN_saturated_inv⟩, by decide +kernel, by decide +kernel, rfl, rfl, rfl⟩

theorem witness_EncStepFinishesThePass :
    enc0.phase = .encActive ∧ enc0.wAcc.toNat < 2 ^ enc0.wCnt.toNat ∧ (input [] true enc0).inQ = [] ∧
    (input [] true enc0).inEos = true ∧ enc0.matchReg.valid = false ∧ (encFresh [] true).matchReg.valid = true ∧
    (encFresh [] true).phase = .encActive := by decide +kernel

theorem witness_EncRunIteratesEncStep :
    enc0.phase = .encActive ∧ (input [0x41] false enc0).inQ ≠ [] ∧ (input [] true enc0).inEos = true := by decide +kernel

theorem witness_EncodedCodeIsInRange :
    (encFresh [0x42] false).Inv ∧ (encFresh [0x42] false).phase = .encActive ∧ (encFresh [0x42] false).matchReg.valid = true :=
  ⟨encFresh_inv, rfl, rfl⟩

theorem witness_EveryCodeHasItsBoundedSequence :
    (input [0x42] false (encN 256 9 9 false)).Inv ∧ (encN 256 9 9 false).phase = .encActive ∧
    (0 : Code).toNat < (encN 256 9 9 false).nextCode.toNat ∧ (511 : Code).toNat < (encN 256 9 9 false).nextCode.toNat ∧
    (input [0xFF, 0x80] false (decN 256 9 9 false)).Inv ∧ (decN 256 9 9 false).phase = .decActive ∧
    511 < (decN 256 9 9 false).nextCode.toNat :=
  ⟨encN_saturated_inv, rfl, by decide +kernel, by decide +kernel, decN_saturated_inv, rfl, by decide +kernel⟩

theorem witness_ProbeIsLookupOfTheCandidate :
    (input [0x42] false (encN 256 9 9 false)).Inv ∧ (encN 256 9 9 false).phase = .encActive ∧
    (65 : Code).toNat < (encN 256 9 9 false).nextCode.toNat ∧ (256 : Code).toNat < (encN 256 9 9 false).nextCode.toNat ∧
    seqE (encN 256 9 9 false).echild 65 = some [65] ∧ seqE (encN 256 9 9 false).echild 256 = some [0, 0] :=
  ⟨encN_saturated_inv, rfl, by decide +kernel, by decide +kernel, by decide +kernel, by decide +kernel⟩

/-! Witnesses: the decode pipeline. -/

theorem witness_DecStartReadsTheHeader :
    (input [0] false enc0).inQ = [0] ∧ (input [0xFF, 1] true failed).inQ = [0xFF, 1] := by decide +kernel

theorem witness_DecStartWithoutHeaderRaisesInvalidCode :
    (input [] true State.reset).inQ = [] ∧ (input [] true State.reset).inEos = true ∧ (input [] true failed).inEos = true := by decide +kernel

/-- The codes 65 and 255 at 12 bits. -/
theorem witness_DecStepFirstCodeIsItsByte :
    codeArrived (input [0x04, 0x10] false dec0) ∧ dec0.width.toNat ≤ 24 ∧ dec0.matchReg.valid = false ∧
    (nextValue 12 (input [0x04, 0x10] false dec0)).toNat = 65 ∧ (nextValue 12 (input [0x0F, 0xF0] false dec0)).toNat = 255 := by
  unfold codeArrived; decide +kernel

/-- A first code of 256 at 12 bits; a later code of NEXT_CODE + 1 at 9 bits. -/
theorem witness_DecStepOutOfRangeCodeRaisesInvalidCode :
    ((input [0x10, 0x00] false dec0).Inv ∧ (decFresh [0x80, 0x80] false).Inv) ∧
    (codeArrived (input [0x10, 0x00] false dec0) ∧ codeArrived (decFresh [0x80, 0x80] false)) ∧
    (dec0.matchReg.valid = false ∧ 256 ≤ (nextValue 12 (input [0x10, 0x00] false dec0)).toNat) ∧
    (decFresh [0x80, 0x80] false).matchReg.valid = true ∧
    (decFresh [0x80, 0x80] false).nextCode.toNat < (nextValue 9 (decFresh [0x80, 0x80] false)).toNat :=
  ⟨⟨dec0_inv (by decide +kernel), decFresh_inv (by decide +kernel)⟩, by unfold codeArrived; decide +kernel, by decide +kernel, rfl,
    by decide +kernel⟩

/-- A bound code, the code equal to NEXT_CODE, the entry that widens, and a saturated table. -/
theorem witness_DecStepLaterCodePushesItsEntry :
    ((decFresh [0x20, 0x80] false).Inv ∧ (decFresh [0x80, 0x00] false).Inv ∧ (input [0x20, 0x80] false (decN 254 10 9 true)).Inv ∧
      (input [0xFF, 0x80] false (decN 256 9 9 false)).Inv) ∧
    (codeArrived (decFresh [0x20, 0x80] false) ∧ codeArrived (decFresh [0x80, 0x00] false) ∧
      codeArrived (input [0x20, 0x80] false (decN 254 10 9 true)) ∧ codeArrived (input [0xFF, 0x80] false (decN 256 9 9 false))) ∧
    ((nextValue 9 (decFresh [0x20, 0x80] false)).toNat = 65 ∧ (nextValue 9 (decFresh [0x80, 0x00] false)).toNat = 256 ∧
      (nextValue 9 (input [0xFF, 0x80] false (decN 256 9 9 false))).toNat = 511) ∧
    (decFresh [0x20, 0x80] false).matchReg.valid = true ∧
    2 ^ (decN 256 9 9 false).config.maxBits.toNat ≤ (decN 256 9 9 false).nextCode.toNat :=
  ⟨⟨decFresh_inv (by decide +kernel), decFresh_inv (by decide +kernel), decN_widening_inv, decN_saturated_inv⟩,
    by unfold codeArrived; decide +kernel, by decide +kernel, rfl, by decide +kernel⟩

theorem witness_DecStepAtTheEndOfInput :
    dec0.phase = .decActive ∧ dec0.rCnt.toNat + 8 * (input [] true dec0).inQ.length < dec0.width.toNat ∧
    dec0.rCnt.toNat + 8 * (input [0x04] true dec0).inQ.length < dec0.width.toNat ∧ (input [0x04] true dec0).inEos = true := by decide +kernel

theorem witness_DecRunIteratesDecStep :
    (decFresh [0x20, 0x80] false).Inv ∧ (decFresh [0x20, 0x80] false).phase = .decActive ∧
    (decFresh [0x20, 0x80] false).width.toNat ≤
      (decFresh [0x20, 0x80] false).rCnt.toNat + 8 * (decFresh [0x20, 0x80] false).inQ.length ∧
    (input [] true dec0).Inv ∧ (input [] true dec0).inEos = true :=
  ⟨decFresh_inv (by decide +kernel), rfl, by decide +kernel, dec0_inv (by decide +kernel), rfl⟩

/-- The input "A" at 12 bits fixed is the stream 0C 04 10 (42_encode.md R192, R201). -/
abbrev encodeA : State := { input [0x41] true State.reset with cq := [encode .encStart, encode .encRun] }

/-- The decoder's side of `encodeA`. -/
abbrev decodeA : State := { input [0x0C, 0x04, 0x10] true State.reset with cq := [encode .decStart, encode .decRun] }

theorem witness_DecodingAnEncodedStreamGivesTheInputBack :
    encodeA.Inv ∧ encodeA.agenda = [] ∧ encodeA.inEos = true ∧
    (runSteps 3 encodeA).map (fun t => (t.phase, t.outLog)) = some (.encDone, [0x0C, 0x04, 0x10]) ∧
    decodeA.Inv ∧ decodeA.config = encodeA.config ∧
    (runSteps 3 decodeA).map (fun u => (u.phase, u.outLog)) = some (.decDone, [0x41]) :=
  ⟨plain_inv (by decide +kernel) rfl (by decide) (by decide), rfl, rfl, by decide +kernel,
    plain_inv (by decide +kernel) rfl (by decide) (by decide), rfl, by decide +kernel⟩

/-! Witnesses: the whole machine. -/

theorem witness_EveryStepKeepsTheInvariant :
    (queue .encStart State.reset).Inv ∧ ∃ t, step (queue .encStart State.reset) = .next t ∧ t.phase = .encActive :=
  ⟨plain_inv (by decide +kernel) rfl (by decide) (by decide), next_of (by decide +kernel)⟩

theorem witness_BlockNeverStopsUnderTheInvariant :
    (queue .encStart State.reset).Inv ∧ blockTurn (queue .encStart State.reset) = true :=
  ⟨plain_inv (by decide +kernel) rfl (by decide) (by decide), rfl⟩

theorem witness_OutputIsNeverWithdrawn :
    (∃ t, step (queue .bsFlush { pending3 with outLog := [1] }) = .next t ∧ t.outLog = [1, 0xA0]) ∧
    (∃ t, step (turn .hardReset { pending3 with outLog := [1] }) = .next t ∧ t.outLog = [1]) :=
  ⟨next_of (by decide +kernel), next_of (by decide +kernel)⟩

theorem witness_BlockTakesInputAndCommandsInOrder :
    blockTurn (queue (.bsRead 24) (input [1, 2, 3, 4] false State.reset)) = true ∧
    ∃ t, step (queue (.bsRead 24) (input [1, 2, 3, 4] false State.reset)) = .next t ∧ t.inQ = [4] :=
  ⟨rfl, next_of (by decide +kernel)⟩

theorem witness_PhaseMovesOnlyAsListed :
    (∃ t, step (queue .softReset failed) = .next t ∧ t.phase = .idle) ∧
    (∃ t, step (queue .encStart State.reset) = .next t ∧ t.phase = .encActive) ∧
    (∃ t, step (queue .encRun (input [] true enc0)) = .next t ∧ t.phase = .encDone) ∧
    (∃ t, step (queue .decStart (input [0x0C] false State.reset)) = .next t ∧ t.phase = .decActive) ∧
    (∃ t, step (queue .decStep (input [] true dec0)) = .next t ∧ t.phase = .decDone) ∧
    (∃ t, step (queue .encStep State.reset) = .next t ∧ t.phase = .error) ∧
    (∃ t, step (queue .decStep (input [0x04] true dec0)) = .next t ∧ t.phase = .error) :=
  ⟨next_of (by decide +kernel), next_of (by decide +kernel), next_of (by decide +kernel), next_of (by decide +kernel),
    next_of (by decide +kernel), next_of (by decide +kernel), next_of (by decide +kernel)⟩

theorem witness_LaterInputDoesNotChangeACommand :
    (input [0x41] false enc0).inEos = false ∧ ¬ holdsIn .encStep (input [0x41] false enc0) ∧
    ∃ t, exec .encStep (input [0x41] false enc0) = .next t ∧ t.matchReg.code = 65 :=
  ⟨rfl, by unfold holdsIn; decide +kernel, next_of (by decide +kernel)⟩

theorem witness_ConfigIsWrittenOnlyByCfgAndResets :
    (∃ t, step (turn .hardReset (encN 0 9 9 false)) = .next t ∧ t.config.maxBits = 12) ∧
    (∃ t, step (queue .softReset (encN 0 9 9 false)) = .next t ∧ t.config.maxBits = 12) ∧
    (∃ t, step (queue (.cfg 24 true) State.reset) = .next t ∧ t.config.maxBits = 24) :=
  ⟨next_of (by decide +kernel), next_of (by decide +kernel), next_of (by decide +kernel)⟩

theorem witness_NextCodeNeverDecreases :
    (input [0x42] false (encN 255 10 9 true)).Inv ∧ blockTurn (input [0x42] false (encN 255 10 9 true)) = true ∧
    (∃ t, step (queue .encStep (encFresh [0x42] false)) = .next t ∧ t.nextCode = 257) ∧
    (∃ t, step (queue .softReset (encN 256 9 9 false)) = .next t ∧ t.nextCode = 256) :=
  ⟨encN_widening_inv, rfl, next_of (by decide +kernel), next_of (by decide +kernel)⟩

theorem witness_BindingsNeverChangeInAPass :
    (input [0x42] false (encN 255 10 9 true)).Inv ∧ eChild 0 0 (encN 255 10 9 true) = some 256 ∧
    (∃ t, step (queue .encStep (input [0x42] false (encN 255 10 9 true))) = .next t ∧ t.phase = .encActive) ∧
    (input [0x20, 0x80] false (decN 254 10 9 true)).Inv ∧ dtabAt (decN 254 10 9 true).dtab 256 = some [0, 0] ∧
    (∃ t, step (queue .decStep (input [0x20, 0x80] false (decN 254 10 9 true))) = .next t ∧ t.phase = .decActive) :=
  ⟨encN_widening_inv, by decide +kernel, next_of (by decide +kernel), decN_widening_inv, by decide +kernel, next_of (by decide +kernel)⟩

/-! Witnesses: the window and the host. -/

/-- The last defined offset, the first beyond it, an unaligned one, and a narrow access. -/
theorem witness_WindowAccessesAsDefined :
    (turn (.readReg 32 0x3C) enc0).agenda = [.host (.readReg 32 0x3C)] ∧
    (turn (.writeReg 32 0 5) enc0).agenda = [.host (.writeReg 32 0 5)] ∧ enc0.cq.length < enc0.params.cqDepth ∧
    seen (·.hostData) (step (turn (.readReg 32 0x3C) enc0)) = some (some 0) ∧
    step (turn (.readReg 32 0x40) enc0) = .refused .windowAccess ∧ step (turn (.readReg 32 2) enc0) = .refused .windowAccess ∧
    step (turn (.writeReg 16 4 0) enc0) = .refused .windowAccess ∧ seen (·.cq) (step (turn (.writeReg 32 4 7) enc0)) = some [] :=
  ⟨rfl, rfl, by decide, by decide +kernel, rfl, rfl, rfl, by decide +kernel⟩

/-- CQ of depth 1: empty, full with a command, full with an illegal word. -/
theorem witness_CmdWriteAppendsOrStalls :
    (turn (.writeReg 32 0 5) State.reset).agenda = [.host (.writeReg 32 0 5)] ∧ State.reset.cq.length < State.reset.params.cqDepth ∧
    { State.reset with cq := [0], params := ⟨24, 1⟩ }.params.cqDepth ≤ { State.reset with cq := [0], params := ⟨24, 1⟩ }.cq.length ∧
    decode 0 = .ok .nop ∧ decode 0xE0000000 = .error .reservedOpc := by decide +kernel

theorem witness_StatusLayout : (turn (.writeReg 32 0x04 0xFFFFFFFF) enc0).agenda = [.host (.writeReg 32 0x04 0xFFFFFFFF)] := rfl

/-- A fresh encode pass with `l` and InEOS left over from an earlier one. -/
abbrev encLeftOver (l : Bytes) : State := { input l true enc0 with eosOwner := some .earlierPass }

/-- 70_reset_and_hazards.md R305 item 3: in a pass just started, a left-over InEOS is cleared and left-over bytes are discarded. -/
theorem test_host_prepares_in_pass :
    seen (fun t => (t.inEos, t.phase)) (step (turn .clearEos (encLeftOver []))) = some (false, .encActive) ∧
    seen (·.inQ) (step (turn .discardIn (encLeftOver [1, 2]))) = some [] := by decide +kernel

/-- 70_reset_and_hazards.md R309: an InEOS set before the first START is the pass's own, and stays; after a second START it is left over. -/
theorem test_eos_before_start :
    seen (fun t => t.eosOwner) (step (queue .encStart (input [7] true State.reset))) = some (some .thisPass) ∧
    seen (fun t => t.eosOwner) (step (queue .encStart (input [7] true enc0))) = some (some .earlierPass) := by decide +kernel

theorem witness_HostFeedsTheInputPort :
    (turn (.pushIn 7) State.reset).agenda = [.host (.pushIn 7)] ∧ (turn .setEos enc0).agenda = [.host .setEos] ∧
    (turn .clearEos enc0).agenda = [.host .clearEos] ∧ (turn .discardIn State.reset).agenda = [.host .discardIn] ∧
    step (turn (.pushIn 7) (input [] true enc0)) = .refused .pushAfterEos ∧
    seen (·.inQ) (step (turn (.pushIn 7) enc0)) = some [7] ∧
    seen (·.eosOwner) (step (turn .setEos enc0)) = some (some .thisPass) ∧
    seen (·.eosOwner) (step (turn .setEos State.reset)) = some (some .nextPass) ∧
    step (turn .clearEos (input [] true enc0)) = .refused .inputReplacedInPass ∧
    step (turn .discardIn (input [7] true enc0)) = .refused .inputReplacedInPass :=
  ⟨rfl, rfl, rfl, rfl, rfl, by decide +kernel, by decide +kernel, by decide +kernel, rfl, rfl⟩

theorem witness_EndedInputGrowsNoMoreInItsPass :
    ((encFresh [0x42] true).Inv ∧ (encFresh [0x42] true).phase = .encActive ∧ (encFresh [0x42] true).eosOwner = some .thisPass) ∧
    (∃ t, step (queue .encStep (encFresh [0x42] true)) = .next t ∧ t.inQ = []) ∧
    (∃ t, step (turn .hardReset (encFresh [0x42] true)) = .next t ∧ t.inQ = [0x42]) ∧
    (∃ t, step (queue .encStart (encFresh [0x42] true)) = .next t ∧ t.eosOwner = some .earlierPass) ∧
    ((input [9] true State.reset).eosOwner = some .nextPass ∧ (input [9] true State.reset).inEos = true ∧
      (∃ t, exec .encStart (input [9] true State.reset) = .next t ∧ t.phase = .encActive) ∧
      (∃ t, exec .decStart (input [9] true State.reset) = .next t ∧ t.phase = .decActive)) :=
  ⟨⟨encN_inv (by decide +kernel) (by decide), rfl, rfl⟩, next_of (by decide +kernel), next_of (by decide +kernel),
    next_of (by decide +kernel), rfl, rfl, next_of (by decide +kernel), next_of (by decide +kernel)⟩

theorem witness_AssemblerNamesOnlyCommands :
    assembleInstr ['B','S','_','W','R','I','T','E'] [24, 0xFFFFFF] = some (.bsWrite 24 0xFFFFFF) ∧
    assembleInstr ['B','S','_','R','E','A','D'] [0] = some (.bsRead 0) := by decide +kernel

end Sys2Proof.Tests
end

/-!
The state of the block (10_state.md): every step keeps the invariant, no step stops under it, who writes CONFIG and NEXT_CODE, the
reset values, and the register window.
-/

namespace Sys2Proof.Machine

open Sys2Proof.Claims

/-! One step, by whose turn it is (10_state.md R21, log 2). -/

/-- Whether a host move stalls does not depend on the agenda. -/
theorem hostStalls_setAgenda (m : HostMove) (l : List Turn) (s : State) :
    hostStalls m { s with agenda := l } = hostStalls m s := by
  cases m <;> rfl

/-- While the host's move stalls, the step is the block's cycle (20_memory.md R69). -/
theorem step_of_hostStalls {m : HostMove} {rest : List Turn} {s : State} (ha : s.agenda = .host m :: rest)
    (hs : hostStalls m s = true) : step s = cycle s := by
  rw [step, takeTurn, ha]
  exact if_pos hs

/-- A host move that does not stall is taken off the agenda and made. -/
theorem step_of_hostMove {m : HostMove} {rest : List Turn} {s : State} (ha : s.agenda = .host m :: rest)
    (hs : hostStalls m s = false) : step s = hostMove m { s with agenda := rest } := by
  rw [step, takeTurn, ha]
  exact if_neg (by simp [hs])

/-- On its turn the block runs one cycle. -/
theorem step_of_blockTurn {s : State} (hb : blockTurn s = true) : ∃ l, step s = cycle { s with agenda := l } := by
  unfold step takeTurn
  split
  · exact ⟨s.agenda, rfl⟩
  · next rest _ => exact ⟨rest, rfl⟩
  · next m rest ha => simp [blockTurn, ha] at hb

/-- On a turn of the host its move stands at the head of the agenda. -/
theorem agenda_of_hostTurn {s : State} (hb : blockTurn s = false) : ∃ m rest, s.agenda = .host m :: rest := by
  unfold blockTurn at hb
  split at hb
  · cases hb
  · cases hb
  · next m rest ha => exact ⟨m, rest, ha⟩

/-- What a move of the host makes of the state where it is not refused (10_state.md R21, 20_memory.md R62, R70). -/
def hostEffect : HostMove → State → State
  | .writeReg _ off w, s => windowWrite off w s
  | .readReg _ off, s => { s with hostData := some (windowRead off s) }
  | .pushIn b, s => { s with inQ := s.inQ ++ [b] }
  | .setEos, s => setEos s
  | .clearEos, s => clearEos s
  | .discardIn, s => { s with inQ := [] }
  | .drainOut n, s => { s with outTaken := min (s.outTaken + n) s.outLog.length }
  | .hardReset, s => hardReset s

/-- A move of the host is made or refused. -/
theorem hostMove_eq (m : HostMove) (s : State) :
    hostMove m s = .next (hostEffect m s) ∨ ∃ r, hostMove m s = .refused r := by
  cases m with
  | writeReg size off w =>
    rw [hostMove]; split
    · exact .inl rfl
    · exact .inr ⟨_, rfl⟩
  | readReg size off =>
    rw [hostMove]; split
    · exact .inl rfl
    · exact .inr ⟨_, rfl⟩
  | pushIn b =>
    rw [hostMove]; split
    · exact .inr ⟨_, rfl⟩
    · exact .inl rfl
  | setEos => exact .inl rfl
  | clearEos =>
    rw [hostMove]; split
    · exact .inr ⟨_, rfl⟩
    · exact .inl rfl
  | discardIn =>
    rw [hostMove]; split
    · exact .inr ⟨_, rfl⟩
    · exact .inl rfl
  | drainOut n => exact .inl rfl
  | hardReset => exact .inl rfl

theorem eq_hostEffect_of_next {m : HostMove} {s t : State} (h : hostMove m s = .next t) : t = hostEffect m s := by
  rcases hostMove_eq m s with he | ⟨r, he⟩
  · rw [he] at h; cases h; rfl
  · rw [he] at h; cases h

/-- No move of the host faults. -/
theorem isFault_hostMove (m : HostMove) (s : State) : isFault (hostMove m s) = false := by
  rcases hostMove_eq m s with he | ⟨r, he⟩
  · rw [he]; rfl
  · rw [he]; rfl

/-- A register write that is made is 32 bits wide (20_memory.md R70 items 1, 5). -/
theorem size_of_writeReg_next {size off : Nat} {w : Word} {s t : State} (h : hostMove (.writeReg size off w) s = .next t) :
    size = 32 := by
  rw [hostMove] at h
  split at h
  · next hw =>
    simp only [windowDefined, Bool.and_eq_true, decide_eq_true_eq] at hw
    exact hw.1.1
  · cases h

/-! The invariant is kept by the block (10_state.md R51). -/

section KeepsInvariant

variable {s t : State}

/-- In the phases in which its command is legal, every body keeps the invariant and reads no undefined entry of DTAB. -/
theorem commandBody_all (h : s.Inv) (i : Instr) (hl : legalIn i s.phase = true) : (commandBody i s).All State.Inv := by
  cases i with
  | nop => exact h
  | softReset => exact softResetBody_all h
  | cfg m a => exact cfgBody_all h m a (by simpa [legalIn] using hl)
  | encStart => exact encStartBody_all h
  | encStep => exact encStepBody_all h (by simpa [legalIn] using hl)
  | encRun => exact runIteration_all (encStepBody_all h (by simpa [legalIn] using hl))
  | decStart => exact decStartBody_all h
  | decStep => exact decStepBody_all h (by simpa [legalIn] using hl)
  | decRun => exact runIteration_all (decStepBody_all h (by simpa [legalIn] using hl))
  | bsFlush => exact bsFlushBody_all h
  | bsWrite w v => exact bsWriteBody_all h w v
  | bsRead w => exact bsReadBody_all h w

theorem State.Inv.exec (h : s.Inv) (i : Instr) : ∃ t, Machine.exec i s = .next t ∧ t.Inv := by
  rw [exec_eq]
  exact runCommand_keeps h (commandBody_all h i)

theorem State.Inv.cycle (h : s.Inv) : ∃ t, Machine.cycle s = .next t ∧ t.Inv := by
  unfold Machine.cycle
  split
  · exact ⟨s, rfl, h⟩
  · split
    · exact ⟨_, rfl, (h.errorEntry _ _).popCq⟩
    · exact h.exec _

/-! The invariant is kept by the host. -/

theorem State.Inv.hardReset (h : s.Inv) : (hardReset s).Inv :=
  { h.resetBlock with depth := ⟨h.depth.1, Nat.zero_le _⟩ }

theorem State.Inv.setEos (h : s.Inv) : (setEos s).Inv := { h with eosOwner := rfl }

theorem State.Inv.clearEos (h : s.Inv) : (clearEos s).Inv := { h with eosOwner := rfl }

theorem State.Inv.setInQ (h : s.Inv) (l : List Byte) : State.Inv { s with inQ := l } := { h with }

theorem State.Inv.drainOut (h : s.Inv) (n : Nat) : State.Inv { s with outTaken := min (s.outTaken + n) s.outLog.length } :=
  { h with drained := Nat.min_le_right _ _ }

theorem State.Inv.setHostData (h : s.Inv) (w : Word) : State.Inv { s with hostData := some w } := { h with }

/-- A word appended to a queue that is not full (20_memory.md R69). -/
theorem State.Inv.appendCmd (h : s.Inv) (w : Word) (hfull : s.cq.length < s.params.cqDepth) : (appendCmd w s).Inv :=
  { h with
    depth := ⟨h.depth.1, by
      show (s.cq ++ [w]).length ≤ s.params.cqDepth
      rw [List.length_append]; exact hfull⟩ }

/-- A register write that does not stall the host and reaches CMD finds a free slot in CQ. -/
theorem State.Inv.windowWrite (h : s.Inv) {off : Nat} (w : Word) (hs : hostStalls (.writeReg 32 off w) s = false) :
    (windowWrite off w s).Inv := by
  unfold Machine.windowWrite
  split
  · next h0 => exact h.appendCmd w (by simpa [hostStalls, cqFull, h0] using hs)
  · exact h

/-- A move of the host that does not stall keeps the invariant. -/
theorem State.Inv.hostMove (h : s.Inv) {m : HostMove} (hs : hostStalls m s = false) (hm : hostMove m s = .next t) :
    t.Inv := by
  obtain rfl := eq_hostEffect_of_next hm
  cases m with
  | writeReg size off w =>
    obtain rfl := size_of_writeReg_next hm
    exact h.windowWrite w hs
  | readReg size off => exact h.setHostData _
  | pushIn b => exact h.setInQ _
  | setEos => exact h.setEos
  | clearEos => exact h.clearEos
  | discardIn => exact h.setInQ _
  | drainOut n => exact h.drainOut n
  | hardReset => exact h.hardReset

end KeepsInvariant

/-- Settles O43: a step is a cycle of the block or a move of the host, and both keep the invariant. -/
theorem everyStepKeepsTheInvariant : Obligations.EveryStepKeepsTheInvariant := by
  intro s t h hstep
  rcases step_next hstep with ⟨l, -, hc⟩ | ⟨m, rest, -, hs, hm⟩
  · obtain ⟨u, hu, hinv⟩ := (h.setAgenda l).cycle
    rw [hu] at hc
    cases hc
    exact hinv
  · exact (h.setAgenda rest).hostMove (by rw [hostStalls_setAgenda]; exact hs) hm

/-- Settles O44: under the invariant every cycle answers a next state, and no move of the host faults. -/
theorem blockNeverStopsUnderTheInvariant : Obligations.BlockNeverStopsUnderTheInvariant := by
  intro s h
  cases hb : blockTurn s with
  | true =>
    obtain ⟨l, hl⟩ := step_of_blockTurn hb
    obtain ⟨t, ht, -⟩ := (h.setAgenda l).cycle
    rw [hl, ht]
    exact ⟨rfl, fun _ => ⟨t, rfl⟩⟩
  | false =>
    refine ⟨?_, by simp⟩
    obtain ⟨m, rest, ha⟩ := agenda_of_hostTurn hb
    cases hs : hostStalls m s with
    | true =>
      obtain ⟨t, ht, -⟩ := h.cycle
      rw [step_of_hostStalls ha hs, ht]
      rfl
    | false =>
      rw [step_of_hostMove ha hs]
      exact isFault_hostMove m _

/-- Settles O42: every clause at the reset values, with MAXB_LIMIT 24, CQ_DEPTH 16 and empty ports. -/
theorem resetMeetsTheInvariant : Obligations.ResetMeetsTheInvariant where
  limit := by decide
  depth := by decide
  config := by decide
  errorPhase := by decide
  errorWord := by decide
  accumulator := by decide
  nextCode := by decide
  widthTop := by decide
  matchBound := by decide
  matchEmpty := by decide
  result := by decide
  header := by decide
  passLimit := by decide
  widthFixed := by decide
  widthEncode := by decide
  widthDecode := by decide
  memory := memory_wf_reset
  trie := nofun
  table := nofun
  drained := by decide
  eosOwner := rfl

/-! Who writes CONFIG (10_state.md R32). -/

/-- A CFG that answers a next state leaves CONFIG, or is legal in its phase and its range and CONFIG holds its operands
(44_control.md R254). -/
theorem exec_cfg_config {m : BitVec 8} {a : Bool} {s t : State} (h : exec (.cfg m a) s = .next t) :
    t.config = s.config ∨
      (s.phase.inPass = false ∧ legalMaxBits m s = true ∧ t.config = { maxBits := m, adaptive := a }) := by
  cases hl : legalIn (.cfg m a) s.phase with
  | false =>
    rw [exec_cfg, runCommand_illegal hl] at h
    cases h
    exact .inl (errorEntry_config _ _ s)
  | true =>
    cases hm : legalMaxBits m s with
    | true =>
      rw [exec_completes (t := setConfig m a s) hl (if_pos hm)] at h
      cases h
      exact .inr ⟨by simpa [legalIn] using hl, rfl, rfl⟩
    | false =>
      rw [exec_raises (t := s) (k := .badConfig) hl (if_neg (by simp [hm]))] at h
      cases h
      exact .inl (errorEntry_config _ _ s)

/-- No move of the host but hardware reset writes CONFIG. -/
theorem hostEffect_config {m : HostMove} (hr : m ≠ .hardReset) (s : State) : (hostEffect m s).config = s.config := by
  cases m with
  | writeReg size off w =>
    rw [hostEffect, windowWrite]
    split <;> rfl
  | hardReset => exact absurd rfl hr
  | readReg | pushIn | setEos | clearEos | discardIn | drainOut => rfl

/-- Settles O49: by the case of the step, and for a cycle by its command. -/
theorem configIsWrittenOnlyByCfgAndResets : Obligations.ConfigIsWrittenOnlyByCfgAndResets := by
  intro s t hstep hne
  rcases step_next hstep with ⟨l, -, hc⟩ | ⟨m, rest, ha, -, hm⟩
  · rcases cycle_next hc with ⟨-, rfl⟩ | ⟨cw, rest, e, -, -, rfl⟩ | ⟨cw, rest, i, hcq, hd, he⟩
    · exact absurd rfl hne
    · exact absurd (errorEntry_config _ _ _) hne
    · by_cases hsoft : i = .softReset
      · subst hsoft
        exact .inr (.inl ⟨cw, rest, hcq, hd⟩)
      by_cases hcfg : ∃ m a, i = .cfg m a
      · obtain ⟨m, a, rfl⟩ := hcfg
        rcases exec_cfg_config he with hsame | ⟨hp, hlegal, hset⟩
        · exact absurd hsame hne
        · obtain ⟨h9, hlim⟩ := (legalMaxBits_iff m _).mp hlegal
          have hpass : ¬ (s.phase = .encActive ∨ s.phase = .decActive) := by
            rw [← inPass_iff]; exact Bool.eq_false_iff.mp hp
          exact .inr (.inr ⟨cw, rest, m, a, hcq, hd, hset, fun h => hpass (.inl h), fun h => hpass (.inr h), h9, hlim⟩)
      · exact absurd (exec_config he hsoft fun m a h => hcfg ⟨m, a, h⟩) hne
  · by_cases hr : m = .hardReset
    · exact .inl ⟨rest, hr ▸ ha⟩
    · rw [eq_hostEffect_of_next hm] at hne
      exact absurd (hostEffect_config hr _) hne

/-! NEXT_CODE (10_state.md R30). -/

/-- The three commands that empty the dictionaries. -/
def emptiesDictionaries (i : Instr) : Prop := i = .softReset ∨ i = .encStart ∨ i = .decStart

/-- They are legal in every phase (44_control.md R255). -/
theorem legalIn_of_emptiesDictionaries {i : Instr} (h : emptiesDictionaries i) (p : Phase) : legalIn i p = true := by
  rcases h with rfl | rfl | rfl <;> rfl

/-- Every state they hand on has NEXT_CODE 256, one that raises an error too. -/
theorem commandBody_nextCode {i : Instr} (h : emptiesDictionaries i) (s : State) :
    (commandBody i s).Keeps (fun t => t.nextCode = 256) := by
  rcases h with rfl | rfl | rfl
  · exact rfl
  · show (setPhase .encActive (writeBits _ 8 (startCommon s))).nextCode = 256
    rw [setPhase_nextCode, writeBits_frame]; rfl
  · show (decStartBody s).Keeps _
    unfold decStartBody
    split
    · dsimp only
      split
      · exact rfl
      · show (takeHeader _ (readBits 8 (startCommon s)).2).nextCode = 256
        rw [takeHeader_nextCode, readBits_frame]; rfl
    · exact trivial

theorem errorEntry_nextCode (k : ErrKind) (cw : Word) (s : State) : (errorEntry k cw s).nextCode = s.nextCode := by
  unfold errorEntry
  split <;> rfl

/-- A command that empties the dictionaries leaves NEXT_CODE 256, or holds. -/
theorem exec_nextCode {i : Instr} {s t : State} (hi : emptiesDictionaries i) (h : exec i s = .next t) :
    t.nextCode = 256 ∨ t = s := by
  have hb := commandBody_nextCode hi s
  rw [exec_eq] at h
  rcases runCommand_next h with ⟨hl, -⟩ | ⟨-, ⟨u, hu, rfl⟩ | hu | ⟨-, rfl⟩ | ⟨k, u, hu, rfl⟩⟩
  · rw [legalIn_of_emptiesDictionaries hi] at hl; cases hl
  · rw [hu] at hb; exact .inl hb
  · rw [hu] at hb; exact .inl hb
  · exact .inr rfl
  · rw [hu] at hb; exact .inl ((errorEntry_nextCode _ _ u).trans hb)

/-- Settles O50: every command but those that empty the dictionaries only adds to them. -/
theorem nextCodeNeverDecreases : Obligations.NextCodeNeverDecreases := by
  intro s t h hb hstep
  obtain ⟨l, hc⟩ := step_blockTurn hb hstep
  rcases cycle_next hc with ⟨-, rfl⟩ | ⟨cw, rest, e, -, -, rfl⟩ | ⟨cw, rest, i, hcq, hd, he⟩
  · exact .inl le_rfl
  · exact .inl (grows_errorEntry .illegalCmd cw { s with agenda := l }).next
  · by_cases hi : emptiesDictionaries i
    · rcases exec_nextCode hi he with h256 | rfl
      · refine .inr ⟨h256, ?_⟩
        rcases hi with rfl | rfl | rfl
        · exact .inl ⟨hb, cw, rest, hcq, hd⟩
        · exact .inr (.inl ⟨hb, cw, rest, hcq, hd⟩)
        · exact .inr (.inr ⟨hb, cw, rest, hcq, hd⟩)
      · exact .inl le_rfl
    · obtain ⟨h1, h2, h3⟩ : i ≠ .softReset ∧ i ≠ .encStart ∧ i ≠ .decStart := by
        simpa [emptiesDictionaries] using hi
      exact .inl (exec_grows (h.setAgenda l) he h1 h2 h3).next

/-! Reset (10_state.md R53). -/

/-- With nothing listed DTAB is the 256 single bytes (10_state.md R40). -/
theorem dtabAt_nil (c : Nat) : dtabAt [] c = if c < 256 then some [BitVec.ofNat 8 c] else none := rfl

/-- Settles O15: the host's move and the body of SOFT_RESET are the same reset of the block. -/
theorem hardwareResetGivesTheResetValues : Obligations.HardwareResetGivesTheResetValues := by
  intro s rest ha t
  refine ⟨?_, dtabAt_nil, ?_⟩
  · rw [step_of_hostMove ha rfl]; rfl
  · rw [exec_completes (t := resetBlock s) rfl rfl]; rfl

/-- Settles O16: by evaluation of the sixteen words. -/
theorem windowAfterReset : Obligations.WindowAfterReset := by
  unfold Obligations.WindowAfterReset
  decide

/-! The register window (10_state.md R41 to R49). -/

/-- A write of a register other than CMD is ignored (20_memory.md R70 item 4). -/
theorem step_of_ignoredWrite {off : Nat} {w : Word} {rest : List Turn} {s : State}
    (ha : s.agenda = .host (.writeReg 32 off w) :: rest) (hw : windowDefined 32 off = true) (h0 : off ≠ 0) :
    step s = .next { s with agenda := rest } := by
  rw [step_of_hostMove ha (by simp [hostStalls, h0]), hostMove, if_pos hw, windowWrite, if_neg h0]

/-- The error entry and the removal of the word, as the obligations write them (60_exceptions.md R276). -/
theorem popCq_errorEntry (k : ErrKind) (cw : Word) (s : State) : popCq (errorEntry k cw s) = afterError k cw s := by
  unfold errorEntry afterError
  split
  · next hp => simp only [popCq, ← hp]
  · rfl

/-- A write of CMD stalls exactly while CQ is full (20_memory.md R69). -/
theorem hostStalls_writeCmd (w : Word) (s : State) :
    hostStalls (.writeReg 32 0 w) s = true ↔ s.params.cqDepth ≤ s.cq.length := by
  simp [hostStalls, cqFull]

/-- Settles O53: the write stalls exactly while CQ is full, and the step is then the block's cycle, which leaves the agenda. -/
theorem cmdWriteAppendsOrStalls : Obligations.CmdWriteAppendsOrStalls := by
  intro s w rest ha
  have hstall : s.params.cqDepth ≤ s.cq.length → step s = cycle s := fun hfull =>
    step_of_hostStalls ha ((hostStalls_writeCmd w s).mpr hfull)
  refine ⟨fun hfree => ?_, fun hfull cw tail hcq => ⟨fun i hd => ?_, fun e hd => ?_⟩, fun t hfull ht => ?_⟩
  · have hs : hostStalls (.writeReg 32 0 w) s = false := by
      rw [Bool.eq_false_iff, Ne, hostStalls_writeCmd]; omega
    rw [step_of_hostMove ha hs]; rfl
  · rw [hstall hfull, cycle, hcq]; simp only [hd]
  · rw [hstall hfull, cycle, hcq]; simp only [hd, popCq_errorEntry]
  · rw [hstall hfull] at ht
    exact (cycle_next_frame ht).1.agenda

/-- A field of a word, from its value as a number. -/
theorem extract_eq {n i k : Nat} {x : BitVec n} {f : BitVec k} (h : x.toNat / 2 ^ i % 2 ^ k = f.toNat) :
    x.extractLsb' i k = f :=
  BitVec.eq_of_toNat_eq ((toNat_extract x i k).trans h)

/-- Bits of a word that read as 0. -/
theorem extract_eq_zero {n i k : Nat} {x : BitVec n} (h : x.toNat / 2 ^ i % 2 ^ k = 0) : x.extractLsb' i k = 0 :=
  extract_eq (h.trans BitVec.toNat_zero.symm)

/-- A flag of a word, from its value as a number. -/
theorem getLsbD_eq_flag {n i : Nat} {x : BitVec n} {b : Bool} (h : x.toNat / 2 ^ i % 2 = (BitVec.ofBool b).toNat) :
    x.getLsbD i = b := by
  rw [getLsbD_eq, h, ofBool_dec]

/-- A bit of a word that reads as 0. -/
theorem getLsbD_eq_false {n i : Nat} {x : BitVec n} (h : x.toNat / 2 ^ i % 2 = 0) : x.getLsbD i = false := by
  rw [getLsbD_eq, h]; rfl

/-- Settles O54: each field of the word is cut out of its value as a number. -/
theorem statusLayout : Obligations.StatusLayout := by
  intro s
  have hw : (windowRead 0x04 s).toNat = _ := statusWord_toNat s
  have hphase := s.phase.bits.isLt
  have hbusy := ofBool_toNat_le (busy s)
  have herr := (errBits s.err).isLt
  have hwidth := s.width.isLt
  have hwCnt := s.wCnt.isLt
  have hrCnt := s.rCnt.isLt
  have hvalid := ofBool_toNat_le s.matchReg.valid
  refine ⟨?_, ?_, ?_, ?_, ?_, ?_, ?_, ?_, ?_, ?_, ?_, ?_⟩
  · exact extract_eq (f := s.phase.bits) (by rw [hw]; omega)
  · exact getLsbD_eq_flag (b := busy s) (by rw [hw]; omega)
  · exact extract_eq (f := errBits s.err) (by rw [hw]; omega)
  · exact extract_eq (by rw [hw]; omega)
  · exact extract_eq_zero (by rw [hw]; omega)
  · exact extract_eq (by rw [hw]; omega)
  · exact getLsbD_eq_false (by rw [hw]; omega)
  · exact extract_eq (by rw [hw]; omega)
  · exact getLsbD_eq_flag (by rw [hw]; omega)
  · exact extract_eq_zero (by rw [hw]; omega)
  · rfl
  · exact fun w rest ha => step_of_ignoredWrite ha rfl (by decide)

/-- The fields of CONFIG (10_state.md R43). -/
theorem configWord_fields (s : State) :
    (configWord s).extractLsb' 0 8 = s.config.maxBits ∧ (configWord s).getLsbD 8 = s.config.adaptive ∧
      (configWord s).extractLsb' 9 23 = 0 := by
  have hw := configWord_toNat s
  have hmaxBits := s.config.maxBits.isLt
  have hadaptive := ofBool_toNat_le s.config.adaptive
  refine ⟨extract_eq ?_, getLsbD_eq_flag ?_, extract_eq_zero ?_⟩ <;> rw [hw] <;> omega

/-- The fields of RESULT (10_state.md R44). -/
theorem resultWord_fields (s : State) :
    (resultWord s).extractLsb' 0 24 = s.result.value ∧ (resultWord s).getLsbD 24 = s.result.valid ∧
      (resultWord s).getLsbD 25 = s.result.nodata ∧ (resultWord s).getLsbD 26 = s.result.midcode ∧
      (resultWord s).extractLsb' 27 5 = 0 := by
  have hw := resultWord_toNat s
  have hvalue := s.result.value.isLt
  have hvalid := ofBool_toNat_le s.result.valid
  have hnodata := ofBool_toNat_le s.result.nodata
  have hmidcode := ofBool_toNat_le s.result.midcode
  refine ⟨extract_eq ?_, getLsbD_eq_flag ?_, getLsbD_eq_flag ?_, getLsbD_eq_flag ?_, extract_eq_zero ?_⟩ <;>
    rw [hw] <;> omega

/-- The fields of NEXT_CODE (10_state.md R45). -/
theorem nextCodeWord_fields (s : State) :
    (nextCodeWord s).extractLsb' 0 25 = s.nextCode ∧ (nextCodeWord s).extractLsb' 25 7 = 0 := by
  have hw := nextCodeWord_toNat s
  have hcode := s.nextCode.isLt
  refine ⟨extract_eq ?_, extract_eq_zero ?_⟩ <;> rw [hw] <;> omega

/-- The fields of MATCH (10_state.md R46). -/
theorem matchWord_fields (s : State) :
    (matchWord s).extractLsb' 0 24 = s.matchReg.code ∧ (matchWord s).extractLsb' 24 7 = 0 ∧
      (matchWord s).getLsbD 31 = s.matchReg.valid := by
  have hw := matchWord_toNat s
  have hcode := s.matchReg.code.isLt
  have hvalid := ofBool_toNat_le s.matchReg.valid
  refine ⟨extract_eq ?_, extract_eq_zero ?_, getLsbD_eq_flag ?_⟩ <;> rw [hw] <;> omega

/-- The fields of HDR (10_state.md R48). -/
theorem hdrWord_fields (s : State) :
    (hdrWord s).extractLsb' 0 8 = s.hdr.byte ∧ (hdrWord s).getLsbD 8 = s.hdr.valid ∧
      (hdrWord s).extractLsb' 9 23 = 0 := by
  have hw := hdrWord_toNat s
  have hbyte := s.hdr.byte.isLt
  have hvalid := ofBool_toNat_le s.hdr.valid
  refine ⟨extract_eq ?_, getLsbD_eq_flag ?_, extract_eq_zero ?_⟩ <;> rw [hw] <;> omega

/-- The reserved offsets of the window read as 0 (10_state.md R41). -/
theorem windowRead_reserved (s : State) (off : Nat) (h : off ∈ [0x2C, 0x30, 0x34, 0x38, 0x3C]) : windowRead off s = 0 := by
  simp only [List.mem_cons, List.not_mem_nil, or_false] at h
  rcases h with rfl | rfl | rfl | rfl | rfl <;> rfl

/-- Settles O55: the layout of each register's word, the counters and ERRCMD as they stand, and the window after reset. -/
theorem otherRegisterLayouts : Obligations.OtherRegisterLayouts := by
  intro s
  obtain ⟨-, -, hconfig, hresult, hnextCode, hmatch, hcntIn, hcntOut, hcntCodes, hhdr, herrcmd, -⟩ := windowAfterReset
  exact ⟨configWord_fields s, resultWord_fields s, nextCodeWord_fields s, matchWord_fields s, ⟨rfl, rfl, rfl⟩,
    hdrWord_fields s, rfl, rfl, windowRead_reserved s,
    hconfig, hresult, hnextCode, hmatch, hcntIn, hcntOut, hcntCodes, hhdr, herrcmd⟩

end Sys2Proof.Machine

/-!
The memory and the ports of the block (20_memory.md): what the host's accesses do, what a step takes from IN and CQ and adds to
OUT, when a command holds, that input still to come does not matter, and the bounds on the sequences bound to codes.
-/

namespace Sys2Proof.Machine

open Sys2Proof.Claims

/-! The host's accesses (20_memory.md R62, R70). -/

/-- The accesses of the window that the spec defines (20_memory.md R70 item 1). -/
theorem windowDefined_iff (size off : Nat) :
    windowDefined size off = true ↔ size = 32 ∧ off % 4 = 0 ∧ off ≤ 0x3C := by
  simp only [windowDefined, Bool.and_eq_true, decide_eq_true_eq, and_assoc]

/-- A register write touches CQ alone (20_memory.md R70 items 3, 4). -/
theorem windowWrite_eq (off : Nat) (w : Word) (s : State) :
    windowWrite off w s = { s with cq := if off = 0 then s.cq ++ [w] else s.cq } := by
  unfold windowWrite
  split <;> rfl

/-- A register write that does not stall the host is made where the access is defined, and refused elsewhere. -/
theorem step_of_writeReg {size off : Nat} {w : Word} {rest : List Turn} {s : State}
    (ha : s.agenda = .host (.writeReg size off w) :: rest) (hs : hostStalls (.writeReg size off w) s = false) :
    step s = if size = 32 ∧ off % 4 = 0 ∧ off ≤ 0x3C then
      .next { s with agenda := rest, cq := if off = 0 then s.cq ++ [w] else s.cq } else .refused .windowAccess := by
  rw [step_of_hostMove ha hs, hostMove, windowWrite_eq]
  exact if_congr (windowDefined_iff size off) rfl rfl

/-- Settles O52: a read never stalls, and a write does not while CQ has a free slot or where it is no write of CMD. -/
theorem windowAccessesAsDefined : Obligations.WindowAccessesAsDefined := by
  intro s size off w rest
  refine ⟨fun ha => ?_, fun ha hfree => ?_, fun ha hcmd => ?_⟩
  · rw [step_of_hostMove ha rfl, hostMove]
    exact if_congr (windowDefined_iff size off) rfl rfl
  · have hs : hostStalls (.writeReg size off w) s = false := by simp [hostStalls, cqFull, hfree]
    exact step_of_writeReg ha hs
  · have hs : hostStalls (.writeReg size off w) s = false := by
      rcases hcmd with h | h <;> simp [hostStalls, h]
    rw [step_of_writeReg ha hs]
    split
    · next hd => rw [if_neg (hcmd.resolve_left (not_not_intro hd.1))]
    · rfl

/-- The input of the running pass is ended (70_reset_and_hazards.md R309; log 9). -/
theorem inputEnded_iff (s : State) :
    inputEnded s = true ↔ (s.phase = .encActive ∨ s.phase = .decActive) ∧ s.eosOwner = some .thisPass := by
  rw [inputEnded, Bool.and_eq_true, inPass_iff, decide_eq_true_eq]

/-- Settles O56: none of these moves stalls the host, so each is made or refused as `hostMove` says. -/
theorem hostFeedsTheInputPort : Obligations.HostFeedsTheInputPort := by
  intro s b rest
  refine ⟨fun ha => ?_, fun ha => ?_, fun ha => ?_, fun ha => ?_⟩ <;> rw [step_of_hostMove ha rfl, hostMove]
  · exact if_congr (by rw [Bool.and_eq_true, inPass_iff]) rfl rfl
  · rw [setEos, apply_ite some]
    simp only [inPass_iff]
  · exact if_congr (inputEnded_iff _) rfl rfl
  · exact if_congr (inputEnded_iff _) rfl rfl

/-! The ports and CQ in a step (20_memory.md R63, R64, R69). -/

/-- No move of the host touches OUT_LOG (20_memory.md R64). -/
theorem hostEffect_outLog (m : HostMove) (s : State) : (hostEffect m s).outLog = s.outLog := by
  cases m with
  | writeReg size off w => rw [hostEffect, windowWrite_eq]
  | readReg | pushIn | setEos | clearEos | discardIn | drainOut | hardReset => rfl

/-- Settles O45: a cycle only adds to OUT_LOG, by its frame, and a move of the host leaves it. -/
theorem outputIsNeverWithdrawn : Obligations.OutputIsNeverWithdrawn := by
  intro s t hstep
  rcases step_next hstep with ⟨l, -, hc⟩ | ⟨m, rest, -, -, hm⟩
  · exact (cycle_next_frame hc).1.outLog
  · rw [eq_hostEffect_of_next hm, hostEffect_outLog]
    exact ⟨[], (List.append_nil _).symm⟩

/-- Settles O46: the frame of a cycle. -/
theorem blockTakesInputAndCommandsInOrder : Obligations.BlockTakesInputAndCommandsInOrder := by
  intro s t hb hstep
  obtain ⟨l, hc⟩ := step_blockTurn hb hstep
  obtain ⟨hf, hcq, -⟩ := cycle_next_frame hc
  exact ⟨hf.inQ, hcq, hf.inEos, hf.outTaken, hf.hostData, hf.params⟩

/-! When a command holds (20_memory.md R67). -/

theorem runIteration_eq_holds (p : Phase) (r : Progress) : runIteration p r = .holds ↔ r = .holds := by
  cases r with
  | completes t =>
    rw [runIteration]
    split <;> simp
  | continues | holds | raises | undefinedRead => simp [runIteration]

theorem inPop_eq_none (s : State) : inPop s = none ↔ s.inQ = [] := by
  cases hq : s.inQ <;> simp [inPop, hq]

theorem encStepBody_eq_holds (s : State) : encStepBody s = .holds ↔ s.inQ = [] ∧ s.inEos = false := by
  rw [← inPop_eq_none]
  cases hp : inPop s <;> simp [encStepBody, hp]

theorem decStartBody_eq_holds (s : State) : decStartBody s = .holds ↔ s.inQ = [] ∧ s.inEos = false := by
  have hready : inputReady s = false ↔ s.inQ = [] ∧ s.inEos = false := by
    rw [← Bool.not_eq_true, inputReady_iff]; simp
  rw [← hready]
  unfold decStartBody
  dsimp only
  split
  · next h =>
    rw [h]
    split <;> simp
  · next h => simpa using h

/-- A read of `w` bits is not enabled: too few bits have arrived, and more may come. -/
theorem readEnabled_eq_false (w : Nat) (s : State) :
    readEnabled w s = false ↔ s.rCnt.toNat + 8 * s.inQ.length < w ∧ s.inEos = false := by
  rw [← Bool.not_eq_true, readEnabled_iff]; simp

theorem decStepBody_eq_holds (s : State) :
    decStepBody s = .holds ↔ s.rCnt.toNat + 8 * s.inQ.length < s.width.toNat ∧ s.inEos = false := by
  rw [← readEnabled_eq_false]
  cases hr : readEnabled s.width.toNat s with
  | true => simp [decStepBody_ne_holds s hr]
  | false => simp [decStepBody, hr]

theorem bsReadBody_eq_holds (w : BitVec 5) (s : State) :
    bsReadBody w s = .holds ↔ s.rCnt.toNat + 8 * s.inQ.length < w.toNat ∧ s.inEos = false := by
  rw [← readEnabled_eq_false]
  cases hr : readEnabled w.toNat s <;> simp [bsReadBody, hr]

/-- The negation of the table of 20_memory.md R67 is what makes a legal command's body hold. -/
theorem holdsIn_iff (i : Instr) (s : State) :
    holdsIn i s ↔ legalIn i s.phase = true ∧ commandBody i s = .holds := by
  cases i with
  | encStep => simp [holdsIn, legalIn, commandBody, encStepBody_eq_holds]
  | encRun => simp [holdsIn, legalIn, commandBody, runIteration_eq_holds, encStepBody_eq_holds]
  | decStart => simp [holdsIn, legalIn, commandBody, decStartBody_eq_holds]
  | decStep => simp [holdsIn, legalIn, commandBody, decStepBody_eq_holds]
  | decRun => simp [holdsIn, legalIn, commandBody, runIteration_eq_holds, decStepBody_eq_holds]
  | bsRead w => simp [holdsIn, legalIn, commandBody, bsReadBody_eq_holds, rawLegal_iff, rawPhase]
  | nop => simp [holdsIn, commandBody, nopBody]
  | softReset => simp [holdsIn, commandBody, softResetBody]
  | cfg m a =>
    have h : cfgBody m a s ≠ .holds := by unfold cfgBody; split <;> simp
    simp [holdsIn, commandBody, h]
  | encStart => simp [holdsIn, commandBody, encStartBody]
  | bsFlush => simp [holdsIn, commandBody, bsFlushBody]
  | bsWrite w v => simp [holdsIn, commandBody, bsWriteBody]

/-- Settles O9: a command holds exactly where its body does, and an empty CQ gives no cycle. -/
theorem heldCommandAndEmptyQueueChangeNothing : Obligations.HeldCommandAndEmptyQueueChangeNothing := by
  refine ⟨fun i s h => ?_, fun s ha hcq => ?_⟩
  · obtain ⟨hl, hb⟩ := (holdsIn_iff i s).mp h
    exact exec_holds hl hb
  · rw [step, takeTurn, ha]
    show cycle s = _
    rw [cycle, hcq]

/-! Input behind what a command needs (20_memory.md R66, 42_encode.md R205): every operation commutes with bytes added at the
tail of IN, a read where its bits have arrived. -/

section LaterInput

variable (l : Bytes)

/-- The same end of a cycle, with `f` of the states it hands on. -/
def Progress.map (f : State → State) : Progress → Progress
  | .completes t => .completes (f t)
  | .continues t => .continues (f t)
  | .holds => .holds
  | .raises k t => .raises k (f t)
  | .undefinedRead => .undefinedRead

theorem runIteration_map_withInput (p : Phase) (r : Progress) :
    runIteration p (r.map (withInput l)) = (runIteration p r).map (withInput l) := by
  cases r with
  | completes t => exact (apply_ite (Progress.map (withInput l)) (t.phase = p) (.continues t) (.completes t)).symm
  | continues | holds | raises | undefinedRead => rfl

@[simp] theorem withInput_phase (s : State) : (withInput l s).phase = s.phase := rfl
@[simp] theorem withInput_width (s : State) : (withInput l s).width = s.width := rfl
@[simp] theorem withInput_nextCode (s : State) : (withInput l s).nextCode = s.nextCode := rfl
@[simp] theorem withInput_matchReg (s : State) : (withInput l s).matchReg = s.matchReg := rfl
@[simp] theorem withInput_rCnt (s : State) : (withInput l s).rCnt = s.rCnt := rfl
@[simp] theorem withInput_config (s : State) : (withInput l s).config = s.config := rfl
@[simp] theorem withInput_dtab (s : State) : (withInput l s).dtab = s.dtab := rfl
@[simp] theorem withInput_inQ (s : State) : (withInput l s).inQ = s.inQ ++ l := rfl
@[simp] theorem eChild_withInput (p : Code) (b : Byte) (s : State) : eChild p b (withInput l s) = eChild p b s := rfl
@[simp] theorem dGet_withInput (c : Code) (s : State) : dGet c (withInput l s) = dGet c s := rfl

@[simp] theorem setMatch_withInput (c : Code) (s : State) : setMatch c (withInput l s) = withInput l (setMatch c s) := rfl
@[simp] theorem setPhase_withInput (p : Phase) (s : State) : setPhase p (withInput l s) = withInput l (setPhase p s) := rfl
@[simp] theorem countCode_withInput (s : State) : countCode (withInput l s) = withInput l (countCode s) := rfl
@[simp] theorem popCq_withInput (s : State) : popCq (withInput l s) = withInput l (popCq s) := rfl
@[simp] theorem takeHeader_withInput (b : Byte) (s : State) :
    takeHeader b (withInput l s) = withInput l (takeHeader b s) := rfl
@[simp] theorem startCommon_withInput (s : State) : startCommon (withInput l s) = withInput l (startCommon s) := rfl

@[simp] theorem errorEntry_withInput (k : ErrKind) (cw : Word) (s : State) :
    errorEntry k cw (withInput l s) = withInput l (errorEntry k cw s) := by
  rw [errorEntry, errorEntry, apply_ite (withInput l)]; rfl

/-! The writer. -/

@[simp] theorem writeBit_withInput (b : Bool) (s : State) : writeBit b (withInput l s) = withInput l (writeBit b s) := by
  rw [writeBit, writeBit, apply_ite (withInput l)]; rfl

@[simp] theorem writeBits_withInput (v : BitVec 24) (n : Nat) (s : State) :
    writeBits v n (withInput l s) = withInput l (writeBits v n s) := by
  induction n generalizing s with
  | zero => rfl
  | succ n ih => rw [writeBits, writeBit_withInput, ih, writeBits]

@[simp] theorem flush_withInput (s : State) : flush (withInput l s) = withInput l (flush s) := by
  rw [flush, flush, apply_ite (withInput l)]; rfl

@[simp] theorem outPushAll_withInput (q : Bytes) (s : State) :
    outPushAll q (withInput l s) = withInput l (outPushAll q s) := by
  induction q generalizing s with
  | nil => rfl
  | cons b rest ih => exact ih (outPush b s)

/-! The reader. -/

theorem inPop_withInput {b : Byte} {s t : State} (h : inPop s = some (b, t)) :
    inPop (withInput l s) = some (b, withInput l t) := by
  obtain ⟨hq, ht⟩ := inPop_frame h
  rw [inPop_cons (rest := t.inQ ++ l) (by rw [withInput_inQ, hq, List.cons_append]), ht]
  rfl

theorem readBit_withInput {b f : Bool} {s t : State} (h : readBit s = some (b, f, t)) :
    readBit (withInput l s) = some (b, f, withInput l t) := by
  unfold readBit at h ⊢
  rw [withInput_rCnt]
  split at h
  · next h0 =>
    rw [if_pos h0]
    cases hp : inPop s with
    | none => simp [hp] at h
    | some q =>
      rw [hp] at h
      cases h
      rw [inPop_withInput l hp]
      rfl
  · next h0 =>
    rw [if_neg h0]
    cases h
    rfl

/-- A read whose bits have arrived does not see the bytes behind them. -/
theorem readLoop_withInput (n : Nat) (v : BitVec 24) (f : Bool) (s : State) (h : n ≤ (unreadBits s).length) :
    readLoop n v f (withInput l s) = ((readLoop n v f s).1, withInput l (readLoop n v f s).2) := by
  induction n generalizing v f s with
  | zero => rfl
  | succ n ih =>
    cases hb : readBit s with
    | none => rw [(readBit_none hb).1] at h; simp at h
    | some q =>
      obtain ⟨b, g, t⟩ := q
      have hn : n ≤ (unreadBits t).length := by rw [(readBit_some hb).1] at h; simpa using h
      simp only [readLoop, readBit_withInput l hb, hb]
      exact ih _ _ t hn

theorem readBits_withInput {w : Nat} {s : State} (h : w ≤ s.rCnt.toNat + 8 * s.inQ.length) :
    readBits w (withInput l s) = ((readBits w s).1, withInput l (readBits w s).2) :=
  readLoop_withInput l w 0 false s (by rw [length_unreadBits]; exact h)

/-- A read that was enabled stays enabled. -/
theorem readEnabled_withInput {w : Nat} {s : State} (h : w ≤ s.rCnt.toNat + 8 * s.inQ.length) :
    readEnabled w (withInput l s) = true := by
  rw [readEnabled_iff, withInput_rCnt, withInput_inQ, List.length_append]
  exact .inl (by omega)

/-! The encode pipeline (42_encode.md). -/

@[simp] theorem emitMatch_withInput (s : State) : emitMatch (withInput l s) = withInput l (emitMatch s) :=
  congrArg countCode (writeBits_withInput l _ _ s)

theorem encWiden_withInput (s : State) : encWiden (withInput l s) = withInput l (encWiden s) :=
  (apply_ite (withInput l) _ (widen s) s).symm

@[simp] theorem encInsert_withInput (b : Byte) (s : State) :
    encInsert b (withInput l s) = withInput l (encInsert b s) := by
  rw [encInsert, encInsert, apply_ite (withInput l), ← encWiden_withInput]; rfl

theorem encByte_withInput (b : Byte) (s : State) : encByte b (withInput l s) = withInput l (encByte b s) := by
  cases hv : s.matchReg.valid with
  | false => simp [encByte, hv]
  | true => cases hc : eChild s.matchReg.code b s <;> simp [encByte, hv, hc]

theorem encStepBody_withInput {s : State} (heos : s.inEos = false) (hb : encStepBody s ≠ .holds) :
    encStepBody (withInput l s) = (encStepBody s).map (withInput l) := by
  cases hp : inPop s with
  | none => exact absurd ((encStepBody_eq_holds s).mpr ⟨(inPop_eq_none s).mp hp, heos⟩) hb
  | some q =>
    obtain ⟨b, t⟩ := q
    simp only [encStepBody, inPop_withInput l hp, hp, encByte_withInput, Progress.map]

/-! The decode pipeline (43_decode.md). -/

theorem decWiden_withInput (s : State) : decWiden (withInput l s) = withInput l (decWiden s) :=
  (apply_ite (withInput l) _ (widen s) s).symm

theorem dExtend_withInput (q : Bytes) (b : Byte) (s : State) :
    dExtend q b (withInput l s) = withInput l (dExtend q b s) := by
  rw [dExtend, dExtend, apply_ite (withInput l)]; rfl

@[simp] theorem decExtend_withInput (q : Bytes) (b : Byte) (s : State) :
    decExtend q b (withInput l s) = withInput l (decExtend q b s) := by
  rw [decExtend, decExtend, apply_ite (withInput l), ← decWiden_withInput, ← dExtend_withInput]; rfl

theorem emitEntry_withInput (code : Code) (cur entry : Bytes) (s : State) :
    emitEntry code cur entry (withInput l s) = (emitEntry code cur entry s).map (withInput l) := by
  cases entry <;> simp [emitEntry, Progress.map]

theorem laterCode_withInput (code : Code) (cur : Bytes) (s : State) :
    laterCode code cur (withInput l s) = (laterCode code cur s).map (withInput l) := by
  cases hg : dGet code s with
  | found q => simp [laterCode, hg, emitEntry_withInput]
  | undefined => simp [laterCode, hg, Progress.map]
  | notFound =>
    by_cases hn : code.toNat = s.nextCode.toNat
    · cases cur <;> simp [laterCode, hg, hn, emitEntry_withInput, Progress.map]
    · simp [laterCode, hg, hn, Progress.map]

theorem firstCode_withInput (code : Code) (s : State) :
    firstCode code (withInput l s) = (firstCode code s).map (withInput l) := by
  rw [firstCode, firstCode, apply_ite (Progress.map (withInput l))]; rfl

theorem takeRead_withInput (r : ReadResult) (s : State) :
    takeRead r (withInput l s) = (takeRead r s).map (withInput l) := by
  cases r with
  | nodata mid => cases mid <;> rfl
  | ok code =>
    rw [takeRead, takeRead]
    cases hv : s.matchReg.valid with
    | false => simp [takeCode, hv, firstCode_withInput]
    | true =>
      cases hd : dtabAt s.dtab s.matchReg.code.toNat <;>
        simp [takeCode, hv, hd, laterCode_withInput, Progress.map]

/-- Where InEOS is clear, a read that does not hold has its bits. -/
theorem bits_arrived {w : Nat} {s : State} (heos : s.inEos = false)
    (h : ¬ (s.rCnt.toNat + 8 * s.inQ.length < w ∧ s.inEos = false)) : w ≤ s.rCnt.toNat + 8 * s.inQ.length := by
  rw [not_and_or] at h
  exact Nat.le_of_not_lt (h.resolve_right (not_not_intro heos))

theorem decStepBody_withInput {s : State} (heos : s.inEos = false) (hb : decStepBody s ≠ .holds) :
    decStepBody (withInput l s) = (decStepBody s).map (withInput l) := by
  rw [Ne, decStepBody_eq_holds] at hb
  have hw := bits_arrived heos hb
  rw [decStepBody, decStepBody, if_pos ((readEnabled_iff _ _).mpr (.inl hw)), withInput_width,
    if_pos (readEnabled_withInput l hw), readBits_withInput l hw]
  exact takeRead_withInput l _ (recordRead _ _)

theorem bsReadBody_withInput {w : BitVec 5} {s : State} (heos : s.inEos = false) (hb : bsReadBody w s ≠ .holds) :
    bsReadBody w (withInput l s) = (bsReadBody w s).map (withInput l) := by
  rw [Ne, bsReadBody_eq_holds] at hb
  have hw := bits_arrived heos hb
  rw [bsReadBody, bsReadBody, if_pos ((readEnabled_iff _ _).mpr (.inl hw)), if_pos (readEnabled_withInput l hw),
    readBits_withInput l hw]
  rfl

theorem decStartBody_withInput {s : State} (heos : s.inEos = false) (hb : decStartBody s ≠ .holds) :
    decStartBody (withInput l s) = (decStartBody s).map (withInput l) := by
  rw [Ne, decStartBody_eq_holds] at hb
  cases hq : s.inQ with
  | nil => exact absurd ⟨hq, heos⟩ hb
  | cons b rest =>
    have hw : 8 ≤ (startCommon s).rCnt.toNat + 8 * (startCommon s).inQ.length := by
      rw [startCommon_inQ, hq, List.length_cons]; omega
    simp [decStartBody, inputReady, inAvail, hq, readBits_withInput l hw, Progress.map]

/-- A body that does not hold does the same with more input behind. -/
theorem commandBody_withInput {i : Instr} {s : State} (heos : s.inEos = false) (hb : commandBody i s ≠ .holds) :
    commandBody i (withInput l s) = (commandBody i s).map (withInput l) := by
  cases i with
  | nop | softReset => rfl
  | cfg m a => exact (apply_ite (Progress.map (withInput l)) _ (.completes (setConfig m a s)) (.raises .badConfig s)).symm
  | encStart => simp [commandBody, encStartBody, Progress.map]
  | encStep => exact encStepBody_withInput l heos hb
  | encRun =>
    rw [commandBody, Ne, runIteration_eq_holds] at hb
    show runIteration .encActive (encStepBody (withInput l s)) = _
    rw [encStepBody_withInput l heos hb, runIteration_map_withInput]; rfl
  | decStart => exact decStartBody_withInput l heos hb
  | decStep => exact decStepBody_withInput l heos hb
  | decRun =>
    rw [commandBody, Ne, runIteration_eq_holds] at hb
    show runIteration .decActive (decStepBody (withInput l s)) = _
    rw [decStepBody_withInput l heos hb, runIteration_map_withInput]; rfl
  | bsFlush => exact congrArg Progress.completes (flush_withInput l s)
  | bsWrite w v => exact congrArg Progress.completes (writeBits_withInput l _ _ s)
  | bsRead w => exact bsReadBody_withInput l heos hb

end LaterInput

/-- Settles O48: by how the command ends; its body, the error entry and the removal of its word commute with later input. -/
theorem laterInputDoesNotChangeACommand : Obligations.LaterInputDoesNotChangeACommand := by
  intro i s t l heos hhold hexec
  have hbody : legalIn i s.phase = true → commandBody i (withInput l s) = (commandBody i s).map (withInput l) :=
    fun hl => commandBody_withInput l heos fun hb => hhold ((holdsIn_iff i s).mpr ⟨hl, hb⟩)
  rw [exec_eq] at hexec
  rcases runCommand_next hexec with ⟨hl, rfl⟩ | ⟨hl, ⟨u, hu, rfl⟩ | hu | ⟨hu, -⟩ | ⟨k, u, hu, rfl⟩⟩
  · rw [exec_eq, runCommand_illegal (by exact hl), errorEntry_withInput, popCq_withInput]
  · exact exec_completes (s := withInput l s) (t := withInput l u) hl (by rw [hbody hl, hu]; rfl)
  · exact exec_continues (s := withInput l s) hl (by rw [hbody hl, hu]; rfl)
  · exact absurd ((holdsIn_iff i s).mpr ⟨hl, hu⟩) hhold
  · rw [exec_raises (s := withInput l s) (t := withInput l u) hl (by rw [hbody hl, hu]; rfl), errorEntry_withInput, popCq_withInput]

/-! The sequences bound to codes (20_memory.md R84). -/

/-- Towards the root each parent is a smaller code, so a code's sequence is one byte longer than that of a smaller one. -/
theorem seqEWithin_bounded {d : Dict Code} {n : Nat} (hd : TrieInv d n) (hw : Dict.wf d = true) (fuel : Nat) :
    ∀ c : Code, c.toNat ≤ fuel → c.toNat < n →
      ∃ q, seqEWithin d fuel c = some q ∧ q ≠ [] ∧ q.length ≤ max 1 (c.toNat - 254) := by
  induction fuel with
  | zero =>
    intro c hc _
    have hs : c.toNat < Config.nSingle := by rw [Nat.le_zero.mp hc]; decide
    exact ⟨[c.setWidth 8], by rw [seqEWithin, if_pos hs], by simp, by simp⟩
  | succ fuel ih =>
    intro c hc hn
    rw [seqEWithin]
    split
    · exact ⟨[c.setWidth 8], rfl, by simp, by simp⟩
    · next hs =>
      have h256 : 256 ≤ c.toNat := Nat.le_of_not_lt hs
      obtain ⟨p, b, hp, -, hlt⟩ := hd.parent hw h256 hn
      obtain ⟨q, hq, -, hlen⟩ := ih p (by omega) (by omega)
      refine ⟨q ++ [b], by simp [hp, hq], by simp, ?_⟩
      rw [List.length_append, List.length_singleton]
      omega

/-- Settles O32: the trie by its parents, the table by its clause of the invariant. -/
theorem everyCodeHasItsBoundedSequence : Obligations.EveryCodeHasItsBoundedSequence := by
  refine ⟨fun s c h hp hc => ?_, fun s c h hp hc => ?_⟩
  · exact seqEWithin_bounded (h.trie hp) ((memory_wf_iff s).mp h.memory).1 c.toNat c le_rfl hc
  · obtain ⟨q, hq⟩ := ((h.table hp).defined c).mpr hc
    exact ⟨q, hq, (h.table hp).bounded c q hq⟩

end Sys2Proof.Machine

/-!
The command encoding (30_encoding.md): decoder and encoder undo each other, the illegal words, the commands that the assembler
names, and the range of the code that an encode pass writes.
-/

namespace Sys2Proof.Machine

open Sys2Proof.Claims

/-! The decoder, one equation for each group of the opcode table (30_encoding.md R99). -/

theorem decode_ctl (f : BitVec 5) (a : BitVec 24) : decode (commandWord 0b000#3 f a) = decodeCtl f a := by
  simp [decode]

theorem decode_bsWrite (w : BitVec 5) (v : BitVec 24) : decode (commandWord 0b001#3 w v) =
    if legalWidth w then .ok (.bsWrite w v) else .error .widthTooLarge := by
  simp [decode]

theorem decode_bsRead (w : BitVec 5) (a : BitVec 24) : decode (commandWord 0b010#3 w a) =
    if legalWidth w then if a = 0 then .ok (.bsRead w) else .error .readArgNotZero else .error .widthTooLarge := by
  simp [decode]

theorem decode_reservedOpc {o : BitVec 3} (ho : 3 ≤ o.toNat) (f : BitVec 5) (a : BitVec 24) :
    decode (commandWord o f a) = .error .reservedOpc := by
  have h0 : o ≠ 0b000#3 := by rintro rfl; exact absurd ho (by decide)
  have h1 : o ≠ 0b001#3 := by rintro rfl; exact absurd ho (by decide)
  have h2 : o ≠ 0b010#3 := by rintro rfl; exact absurd ho (by decide)
  rw [decode, opcOf_commandWord, if_neg h0, if_neg h1, if_neg h2]

theorem decodeCtl_cfg (a : BitVec 24) : decodeCtl 0b00010#5 a =
    if argHigh a = 0 then .ok (.cfg (argMaxBits a) (argAdaptive a)) else .error .cfgReservedBits :=
  if_pos rfl

theorem decodeCtl_plain {f : BitVec 5} {i : Instr} (h : plainCommand f = some i) (a : BitVec 24) :
    decodeCtl f a = if a = 0 then .ok i else .error .argNotZero := by
  rw [decodeCtl, if_neg (plainCommand_decode h).1, h]

theorem decodeCtl_reservedFn {f : BitVec 5} (hf : f ≠ 0b00010#5) (h : plainCommand f = none) (a : BitVec 24) :
    decodeCtl f a = .error .reservedFn := by
  rw [decodeCtl, if_neg hf, h]

/-- The groups of OPC (30_encoding.md R98, R100 item 1). -/
theorem opc_cases (o : BitVec 3) : o = 0b000#3 ∨ o = 0b001#3 ∨ o = 0b010#3 ∨ 3 ≤ o.toNat := by
  revert o; decide

/-- The kinds of FN in the CTL group (30_encoding.md R98, R100 item 2). -/
theorem fn_cases (f : BitVec 5) :
    f = 0b00010#5 ∨ (f ≠ 0b00010#5 ∧ plainCommand f = none) ∨ ∃ i, plainCommand f = some i := by
  cases h : plainCommand f with
  | none => simpa using em (f = 0b00010#5)
  | some i => exact .inr (.inr ⟨i, rfl⟩)

/-- Every word is the word of some three fields (30_encoding.md R92). -/
theorem exists_commandWord_eq (cw : Word) : ∃ o f a, commandWord o f a = cw :=
  ⟨opcOf cw, fnOf cw, argOf cw, commandWord_fields cw⟩

/-! Decoding the word of a command (30_encoding.md R93 to R99). -/

/-- A listed FN with ARG 0 is the word of its command, and decodes to it (30_encoding.md R98). -/
theorem decode_encode_plain {f : BitVec 5} {i : Instr} (h : plainCommand f = some i) : decode (encode i) = .ok i := by
  rw [(plainCommand_decode h).2.1, decode_ctl, decodeCtl_plain h, if_pos rfl]

theorem decode_encode_cfg (m : BitVec 8) (a : Bool) : decode (encode (.cfg m a)) = .ok (.cfg m a) := by
  rw [encode, decode_ctl, decodeCtl_cfg, if_pos (argHigh_cfgArg m a), argMaxBits_cfgArg, argAdaptive_cfgArg]

/-- Settles O1: CFG by its two operands, BS_WRITE and BS_READ by their legal width, every other command by its FN. -/
theorem decodeOfEncodeGivesTheCommandBack : Obligations.DecodeOfEncodeGivesTheCommandBack := by
  intro i hi
  cases i with
  | nop => exact decode_encode_plain (f := 0b00000#5) rfl
  | softReset => exact decode_encode_plain (f := 0b00001#5) rfl
  | cfg m a => exact decode_encode_cfg m a
  | encStart => exact decode_encode_plain (f := 0b00100#5) rfl
  | encStep => exact decode_encode_plain (f := 0b00101#5) rfl
  | encRun => exact decode_encode_plain (f := 0b00110#5) rfl
  | decStart => exact decode_encode_plain (f := 0b01000#5) rfl
  | decStep => exact decode_encode_plain (f := 0b01001#5) rfl
  | decRun => exact decode_encode_plain (f := 0b01010#5) rfl
  | bsFlush => exact decode_encode_plain (f := 0b10000#5) rfl
  | bsWrite w v => exact (decode_bsWrite w v).trans (if_pos hi)
  | bsRead w => exact (decode_bsRead w 0).trans (if_pos hi)

/-! A word that decodes (30_encoding.md R99, R100). -/

theorem decodeCtl_eq_ok {f : BitVec 5} {a : BitVec 24} {i : Instr} (h : decodeCtl f a = .ok i) :
    i.wellFormed = true ∧ encode i = commandWord 0b000#3 f a := by
  rcases fn_cases f with rfl | ⟨hf, hn⟩ | ⟨j, hj⟩
  · rw [decodeCtl_cfg] at h
    split at h
    · next ha =>
      cases h
      exact ⟨rfl, by rw [encode, cfgArg_fields a ha]⟩
    · cases h
  · rw [decodeCtl_reservedFn hf hn] at h
    cases h
  · obtain ⟨-, henc, hwf⟩ := plainCommand_decode hj
    rw [decodeCtl_plain hj] at h
    split at h
    · next ha =>
      cases h
      exact ⟨hwf, by rw [henc, ha]⟩
    · cases h

/-- Settles O2: by the group of the word. -/
theorem encodeOfDecodeGivesTheWordBack : Obligations.EncodeOfDecodeGivesTheWordBack := by
  intro cw i h
  obtain ⟨o, f, a, rfl⟩ := exists_commandWord_eq cw
  rcases opc_cases o with rfl | rfl | rfl | ho
  · rw [decode_ctl] at h
    exact decodeCtl_eq_ok h
  · rw [decode_bsWrite] at h
    split at h
    · next hw => cases h; exact ⟨hw, rfl⟩
    · cases h
  · rw [decode_bsRead] at h
    split at h
    · next hw =>
      split at h
      · next ha => cases h; exact ⟨hw, by rw [encode, ha]⟩
      · cases h
    · cases h
  · rw [decode_reservedOpc ho] at h
    cases h

/-! The illegal words (30_encoding.md R100). -/

theorem unlisted_of_plainCommand_eq_none : ∀ f : BitVec 5, f ≠ 0b00010#5 → plainCommand f = none →
    f.toNat ∉ [0, 1, 2, 4, 5, 6, 8, 9, 10, 16] := by
  decide

theorem listed_of_isSome_plainCommand : ∀ f : BitVec 5, (plainCommand f).isSome = true →
    f.toNat ∈ [0, 1, 2, 4, 5, 6, 8, 9, 10, 16] ∧ f.toNat ≠ 2 ∧ f.toNat ∈ [0, 1, 4, 5, 6, 8, 9, 10, 16] := by
  decide

theorem legalWidth_iff (w : BitVec 5) : legalWidth w = true ↔ w.toNat ≤ 24 := decide_eq_true_iff

/-- Items 2 to 4 of 30_encoding.md R100, of the fields FN and ARG of the CTL group. -/
def illegalCtl (f : BitVec 5) (a : BitVec 24) : Prop :=
  f.toNat ∉ [0, 1, 2, 4, 5, 6, 8, 9, 10, 16] ∨ (f.toNat = 2 ∧ argHigh a ≠ 0) ∨
  (f.toNat ∈ [0, 1, 4, 5, 6, 8, 9, 10, 16] ∧ a ≠ 0)

theorem exists_error_ite_iff (c : Prop) [Decidable c] (i : Instr) (e : Illegal) :
    (∃ e', (if c then Except.ok i else Except.error e) = Except.error e') ↔ ¬ c := by
  by_cases hc : c <;> simp [hc]

theorem exists_error_decodeCtl_iff (f : BitVec 5) (a : BitVec 24) : (∃ e, decodeCtl f a = .error e) ↔ illegalCtl f a := by
  rcases fn_cases f with rfl | ⟨hf, hn⟩ | ⟨i, hi⟩
  · rw [decodeCtl_cfg, exists_error_ite_iff]
    simp [illegalCtl]
  · rw [decodeCtl_reservedFn hf hn]
    exact iff_of_true ⟨_, rfl⟩ (.inl (unlisted_of_plainCommand_eq_none f hf hn))
  · rw [decodeCtl_plain hi, exists_error_ite_iff]
    obtain ⟨hlisted, hne, hplain⟩ := listed_of_isSome_plainCommand f (by rw [hi]; rfl)
    simp only [illegalCtl, hlisted, hne, hplain, not_true, false_and, true_and, false_or]

/-- The six items, of the three fields of the word. -/
theorem illegalEncoding_commandWord (o : BitVec 3) (f : BitVec 5) (a : BitVec 24) :
    illegalEncoding (commandWord o f a) ↔
      3 ≤ o.toNat ∨ (o = 0 ∧ illegalCtl f a) ∨ ((o = 1 ∨ o = 2) ∧ ¬ legalWidth f = true) ∨ (o = 2 ∧ a ≠ 0) := by
  have ho : (commandWord o f a).extractLsb' 29 3 = o := opcOf_commandWord o f a
  have hf : (commandWord o f a).extractLsb' 24 5 = f := fnOf_commandWord o f a
  have ha : (commandWord o f a).extractLsb' 0 24 = a := argOf_commandWord o f a
  rw [illegalEncoding, ← argHigh_argOf, argOf_commandWord, ho, hf, ha, illegalCtl, legalWidth_iff, Nat.not_le,
    and_or_left, and_or_left, or_assoc, or_assoc]

/-- Settles O3: by OPC; each group rejects by the items that name it. -/
theorem illegalWordsAreTheSixItems : Obligations.IllegalWordsAreTheSixItems := by
  intro cw
  obtain ⟨o, f, a, rfl⟩ := exists_commandWord_eq cw
  rw [illegalEncoding_commandWord]
  rcases opc_cases o with rfl | rfl | rfl | ho
  · rw [decode_ctl, exists_error_decodeCtl_iff]
    simp
  · rw [decode_bsWrite, exists_error_ite_iff]
    simp
  · rw [decode_bsRead]
    by_cases hw : legalWidth f = true
    · rw [if_pos hw, exists_error_ite_iff]
      simp [hw]
    · simp [hw]
  · exact iff_of_true ⟨_, decode_reservedOpc ho f a⟩ (.inl ho)

/-- Settles O4: by evaluation of the decoder at the twenty words. -/
theorem tableWordsDecodeAsListed : Obligations.TableWordsDecodeAsListed := by
  unfold Obligations.TableWordsDecodeAsListed
  decide

/-! The assembler (30_encoding.md R101, R103). -/

theorem legalWidth_ofNat {n : Nat} (h : n ≤ 24) : legalWidth (BitVec.ofNat 5 n) = true := by
  rw [legalWidth_iff, BitVec.toNat_ofNat]
  exact (Nat.mod_le _ _).trans h

theorem wellFormed_of_plainMnemonic {m : List Char} {i : Instr} (h : plainMnemonics.lookup m = some i) :
    i.wellFormed = true := by
  have hall : ∀ e ∈ plainMnemonics, e.2.wellFormed = true := by decide
  obtain ⟨l, r, hl, -⟩ := List.lookup_eq_some_iff.mp h
  exact hall (m, i) (by simp [hl])

theorem wellFormed_of_assembleInstr {m : List Char} {ops : List Nat} {i : Instr} (h : assembleInstr m ops = some i) :
    i.wellFormed = true := by
  unfold assembleInstr at h
  split at h
  · next hl => cases h; exact wellFormed_of_plainMnemonic hl
  · cases h
  · split at h
    · next hw => cases h; exact legalWidth_ofNat hw.2
    · cases h
  · split at h
    · cases h; rfl
    · split at h
      · next hw => cases h; exact legalWidth_ofNat hw.2.1
      · cases h
  · cases h

/-- Settles O57: by the form of the line, and for the pseudo-instructions by their expansion. -/
theorem assemblerNamesOnlyCommands : Obligations.AssemblerNamesOnlyCommands :=
  ⟨fun _ _ _ h => wellFormed_of_assembleInstr h, fun _ _ => ⟨rfl, rfl⟩⟩

/-! The code that an encode pass writes (42_encode.md R204). -/

/-- Settles O31: WIDTH is MAX_BITS in a fixed-width pass, and the closed form of NEXT_CODE in an adaptive one. -/
theorem encodedCodeIsInRange : Obligations.EncodedCodeIsInRange := by
  intro s h hp hv
  have hin : s.phase.inPass = true := by rw [hp]; rfl
  have hcode := h.matchBound hv
  have hlim : s.nextCode.toNat ≤ 2 ^ s.config.maxBits.toNat := h.passLimit hin
  refine ⟨hcode, hlim, ?_⟩
  cases ha : s.config.adaptive with
  | false => rw [h.widthFixed hin ha]; exact hcode.trans_le hlim
  | true => rw [h.widthEncode hp ha]; exact lt_two_pow_adaptiveWidth hcode hlim

end Sys2Proof.Machine

/-!
The BitStream Codec (40_bitstream.md): write_bits in closed form, what BS_WRITE, BS_FLUSH and BS_READ do in a raw phase, and that
BS_READ gives back what BS_WRITE and BS_FLUSH put on OUT.
-/

namespace Sys2Proof.Machine

open Sys2Proof.Claims

/-! The writer (40_bitstream.md R133 to R137). -/

theorem accInRange_of_empty {s : State} (hcnt : s.wCnt = 0) (hacc : s.wAcc = 0) : accInRange s := by
  simp [accInRange, hcnt, hacc]

theorem writtenBits_of_wCnt_zero {s : State} (h : s.wCnt = 0) : writtenBits s = bytesBits s.outLog := by
  simp [writtenBits, pendingBits, h, bitString]

/-- write_bits pushes bytes, and they with the bits then pending are the bits that were pending and the value (R134). -/
theorem writeBits_pushes (v : BitVec 24) (w : Nat) {s : State} (h : accInRange s) :
    ∃ l : Bytes, (writeBits v w s).outLog = s.outLog ++ l ∧
      (writeBits v w s).cntOut = s.cntOut + BitVec.ofNat 32 l.length ∧
      bytesBits l ++ pendingBits (writeBits v w s) = pendingBits s ++ bitString w v.toNat := by
  obtain ⟨l, hout, hcnt⟩ := writeBits_countsOutput v w s
  refine ⟨l, hout, hcnt, ?_⟩
  have hbits := writeBits_writtenBits v w s h
  rwa [writtenBits, writtenBits, hout, bytesBits_append, List.append_assoc, List.append_assoc,
    List.append_cancel_left_eq] at hbits

/-- Settles O17: the bytes pushed and the bits left over are the bits that were pending and the value, and fewer than 8 bits are
left over, so the lengths say where the string is cut. -/
theorem writeBitsClosedForm : Obligations.WriteBitsClosedForm := by
  intro s v w h _ p n t
  obtain ⟨l, hout, hcntOut, hbits⟩ := writeBits_pushes v w h
  change t.outLog = _ at hout
  change bytesBits l ++ pendingBits t = p at hbits
  have hlen : 8 * l.length + t.wCnt.toNat = n := by
    have := congrArg List.length hbits
    simpa [length_pendingBits, p] using this
  have hlt : t.wCnt.toNat < 8 := t.wCnt.isLt
  have hl : l.length = n / 8 := by omega
  have hcut : (bytesBits l).length = 8 * (n / 8) := by rw [length_bytesBits, hl]
  refine ⟨⟨l, hout, hl, ?_, ?_⟩, ?_, writeBits_accInRange v w s h, by omega, ?_⟩
  · rw [← hbits, List.take_left' hcut]
  · rw [← hout, ← hl, ← hcntOut]
    exact writeBits_frame v w s
  · rw [← hbits, List.drop_left' hcut]
    rfl
  · rintro rfl
    rfl

/-- flush by whether bits are pending (R135). -/
theorem flush_eq (s : State) :
    flush s = if s.wCnt = 0 then s else
      { s with
        outLog := s.outLog ++ [BitVec.ofNat 8 (s.wAcc.toNat * 2 ^ (8 - s.wCnt.toNat))],
        cntOut := s.cntOut + 1, wAcc := 0, wCnt := 0 } := by
  have hshift : s.wAcc <<< (8 - s.wCnt.toNat) = BitVec.ofNat 8 (s.wAcc.toNat * 2 ^ (8 - s.wCnt.toNat)) :=
    BitVec.eq_of_toNat_eq (by rw [BitVec.toNat_shiftLeft, Nat.shiftLeft_eq, BitVec.toNat_ofNat])
  by_cases hc : s.wCnt = 0
  · simp [flush, hc]
  · have hpos : 0 < s.wCnt.toNat := by
      rw [Nat.pos_iff_ne_zero]
      exact fun h0 => hc (BitVec.eq_of_toNat_eq h0)
    rw [flush, if_pos hpos, if_neg hc, hshift]
    rfl

theorem padding_lt (s : State) : padding s < 8 := Nat.mod_lt _ (by decide)

/-! The three commands in a raw phase (40_bitstream.md R144, R150, R151, R153). -/

section RawPhase

variable {s : State}

theorem legalIn_bsFlush (h : rawPhase s) : legalIn .bsFlush s.phase = true := (rawLegal_iff _).mpr h

theorem legalIn_bsWrite (h : rawPhase s) (w : BitVec 5) (v : BitVec 24) : legalIn (.bsWrite w v) s.phase = true :=
  (rawLegal_iff _).mpr h

theorem legalIn_bsRead (h : rawPhase s) (w : BitVec 5) : legalIn (.bsRead w) s.phase = true := (rawLegal_iff _).mpr h

theorem exec_bsFlush_of_rawPhase (h : rawPhase s) : exec .bsFlush s = .next (popCq (flush s)) :=
  exec_completes (legalIn_bsFlush h) rfl

theorem exec_bsWrite_of_rawPhase (h : rawPhase s) (w : BitVec 5) (v : BitVec 24) :
    exec (.bsWrite w v) s = .next (popCq (writeBits v w.toNat s)) := by
  rw [← writeBits_truncTo]
  exact exec_completes (legalIn_bsWrite h w v) rfl

theorem exec_bsRead_of_rawPhase (h : rawPhase s) {w : BitVec 5} (hr : readEnabled w.toNat s = true) :
    exec (.bsRead w) s = .next (popCq (recordRead (readBits w.toNat s).1 (readBits w.toNat s).2)) :=
  exec_completes (legalIn_bsRead h w) (if_pos hr)

end RawPhase

/-- Settles O18: by what write_bits appends to the bits written and what it leaves unchanged. -/
theorem bsWriteAppendsTheLowBits : Obligations.BsWriteAppendsTheLowBits := by
  intro s w v hraw hacc
  obtain ⟨l, hout, hcnt⟩ := writeBits_countsOutput v w.toNat s
  refine ⟨popCq (writeBits v w.toNat s), l, exec_bsWrite_of_rawPhase hraw w v, ?_,
    writeBits_writtenBits v w.toNat s hacc, writeBits_accInRange v w.toNat s hacc⟩
  conv_lhs => rw [writeBits_frame, hout, hcnt]
  rfl

/-- Settles O19: by the two cases of flush. -/
theorem bsFlushPushesThePartialByte : Obligations.BsFlushPushesThePartialByte := by
  intro s hraw
  rw [exec_bsFlush_of_rawPhase hraw, flush_eq, apply_ite popCq]
  rfl

/-- Settles O20: a flush leaves no bit pending, and with none pending a flush does nothing. -/
theorem secondFlushPushesNothing : Obligations.SecondFlushPushesNothing := by
  intro s t hraw hacc hexec
  rw [exec_bsFlush_of_rawPhase hraw, Host.Outcome.next.injEq] at hexec
  subst hexec
  have hcnt : (popCq (flush s)).wCnt = 0 := flush_wCnt s
  have hraw' : rawPhase (popCq (flush s)) := by rw [flush_frame]; exact hraw
  refine ⟨?_, hcnt, padding s, padding_lt s, flush_writtenBits s hacc⟩
  rw [bsFlushPushesThePartialByte _ hraw', if_pos hcnt]

/-- Settles O21: the bits have arrived, so the read is enabled, and read_bits takes exactly them. -/
theorem bsReadReturnsTheNextBits : Obligations.BsReadReturnsTheNextBits := by
  intro s w hraw hw havail
  refine ⟨_, exec_bsRead_of_rawPhase hraw ((readEnabled_iff _ s).mpr (.inl havail)), readBits_taken w.toNat s hw havail, ?_⟩
  conv_lhs => rw [(readBits_ok w.toNat s hw havail).1, readBits_frame]
  rfl

/-- Settles O22: InEOS enables the read, and read_bits pops every byte without finding enough bits. -/
theorem bsReadAtTheEndReturnsNoData : Obligations.BsReadAtTheEndReturnsNoData := by
  intro s w hraw hfew heos
  obtain ⟨hnodata, hempty, hcnt⟩ := readBits_nodata w.toNat s hfew
  obtain ⟨l, hl, hcntIn⟩ := readBits_pops w.toNat s
  rw [hempty, List.append_nil] at hl
  rw [← hl] at hcntIn
  refine ⟨_, exec_bsRead_of_rawPhase hraw ((readEnabled_iff _ s).mpr (.inr heos)), ?_⟩
  conv_lhs => rw [hnodata, readBits_frame, hempty, hcnt, hcntIn]
  rfl

/-- In a pass WIDTH is at least 9: MAX_BITS is, and so is the closed form of an adaptive width (10_state.md R51). -/
theorem State.Inv.nine_le_width {s : State} (h : s.Inv) (hp : s.phase = .encActive ∨ s.phase = .decActive) :
    9 ≤ s.width.toNat := by
  have hmax : 9 ≤ s.config.maxBits.toNat := h.config.1
  have hadaptive : ∀ n, 9 ≤ adaptiveWidth s.config.maxBits.toNat n := fun n => le_min hmax (Nat.le_max_left _ _)
  cases ha : s.config.adaptive with
  | false => rw [h.widthFixed ((inPass_iff _).mpr hp) ha]; exact hmax
  | true =>
    rcases hp with hp | hp
    · rw [h.widthEncode hp ha]; exact hadaptive _
    · rw [h.widthDecode hp ha]; exact hadaptive _

/-- Settles O23: the loop of read_bits has no turn at width 0, and in a pass WIDTH is at least 9. -/
theorem readOfWidthZeroReadsNothing : Obligations.ReadOfWidthZeroReadsNothing := by
  refine ⟨fun _ => rfl, fun s hraw => ?_, fun s hinv hp h0 => ?_⟩
  · exact exec_bsRead_of_rawPhase hraw ((readEnabled_iff _ s).mpr (.inl (Nat.zero_le _)))
  · have h9 := hinv.nine_le_width hp
    rw [h0] at h9
    exact absurd h9 (by decide)

/-! A sequence of BS_WRITE and a BS_FLUSH, read back by BS_READ (40_bitstream.md R154). -/

/-- The bits that the sequence `BS_WRITE w_i, v_i` writes. -/
def fieldBits (l : List (BitVec 5 × BitVec 24)) : List Bool := l.flatMap (fun p => bitString p.1.toNat p.2.toNat)

theorem fieldBits_cons (p : BitVec 5 × BitVec 24) (l : List (BitVec 5 × BitVec 24)) :
    fieldBits (p :: l) = bitString p.1.toNat p.2.toNat ++ fieldBits l := rfl

theorem runAll_cons_of_next {i : Instr} {s t : State} (h : exec i s = .next t) (rest : List Instr) :
    runAll (i :: rest) s = runAll rest t := by
  rw [runAll, h]; rfl

theorem readAll_cons_of_next {w : BitVec 5} {s t u : State} {ws : List (BitVec 5)} {rs : List ResultReg}
    (h : exec (.bsRead w) s = .next t) (hrest : readAll ws t = some (rs, u)) :
    readAll (w :: ws) s = some (t.result :: rs, u) := by
  simp only [readAll, h, nextState, hrest]

/-- The writes and the flush put the bits of the values on OUT, completed to whole bytes with fewer than 8 zeros. -/
theorem runAll_writes_flush (l : List (BitVec 5 × BitVec 24)) {s : State} (hraw : rawPhase s) (hacc : accInRange s) :
    ∃ (t : State) (bytes : Bytes) (k : Nat), runAll (l.map (fun p => .bsWrite p.1 p.2) ++ [.bsFlush]) s = some t ∧
      t.outLog = s.outLog ++ bytes ∧ t.wCnt = 0 ∧ k < 8 ∧
      writtenBits t = writtenBits s ++ (fieldBits l ++ List.replicate k false) := by
  induction l generalizing s with
  | nil =>
    have hflush := exec_bsFlush_of_rawPhase hraw
    obtain ⟨-, hcnt, k, hk, hbits⟩ := secondFlushPushesNothing s _ hraw hacc hflush
    obtain ⟨bytes, hout, -⟩ := flush_countsOutput s
    exact ⟨popCq (flush s), bytes, k, runAll_cons_of_next hflush [], hout, hcnt, hk, hbits⟩
  | cons p l ih =>
    obtain ⟨u, pushed, hexec, hu, hbits, hacc'⟩ := bsWriteAppendsTheLowBits s p.1 p.2 hraw hacc
    have hout : u.outLog = s.outLog ++ pushed := by rw [hu]
    have hraw' : rawPhase u := by rw [hu]; exact hraw
    obtain ⟨t, bytes, k, hrun, hout', hcnt, hk, hbits'⟩ := ih hraw' hacc'
    refine ⟨t, pushed ++ bytes, k, (runAll_cons_of_next hexec _).trans hrun, ?_, hcnt, hk, ?_⟩
    · rw [hout', hout, List.append_assoc]
    · rw [hbits', hbits, fieldBits_cons, List.append_assoc, List.append_assoc]

/-- A BS_READ of the width of the value that comes next takes its bits, and RESULT holds the value cut to its width. -/
theorem exec_bsRead_field {w : BitVec 5} {v : BitVec 24} {rest : List Bool} {r : State} (hw : w.toNat ≤ 24)
    (hraw : rawPhase r) (hbits : unreadBits r = bitString w.toNat v.toNat ++ rest) :
    ∃ t, exec (.bsRead w) r = .next t ∧ t.result = resultOk (BitVec.ofNat 24 (v.toNat % 2 ^ w.toNat)) ∧
      rawPhase t ∧ t.inEos = r.inEos ∧ unreadBits t = rest := by
  have havail : w.toNat ≤ r.rCnt.toNat + 8 * r.inQ.length := by
    change w.toNat ≤ bitsAvail r
    rw [← length_unreadBits, hbits, List.length_append, length_bitString]
    exact Nat.le_add_right _ _
  have hvalue : nextValue w.toNat r = BitVec.ofNat 24 (v.toNat % 2 ^ w.toNat) := by
    rw [nextValue, hbits, List.take_left' (length_bitString _ _), bitValue_bitString]
  obtain ⟨t, hexec, ⟨hunread, -⟩, ht⟩ := bsReadReturnsTheNextBits r w hraw hw havail
  refine ⟨t, hexec, ?_, ?_, ?_, ?_⟩
  · rw [ht, hvalue]
  · rw [ht]; exact hraw
  · rw [ht]
  · rw [hunread, hbits, List.drop_left' (length_bitString _ _)]

/-- The reads give the values back, each cut to its width, and leave the bits behind them. -/
theorem readAll_fields (l : List (BitVec 5 × BitVec 24)) {rest : List Bool} {r : State} (hw : ∀ p ∈ l, p.1.toNat ≤ 24)
    (hraw : rawPhase r) (hbits : unreadBits r = fieldBits l ++ rest) :
    ∃ u, readAll (l.map Prod.fst) r =
        some (l.map (fun p => resultOk (BitVec.ofNat 24 (p.2.toNat % 2 ^ p.1.toNat))), u) ∧
      rawPhase u ∧ u.inEos = r.inEos ∧ unreadBits u = rest := by
  induction l generalizing r with
  | nil => exact ⟨r, rfl, hraw, rfl, hbits⟩
  | cons p l ih =>
    obtain ⟨hp, hl⟩ := List.forall_mem_cons.mp hw
    rw [fieldBits_cons, List.append_assoc] at hbits
    obtain ⟨t, hexec, hresult, hraw', heos, hrest⟩ := exec_bsRead_field hp hraw hbits
    obtain ⟨u, hread, huraw, hueos, hurest⟩ := ih hl hraw' hrest
    refine ⟨u, ?_, huraw, hueos.trans heos, hurest⟩
    rw [List.map_cons, readAll_cons_of_next hexec hread, hresult, List.map_cons]

/-- With fewer than 8 bits before the end of input no byte is queued, so a wider read ends at a code boundary (R139). -/
theorem exec_bsRead_few {w : BitVec 5} {u : State} (hraw : rawPhase u) (heos : u.inEos = true)
    (hfew : (unreadBits u).length < 8) (hw : 7 < w.toNat) :
    ∃ v, exec (.bsRead w) u = .next v ∧ v.result = resultNodata false := by
  have havail : u.rCnt.toNat + 8 * u.inQ.length < 8 := by rwa [length_unreadBits] at hfew
  have hempty : u.inQ = [] := List.length_eq_zero_iff.mp (by omega)
  obtain ⟨v, hexec, hv⟩ := bsReadAtTheEndReturnsNoData u w hraw (by omega) heos
  refine ⟨v, hexec, ?_⟩
  rw [hv, hempty]
  rfl

/-- Settles O24: by induction on the sequence the writes and the flush put the bits of the values and fewer than 8 zeros on OUT,
and the reads take them off again; the zeros are too few for a further read. -/
theorem rawWritesReadBack : Obligations.RawWritesReadBack := by
  intro l s hw hraw hcnt hacc
  obtain ⟨t, bytes, k, hrun, hout, htcnt, hk, hbits⟩ := runAll_writes_flush l hraw (accInRange_of_empty hcnt hacc)
  have hbytes : bytesBits bytes = fieldBits l ++ List.replicate k false := by
    rwa [writtenBits_of_wCnt_zero htcnt, writtenBits_of_wCnt_zero hcnt, hout, bytesBits_append,
      List.append_cancel_left_eq] at hbits
  refine ⟨t, bytes, hrun, hout, fun r hrraw hrcnt hin heos => ?_⟩
  have hunread : unreadBits r = fieldBits l ++ List.replicate k false := by
    rw [unreadBits, hrcnt, hin, hbytes]; rfl
  obtain ⟨u, hread, huraw, hueos, hrest⟩ := readAll_fields l hw hrraw hunread
  refine ⟨u, hread, fun w hw7 _ => exec_bsRead_few huraw (hueos.trans heos) ?_ hw7⟩
  rwa [hrest, List.length_replicate]

end Sys2Proof.Machine

/-!
The dictionaries (41_dictionaries.md): the trie's lookup undoes the sequence of a code, so the probe is the lookup of the candidate
sequence; and no step within a pass changes a binding.
-/

namespace Sys2Proof.Machine

open Sys2Proof.Claims

/-! The trie (41_dictionaries.md R162, R166). -/

/-- The parent and the byte that seqE follows are those of an entry that the probe finds (10_state.md R39). -/
theorem TrieInv.find_of_trieParent {d : Dict Code} {n : Nat} (hd : TrieInv d n) (hw : Dict.wf d = true) {c p : Code} {b : Byte}
    (h : trieParent d c = some (p, b)) : d.find (trieKey p b) = some c := by
  obtain ⟨k, hk, rfl, rfl⟩ := trieParent_some hw h
  have hkc := (hd.entry k c hk).1
  have hc := c.isLt
  rwa [trieKey_parts (by omega)]

/-- A code below 256 is bound to its own byte (00_scope.md R12). -/
theorem bound_of_lt_nSingle (d : Dict Code) {c : Code} (h : c.toNat < Config.nSingle) : Bound d c [c.setWidth 8] := by
  have hc : singleton (c.setWidth 8) = c :=
    BitVec.eq_of_toNat_eq ((singleton_toNat _).trans ((BitVec.toNat_setWidth 8 c).trans (Nat.mod_eq_of_lt h)))
  simpa only [hc] using Bound.single (d := d) (c.setWidth 8)

/-- The sequence that seqE answers is the one that the entries bind the code to (10_state.md R39). -/
theorem bound_of_seqEWithin {d : Dict Code} {n : Nat} (hd : TrieInv d n) (hw : Dict.wf d = true) (fuel : Nat) {c : Code} {q : Bytes}
    (h : seqEWithin d fuel c = some q) : Bound d c q := by
  induction fuel generalizing c q with
  | zero =>
    rw [seqEWithin] at h
    split at h
    · next hs => cases h; exact bound_of_lt_nSingle d hs
    · cases h
  | succ fuel ih =>
    rw [seqEWithin] at h
    split at h
    · next hs => cases h; exact bound_of_lt_nSingle d hs
    · split at h
      · cases h
      · next p b hp =>
        obtain ⟨r, hr, rfl⟩ := Option.map_eq_some_iff.mp h
        exact .ext (ih hr) (hd.find_of_trieParent hw hp)

/-- Lookup of the sequence bound to a code answers the code (41_dictionaries.md R162). -/
theorem Bound.trieLookup_eq {d : Dict Code} {c : Code} {q : Bytes} (h : Bound d c q) : trieLookup d q = some c := by
  induction h with
  | single b => rfl
  | ext hp hf ih => rw [trieLookup_append _ _ _ hp.ne_nil, ih]; exact hf

/-- Settles O33: seqE follows the entries that lookup follows, and the last of the candidate's entries is the one probed for. -/
theorem probeIsLookupOfTheCandidate : Obligations.ProbeIsLookupOfTheCandidate := by
  intro s p b q h hp _ hq
  have hbound := bound_of_seqEWithin (h.trie hp) ((memory_wf_iff s).mp h.memory).1 _ hq
  refine ⟨hbound.trieLookup_eq, ?_⟩
  rw [trieLookup_append _ _ _ hbound.ne_nil, hbound.trieLookup_eq]
  rfl

/-! Bindings within a pass (41_dictionaries.md R165, R180). -/

/-- SOFT_RESET answers IDLE, in every phase (44_control.md R253). -/
theorem exec_softReset_phase {s t : State} (h : exec .softReset s = .next t) : t.phase = .idle := by
  rw [exec_completes (t := resetBlock s) rfl rfl] at h
  cases h
  rfl

/-- Settles O51: the commands but the two STARTs and SOFT_RESET only add to the dictionaries, and SOFT_RESET leaves the pass. -/
theorem bindingsNeverChangeInAPass : Obligations.BindingsNeverChangeInAPass := by
  intro s t h hb hstep hphase henc hdec
  obtain ⟨l, hc⟩ := step_blockTurn hb hstep
  suffices hgrows : t.phase = .idle ∨ Grows { s with agenda := l } t by
    rcases hgrows with hidle | hg
    · rw [← hphase, hidle]
      exact ⟨nofun, nofun⟩
    · exact ⟨fun _ => hg.trie, fun _ => hg.table⟩
  rcases cycle_next hc with ⟨-, rfl⟩ | ⟨cw, rest, e, -, -, rfl⟩ | ⟨cw, rest, i, hcq, hd, he⟩
  · exact .inr (.refl _)
  · exact .inr ((grows_errorEntry .illegalCmd cw _).trans (.of_eq rfl rfl rfl))
  · by_cases hsoft : i = .softReset
    · subst hsoft
      exact .inl (exec_softReset_phase he)
    · have hruns : blockRuns i s := ⟨hb, cw, rest, hcq, hd⟩
      exact .inr (exec_grows (h.setAgenda l) he hsoft (fun hi => henc (hi ▸ hruns)) (fun hi => hdec (hi ▸ hruns)))

end Sys2Proof.Machine

/-!
The encode pipeline (42_encode.md): what ENC_START, each case of ENC_STEP and an iteration of ENC_RUN do, and along which arrows a
step moves PHASE.
-/

namespace Sys2Proof.Machine

open Sys2Proof.Claims

/-! ENC_START (42_encode.md R192). -/

/-- Settles O25: the writer is empty after start_common, so the header byte is pushed at once. -/
theorem encStartBeginsAPass : Obligations.EncStartBeginsAPass := by
  intro s
  rw [exec_completes (i := .encStart) rfl rfl, writeBits_byte (startCommon s).config.maxBits (startCommon s) rfl rfl]
  rfl

/-! The three cases of a byte (42_encode.md R193 to R195). -/

section EncByte

variable {s : State} {b : Byte}

/-- With the empty match the byte becomes the match (R194). -/
theorem encByte_of_emptyMatch (hv : s.matchReg.valid = false) : encByte b s = setMatch (singleton b) s :=
  if_neg (by simp [hv])

/-- A byte whose probe finds a code extends the match to it (R193). -/
theorem encByte_of_eChild_some {c : Code} (hv : s.matchReg.valid = true) (hc : eChild s.matchReg.code b s = some c) :
    encByte b s = setMatch c s := by
  rw [encByte, if_pos hv, hc]

/-- A byte whose probe finds nothing ends the match (R195 to R197). -/
theorem encByte_of_eChild_none (hv : s.matchReg.valid = true) (hc : eChild s.matchReg.code b s = none) :
    encByte b s = setMatch (singleton b) (encInsert b (emitMatch s)) := by
  rw [encByte, if_pos hv, hc]

end EncByte

/-! ENC_STEP completes with a byte or at the end of input (42_encode.md R193, R201). -/

/-- `s` with the byte at the head of IN taken and counted, `rest` being left (20_memory.md R63). -/
def popIn (rest : List Byte) (s : State) : State := { s with inQ := rest, cntIn := s.cntIn + 1 }

@[simp] theorem popIn_nextCode (rest : List Byte) (s : State) : (popIn rest s).nextCode = s.nextCode := rfl
@[simp] theorem popIn_matchReg (rest : List Byte) (s : State) : (popIn rest s).matchReg = s.matchReg := rfl
@[simp] theorem popIn_config (rest : List Byte) (s : State) : (popIn rest s).config = s.config := rfl
@[simp] theorem popIn_width (rest : List Byte) (s : State) : (popIn rest s).width = s.width := rfl
@[simp] theorem popIn_echild (rest : List Byte) (s : State) : (popIn rest s).echild = s.echild := rfl
@[simp] theorem eChild_popIn (p : Code) (b : Byte) (rest : List Byte) (s : State) :
    eChild p b (popIn rest s) = eChild p b s := rfl

theorem encStepBody_of_byte {s : State} {b : Byte} {rest : List Byte} (hq : s.inQ = b :: rest) :
    encStepBody s = .completes (encByte b (popIn rest s)) := by
  rw [encStepBody, inPop_cons hq]; rfl

theorem encStepBody_of_eos {s : State} (hq : s.inQ = []) (heos : s.inEos = true) :
    encStepBody s = .completes (encFinish s) := by
  rw [encStepBody, (inPop_eq_none s).mpr hq]
  exact if_pos heos

/-- ENC_STEP and ENC_RUN are legal in an encode pass (44_control.md R255). -/
theorem legalIn_encStep {p : Phase} (hp : p = .encActive) : legalIn .encStep p = true := decide_eq_true hp

theorem legalIn_encRun {p : Phase} (hp : p = .encActive) : legalIn .encRun p = true := decide_eq_true hp

theorem exec_encStep_of_byte {s : State} {b : Byte} {rest : List Byte} (hp : s.phase = .encActive) (hq : s.inQ = b :: rest) :
    exec .encStep s = .next (popCq (encByte b (popIn rest s))) :=
  exec_completes (legalIn_encStep hp) (encStepBody_of_byte hq)

theorem exec_encStep_of_eos {s : State} (hp : s.phase = .encActive) (hq : s.inQ = []) (heos : s.inEos = true) :
    exec .encStep s = .next (popCq (encFinish s)) :=
  exec_completes (legalIn_encStep hp) (encStepBody_of_eos hq heos)

/-- Settles O26: a byte with the empty match. -/
theorem encStepFirstByteBecomesTheMatch : Obligations.EncStepFirstByteBecomesTheMatch := by
  intro s b rest hp hv hq
  rw [exec_encStep_of_byte hp hq, encByte_of_emptyMatch (s := popIn rest s) hv]
  rfl

/-- Settles O27: a byte whose probe finds a code. -/
theorem encStepExtendsTheMatch : Obligations.EncStepExtendsTheMatch := by
  intro s b rest c hp hv hq hc
  rw [exec_encStep_of_byte hp hq, encByte_of_eChild_some (s := popIn rest s) hv hc]
  rfl

/-! Writing MATCH.CODE (42_encode.md R195). -/

@[simp] theorem emitMatch_nextCode (s : State) : (emitMatch s).nextCode = s.nextCode := by rw [emitMatch_frame]
@[simp] theorem emitMatch_matchReg (s : State) : (emitMatch s).matchReg = s.matchReg := by rw [emitMatch_frame]
@[simp] theorem emitMatch_width (s : State) : (emitMatch s).width = s.width := by rw [emitMatch_frame]
@[simp] theorem emitMatch_echild (s : State) : (emitMatch s).echild = s.echild := by rw [emitMatch_frame]
@[simp] theorem eChild_emitMatch (p : Code) (b : Byte) (s : State) : eChild p b (emitMatch s) = eChild p b s := by
  rw [eChild, emitMatch_echild, eChild]

theorem emitMatch_writtenBits {s : State} (h : accInRange s) :
    writtenBits (emitMatch s) = writtenBits s ++ bitString s.width.toNat s.matchReg.code.toNat :=
  writeBits_writtenBits _ _ _ h

theorem emitMatch_countsOutput (s : State) : countsOutput s (emitMatch s) := writeBits_countsOutput _ _ s

theorem emitMatch_accInRange {s : State} (h : accInRange s) : accInRange (emitMatch s) := writeBits_accInRange _ _ s h

/-! Inserting the candidate (42_encode.md R196, R198). -/

/-- The width test changes WIDTH alone (R198). -/
theorem encWiden_frame (s : State) : encWiden s = { s with width := (encWiden s).width } := by
  unfold encWiden
  split <;> rfl

/-- WIDTH after the width test (R198); MAX_BITS is at most 24, so the 5 bits of WIDTH hold one more. -/
theorem encWiden_width_toNat {s : State} (hmax : s.config.maxBits.toNat ≤ 24) :
    (encWiden s).width.toNat =
      if s.config.adaptive = true ∧ 2 ^ s.width.toNat ≤ s.nextCode.toNat ∧ s.width.toNat < s.config.maxBits.toNat
      then s.width.toNat + 1 else s.width.toNat := by
  rw [encWiden, apply_ite State.width, apply_ite BitVec.toNat]
  simp only [Bool.and_eq_true, decide_eq_true_eq, and_assoc]
  refine ite_congr rfl (fun ⟨_, _, hlt⟩ => ?_) (fun _ => rfl)
  rw [widen_width, BitVec.toNat_add]
  exact Nat.mod_eq_of_lt (by show s.width.toNat + 1 < 32; omega)

section EncInsert

variable {s : State} (b : Byte)

/-- A saturated dictionary takes no insertion and WIDTH stays (R196). -/
theorem encInsert_of_saturated (hsat : codeLimit s ≤ s.nextCode.toNat) : encInsert b s = s :=
  if_neg (by rw [unsaturated_iff]; omega)

section Unsaturated

variable (hu : s.nextCode.toNat < codeLimit s)
include hu

/-- An unsaturated dictionary takes the insertion, and the width test comes after it (R196, R198). -/
theorem encInsert_of_unsaturated : encInsert b s = encWiden (eInsertChild s.matchReg.code b s) :=
  if_pos ((unsaturated_iff s).mpr hu)

/-- The candidate is bound to NEXT_CODE, and every other binding stays (41_dictionaries.md R167). -/
theorem eChild_encInsert (p : Code) (c : Byte) :
    eChild p c (encInsert b s) =
      if p = s.matchReg.code ∧ c = b then some (BitVec.ofNat 24 s.nextCode.toNat) else eChild p c s := by
  rw [encInsert_of_unsaturated b hu, encWiden_frame, BitVec.ofNat_toNat]
  exact eChild_eInsertChild _ _ _ _ _

theorem encInsert_nextCode_toNat (h : s.Inv) : (encInsert b s).nextCode.toNat = s.nextCode.toNat + 1 := by
  rw [encInsert_of_unsaturated b hu, encWiden_frame]
  exact nextCode_succ s (by have := h.codeLimit_le; have := h.limit_le; omega)

theorem encInsert_width_toNat (h : s.Inv) :
    (encInsert b s).width.toNat =
      if s.config.adaptive = true ∧ 2 ^ s.width.toNat ≤ s.nextCode.toNat + 1 ∧ s.width.toNat < s.config.maxBits.toNat
      then s.width.toNat + 1 else s.width.toNat := by
  have hnext : (s.nextCode + 1).toNat = s.nextCode.toNat + 1 :=
    nextCode_succ s (by have := h.codeLimit_le; have := h.limit_le; omega)
  rw [encInsert_of_unsaturated b hu, encWiden_width_toNat (s := eInsertChild _ b s) h.maxBits_le, eInsertChild_nextCode, hnext]
  rfl

end Unsaturated

end EncInsert

/-- Settles O28: the step writes the code, which touches the writer and OUT alone, then inserts the candidate, which touches the
trie, NEXT_CODE and WIDTH alone. -/
theorem encStepEndsTheMatch : Obligations.EncStepEndsTheMatch := by
  intro s b rest h hp hv hq hc
  rw [exec_encStep_of_byte hp hq, encByte_of_eChild_none (s := popIn rest s) hv hc]
  have hinv : (emitMatch (popIn rest s)).Inv := (h.inPop (inPop_cons hq)).emitMatch
  have hbits := emitMatch_writtenBits (s := popIn rest s) h.accumulator
  obtain ⟨l, hout, hcnt⟩ := emitMatch_countsOutput (popIn rest s)
  have hnext : (emitMatch (popIn rest s)).nextCode = s.nextCode := emitMatch_nextCode _
  have hlim : codeLimit (emitMatch (popIn rest s)) = codeLimit s := by rw [codeLimit, emitMatch_config]; rfl
  refine ⟨_, l, rfl, ?_, (writtenBits_encInsert b _).trans hbits, fun hlt => ?_, fun hsat => ?_⟩
  · have hemit := emitMatch_frame (popIn rest s)
    have hinsert := encInsert_frame b (emitMatch (popIn rest s))
    generalize encInsert b (emitMatch (popIn rest s)) = v at *
    rw [hemit, hout, hcnt] at hinsert
    rw [hinsert]
    rfl
  · have hu : (emitMatch (popIn rest s)).nextCode.toNat < codeLimit (emitMatch (popIn rest s)) := by
      rw [hnext, hlim]; exact hlt
    refine ⟨?_, fun p c => ?_, ?_⟩
    · simpa using encInsert_nextCode_toNat b hu hinv
    · show eChild p c (encInsert b (emitMatch (popIn rest s))) = _
      simpa using eChild_encInsert b hu p c
    · simpa [emitMatch_config] using encInsert_width_toNat b hu hinv
  · have hu : codeLimit (emitMatch (popIn rest s)) ≤ (emitMatch (popIn rest s)).nextCode.toNat := by
      rw [hnext, hlim]; exact hsat
    rw [encInsert_of_saturated b hu]
    simp

/-! The end of an encode pass (42_encode.md R201). -/

/-- Write MATCH.CODE if there is a match: what the finishing step does before it flushes. -/
def emitPending (s : State) : State := if s.matchReg.valid then emitMatch s else s

theorem encFinish_eq (s : State) : encFinish s = setPhase .encDone (flush (emitPending s)) := rfl

theorem emitPending_frame (s : State) :
    emitPending s = { s with
      wAcc := (emitPending s).wAcc, wCnt := (emitPending s).wCnt, outLog := (emitPending s).outLog,
      cntOut := (emitPending s).cntOut, cntCodes := if s.matchReg.valid then s.cntCodes + 1 else s.cntCodes } := by
  unfold emitPending
  split
  · exact emitMatch_frame s
  · rfl

theorem emitPending_countsOutput (s : State) : countsOutput s (emitPending s) := by
  unfold emitPending
  split
  · exact emitMatch_countsOutput s
  · exact countsOutput_refl s

theorem emitPending_accInRange {s : State} (h : accInRange s) : accInRange (emitPending s) := by
  unfold emitPending
  split
  · exact emitMatch_accInRange h
  · exact h

theorem emitPending_writtenBits {s : State} (h : accInRange s) :
    writtenBits (emitPending s) =
      writtenBits s ++ if s.matchReg.valid then bitString s.width.toNat s.matchReg.code.toNat else [] := by
  unfold emitPending
  split
  · exact emitMatch_writtenBits h
  · exact (List.append_nil _).symm

/-- Settles O29: the pending code, if any, then the padding of flush. -/
theorem encStepFinishesThePass : Obligations.EncStepFinishesThePass := by
  intro s hp hacc hq heos
  rw [exec_encStep_of_eos hp hq heos, encFinish_eq]
  have hbits := emitPending_writtenBits hacc
  have hcnt0 := flush_wCnt (emitPending s)
  have hpad := flush_writtenBits (emitPending s) (emitPending_accInRange hacc)
  obtain ⟨l, hout, hcnt⟩ := countsOutput_trans (emitPending_countsOutput s) (flush_countsOutput _)
  refine ⟨_, l, padding (emitPending s), rfl, ?_, padding_lt _, hpad.trans (congrArg (· ++ _) hbits)⟩
  have hemit := emitPending_frame s
  have hflush := flush_frame (emitPending s)
  generalize flush (emitPending s) = v at *
  rw [hout, hcnt, hcnt0, hemit] at hflush
  rw [hflush]
  rfl

/-! One iteration of ENC_RUN (42_encode.md R203). -/

/-- With a byte or the end of input there, the body of ENC_STEP completes; the end of input alone ends the pass. -/
theorem encStepBody_completes {s : State} (hp : s.phase = .encActive) (hready : s.inQ ≠ [] ∨ s.inEos = true) :
    ∃ u, encStepBody s = .completes u ∧ u.phase = if s.inQ = [] then .encDone else .encActive := by
  cases hq : s.inQ with
  | nil => exact ⟨_, encStepBody_of_eos hq (hready.resolve_left (absurd hq)), rfl⟩
  | cons b rest => exact ⟨_, encStepBody_of_byte hq, (encByte_phase _ _).trans hp⟩

/-- Settles O30: the body of ENC_STEP completes, and a RUN keeps its word exactly where the phase is still ENC_ACTIVE. -/
theorem encRunIteratesEncStep : Obligations.EncRunIteratesEncStep := by
  intro s hp hready
  obtain ⟨u, hu, hphase⟩ := encStepBody_completes hp hready
  have hcq : u.cq = s.cq := by
    have hframe := portFrame_encStepBody s
    rw [hu] at hframe
    exact hframe.cq
  refine ⟨popCq u, exec_completes (legalIn_encStep hp) hu, congrArg List.tail hcq, hphase, ?_⟩
  have hbody : commandBody .encRun s = if u.phase = .encActive then .continues u else .completes u := by
    show runIteration .encActive (encStepBody s) = _
    rw [hu, runIteration]
  rw [popCq_phase]
  split
  · next ha =>
    rw [exec_continues (legalIn_encRun hp) (hbody.trans (if_pos ha)), ← hcq]
    rfl
  · next ha =>
    rw [exec_completes (legalIn_encRun hp) (hbody.trans (if_neg ha)), ← hcq]
    rfl

/-! PHASE (42_encode.md R191, 43_decode.md R221). -/

/-- The dashes of the table of 44_control.md R255 are the phases in which a command is not legal. -/
theorem notLegal_iff (i : Instr) (p : Phase) : notLegal i p ↔ legalIn i p = false := by
  cases i with
  | nop | softReset | encStart | decStart => simp [notLegal, legalIn]
  | encStep | encRun | decStep | decRun => simp [notLegal, legalIn]
  | cfg | bsFlush | bsWrite | bsRead => cases p <;> simp [notLegal, legalIn, Phase.inPass, Phase.rawLegal]

/-- What brings the phase from another one to each phase while the block runs the command `i`: `entersPhase` for a given command. -/
def commandEnters (i : Instr) (s : State) : Phase → Prop
  | .idle => i = .softReset
  | .encActive => i = .encStart
  | .encDone => s.phase = .encActive ∧ (i = .encStep ∨ i = .encRun) ∧ s.inQ = [] ∧ s.inEos = true
  | .decActive => i = .decStart ∧ s.inQ ≠ []
  | .decDone => s.phase = .decActive ∧ (i = .decStep ∨ i = .decRun) ∧ s.inQ = [] ∧ s.inEos = true ∧
      s.rCnt.toNat < s.width.toNat
  | .error =>
    notLegal i s.phase ∨ (∃ m a, i = .cfg m a ∧ ¬ (9 ≤ m.toNat ∧ m.toNat ≤ s.params.maxbLimit)) ∨
    (i = .decStart ∧ s.inQ = [] ∧ s.inEos = true) ∨ (s.phase = .decActive ∧ (i = .decStep ∨ i = .decRun))

theorem headIs_or_headIs {i j k : Instr} {s : State} (hi : headIs i s) (h : i = j ∨ i = k) : headIs j s ∨ headIs k s := by
  rcases h with rfl | rfl
  · exact .inl hi
  · exact .inr hi

theorem entersPhase_of_commandEnters {i : Instr} {s : State} (hi : headIs i s) {p : Phase} (h : commandEnters i s p) :
    entersPhase s p := by
  cases p with
  | idle =>
    obtain rfl : i = .softReset := h
    exact .inr hi
  | encActive =>
    obtain rfl : i = .encStart := h
    exact hi
  | encDone =>
    obtain ⟨hp, hstep, hin⟩ := h
    exact ⟨hp, headIs_or_headIs hi hstep, hin⟩
  | decActive => exact ⟨h.1 ▸ hi, h.2⟩
  | decDone =>
    obtain ⟨hp, hstep, hin⟩ := h
    exact ⟨hp, headIs_or_headIs hi hstep, hin⟩
  | error =>
    rcases h with hl | ⟨m, a, rfl, hm⟩ | ⟨rfl, hin⟩ | ⟨hp, hstep⟩
    · exact .inr (.inl ⟨i, hi, hl⟩)
    · exact .inr (.inr (.inl ⟨m, a, hi, hm⟩))
    · exact .inr (.inr (.inr (.inl ⟨hi, hin⟩)))
    · exact .inr (.inr (.inr (.inr ⟨hp, headIs_or_headIs hi hstep⟩)))

/-- The phase in which a cycle that makes this progress ends has property `P`; an error ends it in ERROR (60_exceptions.md R276). -/
def Progress.EndsIn (P : Phase → Prop) : Progress → Prop
  | .completes t => P t.phase
  | .continues t => P t.phase
  | .holds => True
  | .raises _ _ => P .error
  | .undefinedRead => True

theorem runIteration_endsIn {p : Phase} {r : Progress} {P : Phase → Prop} (h : r.EndsIn P) : (runIteration p r).EndsIn P := by
  cases r with
  | completes t =>
    rw [runIteration]
    split <;> exact h
  | continues | holds | raises | undefinedRead => exact h

/-- A legal command holds or ends in a phase that its body allows. -/
theorem exec_endsIn {i : Instr} {s t : State} {P : Phase → Prop} (h : exec i s = .next t) (hl : legalIn i s.phase = true)
    (hb : (commandBody i s).EndsIn P) (hs : P s.phase) : P t.phase := by
  rw [exec_eq] at h
  rcases runCommand_next h with ⟨hl', -⟩ | ⟨-, ⟨u, hu, rfl⟩ | hu | ⟨-, rfl⟩ | ⟨k, u, hu, rfl⟩⟩
  · rw [hl] at hl'; cases hl'
  · rw [hu] at hb; exact hb
  · rw [hu] at hb; exact hb
  · exact hs
  · rw [hu] at hb; rw [popCq_phase, errorEntry_phase]; exact hb

/-- The phase stays, or the command enters the phase. -/
abbrev staysOrEnters (i : Instr) (s : State) (p : Phase) : Prop := p = s.phase ∨ commandEnters i s p

theorem encStepBody_endsIn {i : Instr} {s : State} (hi : i = .encStep ∨ i = .encRun) (hp : s.phase = .encActive) :
    (encStepBody s).EndsIn (staysOrEnters i s) := by
  have hphase := encStepBody_phase s hp
  have hmoves : ∀ t : State, t.phase = .encActive ∨ (t.phase = .encDone ∧ s.inQ = [] ∧ s.inEos = true) →
      staysOrEnters i s t.phase := by
    rintro t (ht | ⟨ht, hin⟩) <;> rw [staysOrEnters, ht]
    · exact .inl hp.symm
    · exact .inr ⟨hp, hi, hin⟩
  cases hb : encStepBody s with
  | completes t => rw [hb] at hphase; exact hmoves t hphase
  | continues t => rw [hb] at hphase; exact hmoves t hphase
  | holds => exact trivial
  | raises k t => exact absurd hb (encStepBody_ne_raises s k t)
  | undefinedRead => exact trivial

theorem decStepBody_endsIn {i : Instr} {s : State} (hi : i = .decStep ∨ i = .decRun) (hp : s.phase = .decActive) :
    (decStepBody s).EndsIn (staysOrEnters i s) := by
  cases hb : decStepBody s with
  | completes t =>
    have hphase := decStepBody_phase s hp
    rw [hb] at hphase
    rcases hphase with ht | ht <;> rw [Progress.EndsIn, ht]
    · exact .inl hp.symm
    · exact .inr ⟨hp, hi, decStepBody_done hb hp ht⟩
  | continues t => exact absurd hb (decStepBody_ne_continues s t)
  | holds => exact trivial
  | raises k t => exact .inr (.inr (.inr (.inr ⟨hp, hi⟩)))
  | undefinedRead => exact trivial

theorem decStartBody_endsIn (s : State) : (decStartBody s).EndsIn (staysOrEnters .decStart s) := by
  unfold decStartBody
  split
  · next hready =>
    dsimp only
    split
    · next hq =>
      exact .inr (.inr (.inr (.inl ⟨rfl, hq, ((inputReady_iff s).mp hready).resolve_left (absurd hq)⟩)))
    · next hq => exact .inr ⟨rfl, by rw [← startCommon_inQ, hq]; simp⟩
  · exact trivial

theorem commandBody_endsIn {i : Instr} {s : State} (hl : legalIn i s.phase = true) :
    (commandBody i s).EndsIn (staysOrEnters i s) := by
  cases i with
  | nop => exact .inl rfl
  | softReset => exact .inr rfl
  | cfg m a =>
    show (cfgBody m a s).EndsIn _
    unfold cfgBody
    split
    · exact .inl rfl
    · next hm => exact .inr (.inr (.inl ⟨m, a, rfl, by rwa [← legalMaxBits_iff]⟩))
  | encStart => exact .inr rfl
  | encStep => exact encStepBody_endsIn (.inl rfl) (of_decide_eq_true hl)
  | encRun => exact runIteration_endsIn (encStepBody_endsIn (.inr rfl) (of_decide_eq_true hl))
  | decStart => exact decStartBody_endsIn s
  | decStep => exact decStepBody_endsIn (.inl rfl) (of_decide_eq_true hl)
  | decRun => exact runIteration_endsIn (decStepBody_endsIn (.inr rfl) (of_decide_eq_true hl))
  | bsFlush =>
    show staysOrEnters _ s (flush s).phase
    rw [flush_frame]; exact .inl rfl
  | bsWrite w v =>
    show staysOrEnters _ s (writeBits _ _ s).phase
    rw [writeBits_frame]; exact .inl rfl
  | bsRead w =>
    show (bsReadBody w s).EndsIn _
    unfold bsReadBody
    split
    · show staysOrEnters _ s (readBits _ s).2.phase
      rw [readBits_frame]; exact .inl rfl
    · exact trivial

/-- A command leaves PHASE or enters a phase that its arrow gives; one that is not legal enters ERROR. -/
theorem exec_staysOrEnters {i : Instr} {s t : State} (h : exec i s = .next t) : staysOrEnters i s t.phase := by
  cases hl : legalIn i s.phase with
  | true => exact exec_endsIn h hl (commandBody_endsIn hl) (.inl rfl)
  | false =>
    rw [exec_eq, runCommand_illegal hl, Host.Outcome.next.injEq] at h
    rw [← h, popCq_phase, errorEntry_phase]
    exact .inr (.inl ((notLegal_iff i _).mpr hl))

/-- No move of the host but hardware reset touches PHASE. -/
theorem hostEffect_phase {m : HostMove} (hr : m ≠ .hardReset) (s : State) : (hostEffect m s).phase = s.phase := by
  cases m with
  | writeReg size off w => rw [hostEffect, windowWrite_eq]
  | hardReset => exact absurd rfl hr
  | readReg | pushIn | setEos | clearEos | discardIn | drainOut => rfl

/-- Settles O47: by the case of the step, and for a cycle by its word and its command. -/
theorem phaseMovesOnlyAsListed : Obligations.PhaseMovesOnlyAsListed := by
  intro s t hstep hne
  rcases step_next hstep with ⟨l, -, hc⟩ | ⟨m, rest, ha, -, hm⟩
  · rcases cycle_next hc with ⟨-, rfl⟩ | ⟨cw, rest, e, hcq, hd, rfl⟩ | ⟨cw, rest, i, hcq, hd, he⟩
    · exact absurd rfl hne
    · rw [popCq_phase, errorEntry_phase]
      exact .inl ⟨cw, rest, e, hcq, hd⟩
    · exact entersPhase_of_commandEnters (s := s) ⟨cw, rest, hcq, hd⟩ ((exec_staysOrEnters he).resolve_left hne)
  · obtain rfl := eq_hostEffect_of_next hm
    by_cases hr : m = .hardReset
    · subst hr
      exact .inl ⟨rest, ha⟩
    · exact absurd (hostEffect_phase hr _) hne

end Sys2Proof.Machine

/-!
The decode pipeline (43_decode.md): what DEC_START, each case of DEC_STEP and an iteration of DEC_RUN do.
-/

namespace Sys2Proof.Machine

open Sys2Proof.Claims

/-! DEC_START (43_decode.md R222). -/

/-- A read that the bits in R_BUF suffice for fetches no byte (40_bitstream.md R138). -/
theorem readLoop_rBuf {n : Nat} {s : State} (v : BitVec 24) (f : Bool) (h : n ≤ s.rCnt.toNat) :
    (readLoop n v f s).2.rBuf = s.rBuf := by
  induction n generalizing v f s with
  | zero => rfl
  | succ n ih =>
    have hbit : readBit s = some (s.rBuf.getLsbD (s.rCnt.toNat - 1), false, { s with rCnt := s.rCnt - 1 }) :=
      if_neg (by omega)
    have hcnt : n ≤ (s.rCnt - 1).toNat := by rw [BitVec.toNat_sub]; simp; omega
    rw [readLoop, hbit]
    exact ih (s := { s with rCnt := s.rCnt - 1 }) _ _ hcnt

/-- From a byte boundary read_bits of 8 bits takes the byte at the head of IN (43_decode.md R222). -/
theorem readBits_byte {b : Byte} {rest : List Byte} {s : State} (hcnt : s.rCnt = 0) (hq : s.inQ = b :: rest) :
    readBits 8 s = (.ok (b.setWidth 24), { s with rBuf := b, rCnt := 0, inQ := rest, cntIn := s.cntIn + 1 }) := by
  have havail : 8 ≤ s.rCnt.toNat + 8 * s.inQ.length := by rw [hq, List.length_cons]; omega
  have hunread : unreadBits s = byteBits b ++ bytesBits rest := by rw [unreadBits, hcnt, hq]; rfl
  have hbuf : (readBits 8 s).2.rBuf = b := by
    have hbit : readBit s = some (b.getLsbD 7, true, { s with inQ := rest, cntIn := s.cntIn + 1, rBuf := b, rCnt := 7 }) := by
      rw [readBit, if_pos (by rw [hcnt]; rfl), inPop_cons hq]
    rw [readBits, readLoop, hbit]
    exact readLoop_rBuf _ _ (le_refl 7)
  obtain ⟨-, hcnt', hin, hcntIn⟩ := readBits_taken 8 s (by decide) havail
  rw [hcnt] at hcnt' hin hcntIn
  refine Prod.ext ?_ ?_
  · rw [(readBits_ok 8 s (by decide) havail).1, hunread, List.take_left' (length_byteBits b), byteBits, bitValue_bitString,
      Nat.mod_eq_of_lt b.isLt]
    exact congrArg ReadResult.ok (BitVec.ofNat_toNat 24 b)
  · rw [readBits_frame, hbuf, hin, hcntIn, hq, BitVec.eq_of_toNat_eq (x := (readBits 8 s).2.rCnt) (y := 0) hcnt']
    rfl

theorem decStartBody_of_byte {s : State} {h : Byte} {rest : List Byte} (hq : s.inQ = h :: rest) :
    decStartBody s =
      .completes (takeHeader h { startCommon s with rBuf := h, inQ := rest, cntIn := 1 }) := by
  have hread := readBits_byte (s := startCommon s) rfl hq
  have hbyte : (h.setWidth 24).setWidth 8 = h := by simp
  rw [decStartBody, if_pos ((inputReady_iff s).mpr (.inl (by rw [hq]; exact List.cons_ne_nil _ _)))]
  simp only [startCommon_inQ, hq, hread, ReadResult.value, hbyte]
  rfl

theorem decStartBody_of_eos {s : State} (hq : s.inQ = []) (heos : s.inEos = true) :
    decStartBody s = .raises .invalidCode (startCommon s) := by
  rw [decStartBody, if_pos ((inputReady_iff s).mpr (.inr heos))]
  simp only [startCommon_inQ, hq]

/-- Settles O34: the reader is at a byte boundary after start_common, so the header is the byte at the head of IN. -/
theorem decStartReadsTheHeader : Obligations.DecStartReadsTheHeader := by
  intro s h rest hq
  rw [exec_completes (i := .decStart) rfl (decStartBody_of_byte hq)]
  rfl

/-- Settles O35: start_common leaves the phase IDLE, so the error entry records this error. -/
theorem decStartWithoutHeaderRaisesInvalidCode : Obligations.DecStartWithoutHeaderRaisesInvalidCode := by
  intro s hq heos
  rw [exec_raises (i := .decStart) rfl (decStartBody_of_eos hq heos), popCq_errorEntry]
  rfl

/-! The read of DEC_STEP (43_decode.md R225, R226). -/

/-- DEC_STEP and DEC_RUN are legal in a decode pass (44_control.md R255). -/
theorem legalIn_decStep {p : Phase} (hp : p = .decActive) : legalIn .decStep p = true := decide_eq_true hp

theorem legalIn_decRun {p : Phase} (hp : p = .decActive) : legalIn .decRun p = true := decide_eq_true hp

/-- `s` after a code of WIDTH bits was read, RESULT updated (43_decode.md R225 item 1). -/
def codeRead (s : State) : State := recordRead (.ok (nextValue s.width.toNat s)) (readBits s.width.toNat s).2

theorem codeRead_frame (s : State) :
    codeRead s = { s with
      rBuf := (codeRead s).rBuf, rCnt := (codeRead s).rCnt, inQ := (codeRead s).inQ, cntIn := (codeRead s).cntIn,
      result := resultOk (nextValue s.width.toNat s) } := by
  conv_lhs => rw [codeRead, readBits_frame]
  rfl

@[simp] theorem codeRead_phase (s : State) : (codeRead s).phase = s.phase := by rw [codeRead_frame]
@[simp] theorem codeRead_width (s : State) : (codeRead s).width = s.width := by rw [codeRead_frame]
@[simp] theorem codeRead_nextCode (s : State) : (codeRead s).nextCode = s.nextCode := by rw [codeRead_frame]
@[simp] theorem codeRead_matchReg (s : State) : (codeRead s).matchReg = s.matchReg := by rw [codeRead_frame]
@[simp] theorem codeRead_config (s : State) : (codeRead s).config = s.config := by rw [codeRead_frame]
@[simp] theorem codeRead_dtab (s : State) : (codeRead s).dtab = s.dtab := by rw [codeRead_frame]

theorem State.Inv.codeRead {s : State} (h : s.Inv) : (codeRead s).Inv := (h.readBits _).recordRead _

section CodeArrived

variable {s : State} (hc : codeArrived s) (hw : s.width.toNat ≤ 24)
include hc hw

theorem bitsTaken_codeRead : bitsTaken s.width.toNat s (codeRead s) := readBits_taken s.width.toNat s hw hc.2

/-- With a code arrived DEC_STEP reads it and processes it (R225). -/
theorem decStepBody_of_code : decStepBody s = takeCode (nextValue s.width.toNat s) (codeRead s) := by
  rw [decStepBody, if_pos ((readEnabled_iff _ s).mpr (.inl hc.2))]
  dsimp only
  rw [(readBits_ok s.width.toNat s hw hc.2).1]
  rfl

end CodeArrived

/-- A code read at WIDTH in a pass is below 2^MAX_BITS (40_bitstream.md R138, 10_state.md R51). -/
theorem State.Inv.nextValue_lt {s : State} (h : s.Inv) (hc : codeArrived s) :
    (nextValue s.width.toNat s).toNat < codeLimit s :=
  lt_of_lt_of_le (readBits_lt h.width_le (readBits_ok _ s h.width_le hc.2).1)
    (Nat.pow_le_pow_right (by decide) (h.width_le_maxBits (by rw [hc.1]; rfl)))

/-- A command that raises where no error is recorded records its own (60_exceptions.md R276). -/
theorem exec_raises_first {i : Instr} {s t : State} {k : ErrKind} (hl : legalIn i s.phase = true)
    (hb : commandBody i s = .raises k t) (ht : t.phase ≠ .error) :
    exec i s = .next { t with cq := t.cq.tail, phase := .error, err := some k, errcmd := encode i } := by
  rw [exec_raises hl hb, popCq_errorEntry, afterError, if_neg ht, if_neg ht]

/-- DEC_STEP raises from within the pass, so its error is recorded. -/
theorem exec_decStep_raises {s t : State} {k : ErrKind} (hp : s.phase = .decActive) (hb : decStepBody s = .raises k t) :
    exec .decStep s = .next { t with cq := t.cq.tail, phase := .error, err := some k, errcmd := 0x09000000 } :=
  exec_raises_first (legalIn_decStep hp) hb (by rw [decStepBody_raises s hp hb]; decide)

/-- As DEC_STEP, with its own word in ERRCMD (43_decode.md R236). -/
theorem exec_decRun_raises {s t : State} {k : ErrKind} (hp : s.phase = .decActive) (hb : decStepBody s = .raises k t) :
    exec .decRun s = .next { t with cq := t.cq.tail, phase := .error, err := some k, errcmd := 0x0A000000 } :=
  exec_raises_first (legalIn_decRun hp) (congrArg (runIteration .decActive) hb) (by rw [decStepBody_raises s hp hb]; decide)

/-! The first code of a pass (43_decode.md R227). -/

theorem takeCode_of_first {code : Code} {s : State} (hv : s.matchReg.valid = false) : takeCode code s = firstCode code s :=
  if_neg (by simp [hv])

theorem firstCode_of_lt {code : Code} {s : State} (h : code.toNat < 256) :
    firstCode code s = .completes (setMatch code (countCode (outPush (code.setWidth 8) s))) :=
  if_neg (Nat.not_le.mpr h)

theorem firstCode_of_ge {code : Code} {s : State} (h : 256 ≤ code.toNat) : firstCode code s = .raises .invalidCode s := if_pos h

/-- Settles O36: the code is read, and below 256 it is its own byte. -/
theorem decStepFirstCodeIsItsByte : Obligations.DecStepFirstCodeIsItsByte := by
  intro s hc hw hv hlt
  have hbody := decStepBody_of_code hc hw
  rw [takeCode_of_first (by rwa [codeRead_matchReg]), firstCode_of_lt hlt] at hbody
  have hexec := exec_completes (legalIn_decStep hc.1) hbody
  have htaken := bitsTaken_codeRead hc hw
  have hframe := codeRead_frame s
  generalize codeRead s = r at *
  refine ⟨_, hexec, htaken, ?_⟩
  rw [hframe]
  rfl

/-! A later code (43_decode.md R229). -/

section LaterCode

variable {code : Code} {s : State} (h : s.Inv) (hp : s.phase = .decActive) (hv : s.matchReg.valid = true)
include h hp hv

/-- The current match is bound, so a later code is taken with its sequence (10_state.md R51 items 6, 8). -/
theorem takeCode_of_later (code : Code) :
    ∃ c0 cur, dtabAt s.dtab s.matchReg.code.toNat = some (c0 :: cur) ∧ takeCode code s = laterCode code (c0 :: cur) s := by
  obtain ⟨c0, cur, hcur, -⟩ := (h.table hp).lookup (h.matchBound hv)
  refine ⟨c0, cur, hcur, ?_⟩
  rw [takeCode, if_pos hv, hcur]

/-- A later code above NEXT_CODE is invalid (R229 item 3). -/
theorem takeCode_of_gt (hgt : s.nextCode.toNat < code.toNat) : takeCode code s = .raises .invalidCode s := by
  obtain ⟨c0, cur, -, htake⟩ := takeCode_of_later h hp hv code
  rw [htake, laterCode, dGet, if_neg (by omega)]
  exact if_neg (by omega)

/-- A later code that is bound, or equal to NEXT_CODE, is pushed as its entry (R229 items 1, 2). -/
theorem takeCode_of_le (hle : code.toNat ≤ s.nextCode.toNat) :
    ∃ c0 e0 cur entry, dtabAt s.dtab s.matchReg.code.toNat = some (c0 :: cur) ∧
      (code.toNat < s.nextCode.toNat → dtabAt s.dtab code.toNat = some (e0 :: entry)) ∧
      (code.toNat = s.nextCode.toNat → e0 :: entry = (c0 :: cur) ++ [c0]) ∧
      takeCode code s =
        .completes (setMatch code (decExtend (c0 :: cur) e0 (countCode (outPushAll (e0 :: entry) s)))) := by
  obtain ⟨c0, cur, hcur, htake⟩ := takeCode_of_later h hp hv code
  rcases Nat.lt_or_eq_of_le hle with hlt | heq
  · obtain ⟨e0, entry, hentry, -⟩ := (h.table hp).lookup hlt
    refine ⟨c0, e0, cur, entry, hcur, fun _ => hentry, fun heq => absurd heq hlt.ne, ?_⟩
    rw [htake, laterCode, dGet, if_pos hlt, hentry]
    rfl
  · refine ⟨c0, c0, cur, cur ++ [c0], hcur, fun hlt => absurd heq hlt.ne, fun _ => rfl, ?_⟩
    rw [htake, laterCode, dGet, if_neg heq.not_lt]
    exact if_pos heq

end LaterCode

/-- Settles O37: both codes are refused after the read, and the error entry is taken from within the pass. -/
theorem decStepOutOfRangeCodeRaisesInvalidCode : Obligations.DecStepOutOfRangeCodeRaisesInvalidCode := by
  intro s h hc hcode
  have hbody : decStepBody s = .raises .invalidCode (codeRead s) := by
    rw [decStepBody_of_code hc h.width_le]
    rcases hcode with ⟨hv, hge⟩ | ⟨hv, hgt⟩
    · rw [takeCode_of_first (by rwa [codeRead_matchReg]), firstCode_of_ge hge]
    · exact takeCode_of_gt h.codeRead ((codeRead_phase s).trans hc.1) (by rwa [codeRead_matchReg]) (by rwa [codeRead_nextCode])
  refine ⟨_, exec_decStep_raises hc.1 hbody, bitsTaken_codeRead hc h.width_le, ?_⟩
  conv_lhs => rw [codeRead_frame]

/-! Extending the table (43_decode.md R229 item 4, R230). -/

/-- The width test changes WIDTH alone (R230). -/
theorem decWiden_frame (s : State) : decWiden s = { s with width := (decWiden s).width } := by
  unfold decWiden
  split <;> rfl

/-- WIDTH after the width test (R230); MAX_BITS is at most 24, so the 5 bits of WIDTH hold one more. -/
theorem decWiden_width_toNat {s : State} (hmax : s.config.maxBits.toNat ≤ 24) :
    (decWiden s).width.toNat =
      if s.config.adaptive = true ∧ 2 ^ s.width.toNat ≤ s.nextCode.toNat + 1 ∧ s.width.toNat < s.config.maxBits.toNat
      then s.width.toNat + 1 else s.width.toNat := by
  rw [decWiden, apply_ite State.width, apply_ite BitVec.toNat]
  simp only [Bool.and_eq_true, decide_eq_true_eq, and_assoc]
  refine ite_congr rfl (fun ⟨_, _, hlt⟩ => ?_) (fun _ => rfl)
  rw [widen_width, BitVec.toNat_add]
  exact Nat.mod_eq_of_lt (by show s.width.toNat + 1 < 32; omega)

section DecExtend

variable {s : State} (cur : Bytes) (b : Byte)

/-- A saturated table takes no extension and WIDTH stays (R231). -/
theorem decExtend_of_saturated (hsat : codeLimit s ≤ s.nextCode.toNat) : decExtend cur b s = s :=
  if_neg (by rw [unsaturated_iff]; omega)

section Unsaturated

variable (hu : s.nextCode.toNat < codeLimit s)
include hu

/-- An unsaturated table takes the extension, and the width test comes after it (R229, R230). -/
theorem decExtend_of_unsaturated :
    decExtend cur b s =
      decWiden { s with dtab := dtabPut s.dtab s.nextCode.toNat (cur ++ [b]), nextCode := s.nextCode + 1 } := by
  have hus := (unsaturated_iff s).mpr hu
  rw [decExtend, if_pos hus, dExtend, if_pos hus]

variable (h : s.Inv)
include h

/-- The entry is bound to NEXT_CODE, and every other binding stays (41_dictionaries.md R180). -/
theorem dtabAt_decExtend (c : Nat) :
    dtabAt (decExtend cur b s).dtab c = if c = s.nextCode.toNat then some (cur ++ [b]) else dtabAt s.dtab c := by
  rw [decExtend_of_unsaturated cur b hu, decWiden_frame]
  exact dtabAt_dtabPut _ _ _ _ h.nextCode.1

theorem State.Inv.nextCode_succ : (s.nextCode + 1).toNat = s.nextCode.toNat + 1 :=
  Machine.nextCode_succ s (lt_of_lt_of_le hu (h.codeLimit_le.trans h.limit_le))

theorem decExtend_nextCode_toNat : (decExtend cur b s).nextCode.toNat = s.nextCode.toNat + 1 := by
  rw [decExtend_of_unsaturated cur b hu, decWiden_frame]
  exact h.nextCode_succ hu

theorem decExtend_width_toNat :
    (decExtend cur b s).width.toNat =
      if s.config.adaptive = true ∧ 2 ^ s.width.toNat ≤ s.nextCode.toNat + 2 ∧ s.width.toNat < s.config.maxBits.toNat
      then s.width.toNat + 1 else s.width.toNat := by
  have hnext := h.nextCode_succ hu
  rw [decExtend_of_unsaturated cur b hu, decWiden_width_toNat (by exact h.maxBits_le)]
  simp only [hnext]

end Unsaturated

end DecExtend

/-- `s` after a code was read and `entry` pushed for it and counted (43_decode.md R225 items 1, 4, R228). -/
def entryPushed (entry : Bytes) (s : State) : State := countCode (outPushAll entry (codeRead s))

theorem entryPushed_frame (entry : Bytes) (s : State) :
    entryPushed entry s = { codeRead s with
      outLog := s.outLog ++ entry, cntOut := s.cntOut + BitVec.ofNat 32 entry.length, cntCodes := s.cntCodes + 1 } := by
  rw [entryPushed, outPushAll_frame, codeRead_frame]
  rfl

@[simp] theorem entryPushed_nextCode (entry : Bytes) (s : State) : (entryPushed entry s).nextCode = s.nextCode := by
  rw [entryPushed_frame]; exact codeRead_nextCode s
@[simp] theorem entryPushed_dtab (entry : Bytes) (s : State) : (entryPushed entry s).dtab = s.dtab := by
  rw [entryPushed_frame]; exact codeRead_dtab s
@[simp] theorem entryPushed_width (entry : Bytes) (s : State) : (entryPushed entry s).width = s.width := by
  rw [entryPushed_frame]; exact codeRead_width s
@[simp] theorem entryPushed_config (entry : Bytes) (s : State) : (entryPushed entry s).config = s.config := by
  rw [entryPushed_frame]; exact codeRead_config s
@[simp] theorem codeLimit_entryPushed (entry : Bytes) (s : State) : codeLimit (entryPushed entry s) = codeLimit s := by
  rw [codeLimit, entryPushed_config, codeLimit]

theorem State.Inv.entryPushed {s : State} (h : s.Inv) (entry : Bytes) : (entryPushed entry s).Inv :=
  (h.codeRead.outPushAll entry).countCode

/-- The reader after the entry is pushed and the table extended is the one after the read, and RESULT holds the code. -/
theorem decExtend_entryPushed_frame (entry cur : Bytes) (b : Byte) (s : State) :
    decExtend cur b (entryPushed entry s) = { s with
      rBuf := (codeRead s).rBuf, rCnt := (codeRead s).rCnt, inQ := (codeRead s).inQ, cntIn := (codeRead s).cntIn,
      result := resultOk (nextValue s.width.toNat s), outLog := s.outLog ++ entry,
      cntOut := s.cntOut + BitVec.ofNat 32 entry.length, cntCodes := s.cntCodes + 1,
      dtab := (decExtend cur b (entryPushed entry s)).dtab,
      nextCode := (decExtend cur b (entryPushed entry s)).nextCode,
      width := (decExtend cur b (entryPushed entry s)).width } := by
  have hpush := entryPushed_frame entry s
  have hread := codeRead_frame s
  have hext := decExtend_frame cur b (entryPushed entry s)
  generalize decExtend cur b (entryPushed entry s) = x at *
  generalize entryPushed entry s = p at *
  generalize codeRead s = r at *
  rw [hext, hpush, hread]

/-- Settles O38: the code is read, its entry pushed, the table extended and the code made the match; a code equal to NEXT_CODE is
bound by that extension itself, and there is none such once the table has saturated. -/
theorem decStepLaterCodePushesItsEntry : Obligations.DecStepLaterCodePushesItsEntry := by
  intro s h hc hv hle
  have hlim := h.nextValue_lt hc
  have hbody := decStepBody_of_code hc h.width_le
  obtain ⟨c0, e0, cur, entry, hcur, hbound, hself, htake⟩ :=
    takeCode_of_le h.codeRead ((codeRead_phase s).trans hc.1) (by rwa [codeRead_matchReg]) (by rwa [codeRead_nextCode])
  simp only [codeRead_dtab, codeRead_matchReg, codeRead_nextCode] at hcur hbound hself
  have hexec : exec .decStep s = .next (popCq (setMatch (nextValue s.width.toNat s)
      (decExtend (c0 :: cur) e0 (entryPushed (e0 :: entry) s)))) :=
    exec_completes (legalIn_decStep hc.1) (hbody.trans htake)
  have hinv := h.entryPushed (e0 :: entry)
  have hsaturated : codeLimit s ≤ s.nextCode.toNat →
      decExtend (c0 :: cur) e0 (entryPushed (e0 :: entry) s) = entryPushed (e0 :: entry) s := fun hs =>
    decExtend_of_saturated _ _ (by simpa using hs)
  have hunsaturated : s.nextCode.toNat < codeLimit s →
      (entryPushed (e0 :: entry) s).nextCode.toNat < codeLimit (entryPushed (e0 :: entry) s) := fun hu => by simpa using hu
  have hdtab : s.nextCode.toNat < codeLimit s → ∀ c,
      dtabAt (decExtend (c0 :: cur) e0 (entryPushed (e0 :: entry) s)).dtab c =
        if c = s.nextCode.toNat then some ((c0 :: cur) ++ [e0]) else dtabAt s.dtab c := fun hu c => by
    simpa using dtabAt_decExtend (c0 :: cur) e0 (hunsaturated hu) hinv c
  refine ⟨_, c0, e0, cur, entry, hcur, hbound, hself, hexec, ?_, ?_, ?_, fun hu => ⟨?_, hdtab hu, ?_⟩,
    fun hs => ?_⟩
  · rw [decExtend_entryPushed_frame]
    exact bitsTaken_codeRead hc h.width_le
  · conv_lhs => rw [decExtend_entryPushed_frame]
    rw [decExtend_entryPushed_frame]
    rfl
  · show dtabAt (decExtend (c0 :: cur) e0 (entryPushed (e0 :: entry) s)).dtab _ = _
    by_cases hu : s.nextCode.toNat < codeLimit s
    · rw [hdtab hu]
      split
      · next heq =>
        have hentry := hself heq
        obtain ⟨rfl, -⟩ := List.cons.inj hentry
        rw [hentry]
      · next hne => exact hbound (lt_of_le_of_ne hle hne)
    · rw [hsaturated (Nat.le_of_not_lt hu), entryPushed_dtab]
      exact hbound (by omega)
  · simpa using decExtend_nextCode_toNat (c0 :: cur) e0 (hunsaturated hu) hinv
  · simpa using decExtend_width_toNat (c0 :: cur) e0 (hunsaturated hu) hinv
  · rw [hsaturated hs]
    exact ⟨entryPushed_nextCode _ s, entryPushed_dtab _ s, entryPushed_width _ s⟩

/-! The end of input (43_decode.md R226). -/

/-- `s` after a read that the end of input cut short: every byte taken, RESULT without data (40_bitstream.md R139). -/
def nodataRead (s : State) : State := recordRead (.nodata (!s.inQ.isEmpty)) (readBits s.width.toNat s).2

section EndOfInput

variable {s : State} (hfew : s.rCnt.toNat + 8 * s.inQ.length < s.width.toNat)
include hfew

theorem nodataRead_frame :
    nodataRead s = { s with
      rBuf := (nodataRead s).rBuf, rCnt := 0, inQ := [], cntIn := s.cntIn + BitVec.ofNat 32 s.inQ.length,
      result := resultNodata (!s.inQ.isEmpty) } := by
  obtain ⟨-, hempty, hcnt⟩ := readBits_nodata s.width.toNat s hfew
  obtain ⟨l, hl, hcntIn⟩ := readBits_pops s.width.toNat s
  rw [hempty, List.append_nil] at hl
  rw [← hl] at hcntIn
  conv_lhs => rw [nodataRead, readBits_frame, hempty, hcnt, hcntIn]
  rfl

/-- With too few bits at the end of input DEC_STEP ends the pass at a code boundary and raises mid-code (R226). -/
theorem decStepBody_of_eos (heos : s.inEos = true) :
    decStepBody s =
      if s.inQ = [] then .completes (setPhase .decDone (nodataRead s)) else .raises .invalidCode (nodataRead s) := by
  rw [decStepBody, if_pos ((readEnabled_iff _ s).mpr (.inr heos))]
  dsimp only
  rw [(readBits_nodata s.width.toNat s hfew).1, nodataRead]
  cases s.inQ <;> rfl

end EndOfInput

/-- Settles O39: the read finds no data, mid-code exactly where a byte was queued. -/
theorem decStepAtTheEndOfInput : Obligations.DecStepAtTheEndOfInput := by
  intro s hp hfew heos
  have hbody := decStepBody_of_eos hfew heos
  have hframe := nodataRead_frame hfew
  generalize nodataRead s = r at *
  by_cases hq : s.inQ = []
  · rw [if_pos hq] at hbody
    refine ⟨_, exec_completes (legalIn_decStep hp) hbody, ?_⟩
    rw [if_pos hq, if_pos hq, if_pos hq, hframe]
    rfl
  · rw [if_neg hq] at hbody
    refine ⟨_, exec_decStep_raises hp hbody, ?_⟩
    rw [if_neg hq, if_neg hq, if_neg hq, hframe]

/-! One iteration of DEC_RUN (43_decode.md R236). -/

/-- The phase in which DEC_STEP with a code or the end of input there leaves the block (43_decode.md R225 to R229). -/
def decStepEnds (s : State) : Phase :=
  if s.width.toNat ≤ s.rCnt.toNat + 8 * s.inQ.length then
    (if (nextValue s.width.toNat s).toNat ≤ (if s.matchReg.valid then s.nextCode.toNat else 255) then .decActive else .error)
  else if s.inQ = [] then .decDone else .error

section DecStepEnds

variable {s : State} (h : s.Inv) (hp : s.phase = .decActive)
include h hp

/-- A legal code completes the step and leaves the pass active, any other raises (R227, R229). -/
theorem decStepBody_endsIn_of_code (hc : s.width.toNat ≤ s.rCnt.toNat + 8 * s.inQ.length) :
    (decStepBody s).EndsIn (· = decStepEnds s) := by
  have hphase := (codeRead_phase s).trans hp
  rw [decStepEnds, if_pos hc, decStepBody_of_code ⟨hp, hc⟩ h.width_le]
  cases hv : s.matchReg.valid with
  | false =>
    rw [takeCode_of_first (by rwa [codeRead_matchReg])]
    by_cases hlt : (nextValue s.width.toNat s).toNat < 256
    · rw [firstCode_of_lt hlt]
      exact hphase.trans (if_pos (Nat.le_of_lt_succ hlt)).symm
    · rw [firstCode_of_ge (Nat.le_of_not_lt hlt)]
      exact (if_neg (fun hle => hlt (Nat.lt_succ_of_le hle))).symm
  | true =>
    have hv' : (codeRead s).matchReg.valid = true := by rwa [codeRead_matchReg]
    by_cases hle : (nextValue s.width.toNat s).toNat ≤ s.nextCode.toNat
    · obtain ⟨c0, e0, cur, entry, -, -, -, htake⟩ :=
        takeCode_of_le h.codeRead hphase hv' (by rwa [codeRead_nextCode])
      rw [htake]
      show (decExtend (c0 :: cur) e0 (entryPushed (e0 :: entry) s)).phase = _
      rw [decExtend_entryPushed_frame]
      exact hp.trans (if_pos hle).symm
    · rw [takeCode_of_gt h.codeRead hphase hv' (by rw [codeRead_nextCode]; omega)]
      exact (if_neg hle).symm

theorem decStepBody_endsIn_decStepEnds (hready : s.width.toNat ≤ s.rCnt.toNat + 8 * s.inQ.length ∨ s.inEos = true) :
    (decStepBody s).EndsIn (· = decStepEnds s) := by
  by_cases hc : s.width.toNat ≤ s.rCnt.toNat + 8 * s.inQ.length
  · exact decStepBody_endsIn_of_code h hp hc
  · rw [decStepBody_of_eos (by omega) (hready.resolve_left hc), decStepEnds, if_neg hc]
    split <;> rfl

end DecStepEnds

/-- Settles O40: DEC_STEP completes or raises; a RUN keeps its word exactly where the step completes and the phase is still
DEC_ACTIVE, and records its own word where the step raises. -/
theorem decRunIteratesDecStep : Obligations.DecRunIteratesDecStep := by
  intro s h hp hready
  have hframe := portFrame_decStepBody s
  have hends := decStepBody_endsIn_decStepEnds h hp hready
  have hphases := decStepBody_phase s hp
  cases hb : decStepBody s with
  | completes u =>
    rw [hb] at hframe hends hphases
    have hne : u.phase ≠ .error := by rcases hphases with hu | hu <;> rw [hu] <;> decide
    have hbody : commandBody .decRun s = if u.phase = .decActive then .continues u else .completes u :=
      congrArg (runIteration .decActive) hb
    refine ⟨popCq u, exec_completes (legalIn_decStep hp) hb, congrArg List.tail hframe.cq, hends, ?_⟩
    rw [popCq_phase, if_neg hne]
    split
    · next ha =>
      rw [exec_continues (legalIn_decRun hp) (hbody.trans (if_pos ha)), ← hframe.cq]
      rfl
    · next ha =>
      rw [exec_completes (legalIn_decRun hp) (hbody.trans (if_neg ha)), ← hframe.cq]
      rfl
  | raises k u =>
    rw [hb] at hframe hends
    refine ⟨_, exec_decStep_raises hp hb, congrArg List.tail hframe.cq, hends, ?_⟩
    rw [exec_decRun_raises hp hb, ← hframe.cq]
    rfl
  | continues u => exact absurd hb (decStepBody_ne_continues s u)
  | holds => exact absurd hb (decStepBody_ne_holds s ((readEnabled_iff _ s).mpr hready))
  | undefinedRead =>
    have hall := decStepBody_all h hp
    rw [hb] at hall
    exact hall.elim

end Sys2Proof.Machine

/-!
Decoding the stream of an encode pass gives the input back (43_decode.md R233, R234). The decoder's table stays one entry behind the
encoder's trie: `InStep` relates the two between codes, and `CaughtUp` where the decoder has decoded the encoder's match.
-/

namespace Sys2Proof.Machine

open Sys2Proof.Claims

/-! Runs of the block's own steps. -/

/-- Some number of steps leads from `s` to `t`. -/
def Reaches (s t : State) : Prop := ∃ n, runSteps n s = some t

theorem Reaches.refl (s : State) : Reaches s s := ⟨0, rfl⟩

theorem Reaches.head {s t u : State} (h : step s = .next t) (ht : Reaches t u) : Reaches s u := by
  obtain ⟨n, hn⟩ := ht
  exact ⟨n + 1, by rw [runSteps, h]; exact hn⟩

/-- With no turn written and the word of a command at the head of CQ, the step runs the command (44_control.md R256). -/
theorem step_eq_exec {i : Instr} {rest : List Word} {s : State} (ha : s.agenda = []) (hcq : s.cq = encode i :: rest)
    (hi : i.wellFormed = true) : step s = exec i s := by
  rw [step, takeTurn, ha]
  show cycle s = exec i s
  rw [cycle, hcq]
  simp only [decodeOfEncodeGivesTheCommandBack i hi]

theorem State.Inv.of_exec {i : Instr} {s t : State} (h : s.Inv) (he : Machine.exec i s = .next t) : t.Inv := by
  obtain ⟨u, hu, hinv⟩ := h.exec i
  rw [he] at hu
  cases hu
  exact hinv

theorem State.Inv.err_eq_none {s : State} (h : s.Inv) (hp : s.phase ≠ .error) : s.err = none := by
  by_contra hne
  exact hp (h.errorPhase.mpr hne)

/-- A pass that runs to its end: the word of the RUN `i` alone on CQ, every next step the block's, and the input ended. -/
structure Running (i : Instr) (p : Phase) (s : State) : Prop where
  inv    : s.Inv
  phase  : s.phase = p
  agenda : s.agenda = []
  cq     : s.cq = [encode i]
  inEos  : s.inEos = true

/-- A command that leaves the word of the RUN alone on CQ, in the phase of its pass, leaves the pass running. -/
theorem running_of_exec {i j : Instr} {p : Phase} {s t : State} (h : s.Inv) (ha : s.agenda = []) (heos : s.inEos = true)
    (he : exec j s = .next t) (hp : t.phase = p) (hcq : t.cq = [encode i]) : Running i p t where
  inv := h.of_exec he
  phase := hp
  agenda := (exec_next_frame he).1.agenda.trans ha
  cq := hcq
  inEos := (exec_next_frame he).1.inEos.trans heos

/-! One iteration of each RUN. -/

theorem commandBody_encRun {s u : State} (h : encStepBody s = .completes u) :
    commandBody .encRun s = if u.phase = .encActive then .continues u else .completes u :=
  congrArg (runIteration .encActive) h

theorem exec_encRun_of_byte {s : State} {b : Byte} {rest : List Byte} (hp : s.phase = .encActive) (hq : s.inQ = b :: rest) :
    exec .encRun s = .next (encByte b (popIn rest s)) :=
  exec_continues (legalIn_encRun hp)
    ((commandBody_encRun (encStepBody_of_byte hq)).trans (if_pos ((encByte_phase b (popIn rest s)).trans hp)))

theorem exec_encRun_of_eos {s : State} (hp : s.phase = .encActive) (hq : s.inQ = []) (heos : s.inEos = true) :
    exec .encRun s = .next (popCq (encFinish s)) :=
  exec_completes (legalIn_encRun hp) ((commandBody_encRun (encStepBody_of_eos hq heos)).trans (if_neg (by simp [encFinish_eq])))

/-- An iteration of DEC_RUN that raises no error does what DEC_STEP does, but for its word (R236). -/
theorem exec_decRun_of_decStep {s t : State} (h : s.Inv) (hp : s.phase = .decActive)
    (hready : s.width.toNat ≤ s.rCnt.toNat + 8 * s.inQ.length ∨ s.inEos = true)
    (he : exec .decStep s = .next t) (ht : t.phase ≠ .error) :
    exec .decRun s = .next { t with cq := if t.phase = .decActive then s.cq else s.cq.tail } := by
  obtain ⟨u, hu, -, -, hrun⟩ := decRunIteratesDecStep s h hp hready
  rw [he] at hu
  cases hu
  rw [hrun, if_neg ht]

/-! The bytes of the encoder's match. -/

/-- `q` is what the encoder holds back: the sequence of its match, or nothing (42_encode.md R193). -/
structure Held (e : State) (q : Bytes) : Prop where
  bound : e.matchReg.valid = true → Bound e.echild e.matchReg.code q
  empty : e.matchReg.valid = false → q = []

/-- More entries in the trie keep what is bound. -/
theorem Bound.of_grows {s t : State} (hg : Grows s t) {c : Code} {q : Bytes} (h : Bound s.echild c q) : Bound t.echild c q := by
  induction h with
  | single b => exact .single b
  | ext _ hf ih => exact .ext ih (hg.trie _ _ _ hf)

/-- With nothing listed DTAB binds each code to what the trie binds it to. -/
theorem bound_of_dtabAt_nil (d : Dict Code) {c : Nat} {x : Bytes} (h : dtabAt [] c = some x) : Bound d (BitVec.ofNat 24 c) x := by
  rw [dtabAt_nil] at h
  split at h
  · next hc =>
    cases h
    have hcode : singleton (BitVec.ofNat 8 c) = BitVec.ofNat 24 c :=
      BitVec.eq_of_toNat_eq (by rw [singleton_toNat, BitVec.toNat_ofNat, BitVec.toNat_ofNat]; omega)
    rw [← hcode]
    exact .single _
  · cases h

/-! The decoder beside the encoder. -/

/-- Encoder `e` and decoder `d` after the same codes, `q` being what the encoder holds back. What DTAB binds the trie binds. Before
the first code both dictionaries are fresh; after it the decoder's NEXT_CODE is one behind, or both are saturated. The entry that
the decoder has still to make is its match with the first byte that the encoder holds back (43_decode.md R229, R233). -/
structure InStep (e d : State) (q : Bytes) : Prop where
  config  : d.config = e.config
  count   : d.cntCodes = e.cntCodes
  table   : ∀ c x, dtabAt d.dtab c = some x → Bound e.echild (BitVec.ofNat 24 c) x
  fresh   : d.matchReg.valid = false → e.nextCode = 256 ∧ d.nextCode = 256
  next    : d.matchReg.valid = true → e.nextCode.toNat = min (d.nextCode.toNat + 1) (codeLimit e)
  pending : d.matchReg.valid = true → d.nextCode.toNat < codeLimit e → ∀ r, dtabAt d.dtab d.matchReg.code.toNat = some r →
              ∃ b, q.head? = some b ∧ Bound e.echild (BitVec.ofNat 24 d.nextCode.toNat) (r ++ [b])

/-- The decoder `d` has decoded the code of the match of `e`, which is bound to `q`, and `e` has still to count it and to insert
the candidate: both have made the same entries. -/
structure CaughtUp (e d : State) (q : Bytes) : Prop where
  config : d.config = e.config
  count  : d.cntCodes = e.cntCodes + 1
  table  : ∀ c x, dtabAt d.dtab c = some x → Bound e.echild (BitVec.ofNat 24 c) x
  next   : d.nextCode = e.nextCode
  valid  : d.matchReg.valid = true
  entry  : dtabAt d.dtab d.matchReg.code.toNat = some q

/-- DEC_STEP in `d` reads the code of the match of `e`, pushes `q` for it and catches up. -/
def DecodesMatch (e d : State) (q : Bytes) : Prop :=
  ∃ t, exec .decStep d = .next t ∧ t.phase = .decActive ∧ bitsTaken d.width.toNat d t ∧ t.outLog = d.outLog ++ q ∧
    CaughtUp e t q

theorem InStep.codeLimit_eq {e d : State} {q : Bytes} (h : InStep e d q) : codeLimit d = codeLimit e := by
  rw [codeLimit, codeLimit, h.config]

section DecodeTheMatch

variable {e d : State} {q : Bytes} (he : Running .encRun .encActive e) (hd : Running .decRun .decActive d) (h : InStep e d q)
include he hd h

/-- The decoder reads at the width at which the encoder writes (42_encode.md R198, 43_decode.md R230, R233). -/
theorem InStep.width_eq : d.width = e.width := by
  apply BitVec.eq_of_toNat_eq
  cases ha : e.config.adaptive with
  | false =>
    rw [hd.inv.widthFixed (by rw [hd.phase]; rfl) (by rw [h.config]; exact ha),
      he.inv.widthFixed (by rw [he.phase]; rfl) ha, h.config]
  | true =>
    rw [hd.inv.widthDecode hd.phase (by rw [h.config]; exact ha), he.inv.widthEncode he.phase ha, h.config, h.codeLimit_eq]
    cases hv : d.matchReg.valid with
    | true => rw [h.next hv]
    | false =>
      obtain ⟨hne, hnd⟩ := h.fresh hv
      have hlim := he.inv.codeLimit_ge
      have hmin : min ((256 : CodeCount).toNat + 1) (codeLimit e) = 257 := Nat.min_eq_left (by show 257 ≤ _; omega)
      rw [hne, hnd, hmin]
      exact (adaptiveWidth_257 _ he.inv.config.1).trans (adaptiveWidth_256 _ he.inv.config.1).symm

variable (hv : e.matchReg.valid = true)
include hv

/-- The code that the encoder writes is the one the decoder reads. -/
theorem InStep.reads {rest : List Bool} (hbits : unreadBits d = bitString e.width.toNat e.matchReg.code.toNat ++ rest) :
    codeArrived d ∧ nextValue d.width.toNat d = e.matchReg.code := by
  obtain ⟨-, -, hlt⟩ := encodedCodeIsInRange e he.inv he.phase hv
  rw [← h.width_eq he hd] at hbits hlt
  refine ⟨⟨hd.phase, ?_⟩, ?_⟩
  · have hlen := length_unreadBits d
    rw [hbits, List.length_append, length_bitString] at hlen
    exact Nat.le_of_add_right_le hlen.le
  · rw [nextValue, hbits, List.take_left' (length_bitString _ _), bitValue_bitString, Nat.mod_eq_of_lt hlt,
      BitVec.ofNat_toNat, BitVec.setWidth_eq]

variable (hq : Bound e.echild e.matchReg.code q)
include hq

/-- The first code of a pass is the byte that the encoder holds back (43_decode.md R227). -/
theorem InStep.decodes_first (hc : codeArrived d) (hcode : nextValue d.width.toNat d = e.matchReg.code)
    (hfirst : d.matchReg.valid = false) : DecodesMatch e d q := by
  obtain ⟨hne, hnd⟩ := h.fresh hfirst
  have hlt : e.matchReg.code.toNat < 256 := by
    have hrange := (encodedCodeIsInRange e he.inv he.phase hv).1
    rwa [hne] at hrange
  obtain rfl := hq.unique (he.inv.trie he.phase) (bound_of_lt_nSingle e.echild hlt)
  obtain ⟨t, hexec, htaken, ht⟩ := decStepFirstCodeIsItsByte d hc hd.inv.width_le hfirst (by rwa [hcode])
  rw [hcode] at ht
  refine ⟨t, hexec, ?_, htaken, ?_, ?_⟩
  · rw [ht]; exact hd.phase
  · rw [ht]
  · rw [ht]
    exact {
      config := h.config
      count := congrArg (· + 1) h.count
      table := h.table
      next := hnd.trans hne.symm
      valid := rfl
      entry := if_pos hlt }

omit hd in
/-- A later code resolves to the bytes that the encoder holds back (43_decode.md R229, R233). -/
theorem InStep.entry_eq (hlater : d.matchReg.valid = true) {c0 e0 : Byte} {cur entry : Bytes}
    (hcur : dtabAt d.dtab d.matchReg.code.toNat = some (c0 :: cur))
    (hbound : e.matchReg.code.toNat < d.nextCode.toNat → dtabAt d.dtab e.matchReg.code.toNat = some (e0 :: entry))
    (hself : e.matchReg.code.toNat = d.nextCode.toNat → e0 :: entry = (c0 :: cur) ++ [c0]) : e0 :: entry = q := by
  obtain ⟨hnext, hlim, -⟩ := encodedCodeIsInRange e he.inv he.phase hv
  have htrie := he.inv.trie he.phase
  have hmin := h.next hlater
  have hofNat : BitVec.ofNat 24 e.matchReg.code.toNat = e.matchReg.code := by simp
  rcases Nat.lt_or_ge e.matchReg.code.toNat d.nextCode.toNat with hlt | hge
  · have hentry := h.table _ _ (hbound hlt)
    rw [hofNat] at hentry
    exact hentry.unique htrie hq
  · have heq : e.matchReg.code.toNat = d.nextCode.toNat := by omega
    obtain ⟨b, hb, hentry⟩ := h.pending hlater (by omega) _ hcur
    rw [← heq, hofNat] at hentry
    obtain rfl := hq.unique htrie hentry
    obtain rfl : c0 = b := by simpa using hb
    exact hself heq

/-- A later code makes the decoder catch up (43_decode.md R229, R230, R233). -/
theorem InStep.decodes_later (hc : codeArrived d) (hcode : nextValue d.width.toNat d = e.matchReg.code)
    (hlater : d.matchReg.valid = true) : DecodesMatch e d q := by
  obtain ⟨hlt, -, -⟩ := encodedCodeIsInRange e he.inv he.phase hv
  have hmin := h.next hlater
  have hlimd : d.nextCode.toNat ≤ codeLimit d := hd.inv.passLimit (by rw [hd.phase]; rfl)
  have hlimit := h.codeLimit_eq
  obtain ⟨t, c0, e0, cur, entry, hcur, hbound, hself, hexec, htaken, ht, hentry, hunsat, hsat⟩ :=
    decStepLaterCodePushesItsEntry d hd.inv hc hlater (by rw [hcode]; omega)
  rw [hcode] at hbound hself ht hentry
  have hqe := h.entry_eq he hv hq hlater hcur hbound hself
  change d.nextCode.toNat < codeLimit d → _ at hunsat
  change codeLimit d ≤ d.nextCode.toNat → _ at hsat
  rw [hqe] at hentry ht
  have hmatch : t.matchReg = { valid := true, code := e.matchReg.code } := by rw [ht]
  refine ⟨t, hexec, ?_, htaken, ?_, ?_⟩
  · rw [ht]; exact hd.phase
  · rw [ht]
  · refine ⟨?_, ?_, fun c x hx => ?_, ?_, by rw [hmatch], by rw [hmatch]; exact hentry⟩
    · rw [ht]; exact h.config
    · rw [ht]; exact congrArg (· + 1) h.count
    · rcases Nat.lt_or_ge d.nextCode.toNat (codeLimit d) with hu | hs
      · obtain ⟨-, hdtab, -⟩ := hunsat hu
        rw [hdtab] at hx
        split at hx
        · next hceq =>
          obtain ⟨b, hb, hnew⟩ := h.pending hlater (by omega) _ hcur
          rw [← hqe] at hb
          cases hb
          cases hx
          rw [hceq]
          exact hnew
        · exact h.table c x hx
      · rw [(hsat hs).2.1] at hx
        exact h.table c x hx
    · apply BitVec.eq_of_toNat_eq
      rcases Nat.lt_or_ge d.nextCode.toNat (codeLimit d) with hu | hs
      · rw [(hunsat hu).1]; omega
      · rw [(hsat hs).1]; omega

/-- An iteration of DEC_RUN on the code of the encoder's match pushes the bytes that the encoder holds back. -/
theorem InStep.decodes {rest : List Bool} (hbits : unreadBits d = bitString e.width.toNat e.matchReg.code.toNat ++ rest) :
    ∃ t, exec .decRun d = .next t ∧ Running .decRun .decActive t ∧ unreadBits t = rest ∧ t.outLog = d.outLog ++ q ∧
      CaughtUp e t q := by
  obtain ⟨hc, hcode⟩ := h.reads he hd hv hbits
  obtain ⟨t, hexec, hp, ⟨hrest, -⟩, hout, hcaught⟩ : DecodesMatch e d q := by
    cases hdv : d.matchReg.valid with
    | false => exact h.decodes_first he hd hv hq hc hcode hdv
    | true => exact h.decodes_later he hd hv hq hc hcode hdv
  have hrun := exec_decRun_of_decStep hd.inv hd.phase (.inl hc.2) hexec (by rw [hp]; decide)
  rw [if_pos hp] at hrun
  refine ⟨_, hrun, running_of_exec hd.inv hd.agenda hd.inEos hrun hp hd.cq, ?_, hout, ?_⟩
  · refine hrest.trans ?_
    rw [hbits, h.width_eq he hd, List.drop_left' (length_bitString _ _)]
  · exact ⟨hcaught.config, hcaught.count, hcaught.table, hcaught.next, hcaught.valid, hcaught.entry⟩

end DecodeTheMatch

/-- An iteration of DEC_RUN with only padding left ends the pass at a code boundary: fewer than 8 bits are no code, and no byte
is queued (43_decode.md R226, R234). -/
theorem exec_decRun_of_padding {d : State} (hd : Running .decRun .decActive d) (hfew : (unreadBits d).length < 8) :
    ∃ u, exec .decRun d = .next u ∧ u.phase = .decDone ∧ u.err = none ∧ u.cq = [] ∧ u.outLog = d.outLog ∧
      u.cntCodes = d.cntCodes ∧ u.result = resultNodata false := by
  have h9 := hd.inv.nine_le_width (.inr hd.phase)
  have hbits : d.rCnt.toNat + 8 * d.inQ.length < 8 := by rwa [length_unreadBits] at hfew
  have hempty : d.inQ = [] := List.length_eq_zero_iff.mp (by omega)
  obtain ⟨t, hexec, ht⟩ := decStepAtTheEndOfInput d hd.phase (by omega) hd.inEos
  simp only [if_pos hempty] at ht
  have hp : t.phase = .decDone := by rw [ht]
  have hrun := exec_decRun_of_decStep hd.inv hd.phase (.inr hd.inEos) hexec (by rw [hp]; decide)
  rw [if_neg (by rw [hp]; decide), hd.cq] at hrun
  refine ⟨_, hrun, hp, ?_, rfl, ?_, ?_, ?_⟩
  · exact (hd.inv.of_exec hrun).err_eq_none (by rw [hp]; decide)
  · rw [ht]
  · rw [ht]
  · rw [ht, hempty]; rfl

/-! The encoder's steps keep the relation. -/

/-- A byte that the encoder takes without writing a code joins the bytes held back; the decoder does not move. -/
theorem InStep.extend {e e' d : State} {q : Bytes} (h : InStep e d q) (b : Byte) (hconfig : e'.config = e.config)
    (hcount : e'.cntCodes = e.cntCodes) (htrie : e'.echild = e.echild) (hnext : e'.nextCode = e.nextCode) :
    InStep e' d (q ++ [b]) where
  config := h.config.trans hconfig.symm
  count := h.count.trans hcount.symm
  table := by rw [htrie]; exact h.table
  fresh := by rw [hnext]; exact h.fresh
  next := by rw [hnext, codeLimit, hconfig]; exact h.next
  pending := by
    rw [htrie, codeLimit, hconfig]
    intro hv hu r hr
    obtain ⟨x, hx, hbound⟩ := h.pending hv hu r hr
    exact ⟨x, by rw [List.head?_append, hx]; rfl, hbound⟩

/-- Counting the code and inserting the candidate puts the encoder one entry ahead, and the byte begins a new match. -/
theorem CaughtUp.insert {e e' d : State} {q : Bytes} {b : Byte} (h : CaughtUp e d q) (hgrows : Grows e e')
    (hconfig : e'.config = e.config) (hcount : e'.cntCodes = e.cntCodes + 1) (hq : Bound e.echild e.matchReg.code q)
    (hlimit : e.nextCode.toNat ≤ codeLimit e)
    (hunsat : e.nextCode.toNat < codeLimit e → e'.nextCode.toNat = e.nextCode.toNat + 1 ∧
      eChild e.matchReg.code b e' = some (BitVec.ofNat 24 e.nextCode.toNat))
    (hsat : codeLimit e ≤ e.nextCode.toNat → e'.nextCode = e.nextCode) : InStep e' d [b] := by
  have hlim : codeLimit e' = codeLimit e := by rw [codeLimit, codeLimit, hconfig]
  refine ⟨h.config.trans hconfig.symm, h.count.trans hcount.symm, fun c x hx => (h.table c x hx).of_grows hgrows, ?_, ?_, ?_⟩
  · intro hv
    rw [h.valid] at hv
    cases hv
  · intro _
    rw [h.next, hlim]
    rcases Nat.lt_or_ge e.nextCode.toNat (codeLimit e) with hu | hs
    · rw [(hunsat hu).1]; omega
    · rw [hsat hs]; omega
  · intro _ hu r hr
    rw [h.next, hlim] at hu
    rw [h.entry] at hr
    cases hr
    rw [h.next]
    exact ⟨b, rfl, (hq.of_grows hgrows).ext (hunsat hu).2⟩

/-! The whole pass. -/

/-- The encode pass that runs in `e` ends in `t`, and writes `bits` until then. -/
structure EncodesTo (e : State) (bits : List Bool) (t : State) : Prop where
  reaches : Reaches e t
  phase   : t.phase = .encDone
  err     : t.err = none
  cq      : t.cq = []
  outLog  : ∃ l, t.outLog = e.outLog ++ l
  wCnt    : t.wCnt = 0
  written : writtenBits t = writtenBits e ++ bits

/-- A decoder in step with `e`, which holds `q` back, decodes `bits` to `q` and `input`, with the code count of `t`. -/
def DecodesTo (e : State) (q input : Bytes) (bits : List Bool) (t : State) : Prop :=
  ∀ d, Running .decRun .decActive d → InStep e d q → unreadBits d = bits →
    ∃ u, Reaches d u ∧ u.phase = .decDone ∧ u.err = none ∧ u.cq = [] ∧ u.outLog = d.outLog ++ (q ++ input) ∧
      u.cntCodes = t.cntCodes ∧ u.result = resultNodata false

/-- The encode pass that runs in `e`, holding `q` back and with `input` to come, ends, and what it writes is decoded to both. -/
def RoundTrip (e : State) (q input : Bytes) : Prop := ∃ t bits, EncodesTo e bits t ∧ DecodesTo e q input bits t

theorem Running.step_eq {i : Instr} {p : Phase} {s : State} (h : Running i p s) (hi : i.wellFormed = true) :
    step s = exec i s := step_eq_exec h.agenda h.cq hi

/-- One iteration of ENC_RUN before the rest of the pass. -/
theorem EncodesTo.head {e e' t : State} {bits bits' : List Bool} (he : Running .encRun .encActive e)
    (hexec : exec .encRun e = .next e') (hwritten : writtenBits e' = writtenBits e ++ bits) (h : EncodesTo e' bits' t) :
    EncodesTo e (bits ++ bits') t where
  reaches := h.reaches.head ((he.step_eq rfl).trans hexec)
  phase := h.phase
  err := h.err
  cq := h.cq
  outLog := by
    obtain ⟨l, hl⟩ := (exec_next_frame hexec).1.outLog
    obtain ⟨m, hm⟩ := h.outLog
    exact ⟨l ++ m, by rw [hm, hl, List.append_assoc]⟩
  wCnt := h.wCnt
  written := by rw [h.written, hwritten, List.append_assoc]

@[simp] theorem encByte_inQ (b : Byte) (s : State) : (encByte b s).inQ = s.inQ := by
  unfold encByte
  split
  · split
    · rfl
    · rw [setMatch_inQ, encInsert_frame, emitMatch_frame]
  · rfl

section EncodeRun

variable {e : State} {q rest : Bytes} {b : Byte} (he : Running .encRun .encActive e) (hin : e.inQ = b :: rest)
include he hin

theorem Running.encByte : Running .encRun .encActive (encByte b (popIn rest e)) :=
  running_of_exec he.inv he.agenda he.inEos (exec_encRun_of_byte he.phase hin) ((encByte_phase b (popIn rest e)).trans he.phase)
    ((portFrame_encByte b (popIn rest e)).cq.trans he.cq)

/-- What a byte that ends the match writes, and what it makes of the trie and the counters (42_encode.md R195 to R197). -/
theorem Running.encByte_ends {e' : State} (he' : Machine.encByte b (popIn rest e) = e') (hv : e.matchReg.valid = true)
    (hnone : eChild e.matchReg.code b e = none) :
    writtenBits e' = writtenBits e ++ bitString e.width.toNat e.matchReg.code.toNat ∧ e'.config = e.config ∧
      e'.cntCodes = e.cntCodes + 1 ∧ e'.matchReg = { valid := true, code := singleton b } ∧
      (e.nextCode.toNat < codeLimit e → e'.nextCode.toNat = e.nextCode.toNat + 1 ∧
        eChild e.matchReg.code b e' = some (BitVec.ofNat 24 e.nextCode.toNat)) ∧
      (codeLimit e ≤ e.nextCode.toNat → e'.nextCode = e.nextCode) := by
  subst he'
  obtain ⟨t, l, hexec, ht, hbits, hunsat, hsat⟩ := encStepEndsTheMatch e b rest he.inv he.phase hv hin hnone
  rw [exec_encStep_of_byte he.phase hin, Host.Outcome.next.injEq] at hexec
  have hconfig : t.config = e.config := by rw [ht]
  have hcount : t.cntCodes = e.cntCodes + 1 := by rw [ht]
  have hmatch : t.matchReg = { valid := true, code := singleton b } := by rw [ht]; rfl
  rw [← hexec] at hbits hunsat hsat hconfig hcount hmatch
  refine ⟨hbits, hconfig, hcount, hmatch, fun hu => ?_, fun hs => (hsat hs).1⟩
  obtain ⟨hnext, hchild, -⟩ := hunsat hu
  exact ⟨hnext, (hchild e.matchReg.code b).trans (if_pos ⟨rfl, rfl⟩)⟩

omit he hin in
/-- A byte that does not end the match moves the match to the code of the bytes held back with it, and writes nothing. -/
theorem Held.encByte_eq (hq : Held e q) (hchild : e.matchReg.valid = true → eChild e.matchReg.code b e ≠ none) :
    ∃ c, Machine.encByte b (popIn rest e) = setMatch c (popIn rest e) ∧ Bound e.echild c (q ++ [b]) := by
  cases hv : e.matchReg.valid with
  | false =>
    refine ⟨singleton b, encByte_of_emptyMatch (s := popIn rest e) hv, ?_⟩
    rw [hq.empty hv]
    exact .single b
  | true =>
    obtain ⟨c, hc⟩ := Option.ne_none_iff_exists'.mp (hchild hv)
    exact ⟨c, encByte_of_eChild_some (s := popIn rest e) hv hc, (hq.bound hv).ext hc⟩

/-- The pass from a byte that does not end the match, given the pass behind it. -/
theorem Running.encodes_extend (hq : Held e q) (hchild : e.matchReg.valid = true → eChild e.matchReg.code b e ≠ none)
    (ih : Held (Machine.encByte b (popIn rest e)) (q ++ [b]) →
      RoundTrip (Machine.encByte b (popIn rest e)) (q ++ [b]) rest) : RoundTrip e q (b :: rest) := by
  have hexec := exec_encRun_of_byte he.phase hin
  obtain ⟨c, hbyte, hbound⟩ := hq.encByte_eq (rest := rest) hchild
  rw [hbyte] at hexec ih
  obtain ⟨t, bits, henc, hdec⟩ := ih ⟨fun _ => hbound, nofun⟩
  refine ⟨t, bits, henc.head he hexec (bits := []) (List.append_nil _).symm, fun d hd hstep hbits => ?_⟩
  obtain ⟨u, hreach, hp, herr, hcq, hout, hrest⟩ := hdec d hd (hstep.extend b rfl rfl rfl rfl) hbits
  exact ⟨u, hreach, hp, herr, hcq, by rw [hout, List.append_assoc]; rfl, hrest⟩

/-- The pass from a byte that ends the match, given the pass behind it: the code written now is decoded first. -/
theorem Running.encodes_end (hq : Held e q) (hv : e.matchReg.valid = true) (hnone : eChild e.matchReg.code b e = none)
    (ih : Held (Machine.encByte b (popIn rest e)) [b] → RoundTrip (Machine.encByte b (popIn rest e)) [b] rest) :
    RoundTrip e q (b :: rest) := by
  have hexec := exec_encRun_of_byte he.phase hin
  have hgrows := exec_grows he.inv hexec (by decide) (by decide) (by decide)
  obtain ⟨hwritten, hconfig, hcount, hmatch, hunsat, hsat⟩ := he.encByte_ends hin rfl hv hnone
  generalize Machine.encByte b (popIn rest e) = e' at *
  obtain ⟨t, bits, henc, hdec⟩ := ih ⟨fun _ => by rw [hmatch]; exact .single b, fun h => by rw [hmatch] at h; cases h⟩
  refine ⟨t, _, henc.head he hexec hwritten, fun d hd hstep hbits => ?_⟩
  obtain ⟨d', hexec', hd', hrest, hout', hcaught⟩ := hstep.decodes he hd hv (hq.bound hv) hbits
  have hstep' := hcaught.insert hgrows hconfig hcount (hq.bound hv) (he.inv.passLimit (by rw [he.phase]; rfl)) hunsat hsat
  obtain ⟨u, hreach, hp, herr, hcq, hout, hrest⟩ := hdec d' hd' hstep' hrest
  exact ⟨u, hreach.head ((hd.step_eq rfl).trans hexec'), hp, herr, hcq, by rw [hout, hout', List.append_assoc]; rfl, hrest⟩

end EncodeRun

/-- The end of the pass: the pending code, if any, is the last one decoded, and the padding ends the decode pass. -/
theorem Running.encodes_finish {e : State} {q : Bytes} (he : Running .encRun .encActive e) (hin : e.inQ = []) (hq : Held e q) :
    RoundTrip e q [] := by
  obtain ⟨t, l, k, hexec, ht, hk, hwritten⟩ := encStepFinishesThePass e he.phase he.inv.accumulator hin he.inEos
  rw [exec_encStep_of_eos he.phase hin he.inEos, ← exec_encRun_of_eos he.phase hin he.inEos] at hexec
  have hphase : t.phase = .encDone := by rw [ht]
  have hcount : t.cntCodes = if e.matchReg.valid then e.cntCodes + 1 else e.cntCodes := by rw [ht]
  have hfew : (List.replicate k false).length < 8 := by rwa [List.length_replicate]
  refine ⟨t, _, ⟨(Reaches.refl t).head ((he.step_eq rfl).trans hexec), hphase, ?_, ?_, ⟨l, by rw [ht]⟩, by rw [ht],
    hwritten.trans (List.append_assoc _ _ _)⟩, fun d hd hstep hbits => ?_⟩
  · exact (he.inv.of_exec hexec).err_eq_none (by rw [hphase]; decide)
  · rw [ht]; exact congrArg List.tail he.cq
  · cases hv : e.matchReg.valid with
    | true =>
      rw [hv, if_pos rfl] at hbits hcount
      obtain ⟨d', hexec', hd', hrest, hout', hcaught⟩ := hstep.decodes he hd hv (hq.bound hv) hbits
      obtain ⟨u, hexec'', hp, herr, hcq, hout, hcnt, hresult⟩ := exec_decRun_of_padding hd' (by rwa [hrest])
      refine ⟨u, ((Reaches.refl u).head ((hd'.step_eq rfl).trans hexec'')).head ((hd.step_eq rfl).trans hexec'),
        hp, herr, hcq, ?_, ?_, hresult⟩
      · rw [hout, hout', List.append_nil]
      · rw [hcnt, hcaught.count, hcount]
    | false =>
      rw [hv] at hbits hcount
      obtain ⟨u, hexec', hp, herr, hcq, hout, hcnt, hresult⟩ := exec_decRun_of_padding hd (by rw [hbits]; exact hfew)
      refine ⟨u, (Reaches.refl u).head ((hd.step_eq rfl).trans hexec'), hp, herr, hcq, ?_, ?_, hresult⟩
      · rw [hout, hq.empty hv]; exact (List.append_nil _).symm
      · rw [hcnt, hstep.count, hcount]; rfl

/-- Every encode pass ends, and a decoder in step with it gives back what it holds and what it has still to read: by induction on
the input. -/
theorem Running.roundTrip (input : Bytes) {e : State} {q : Bytes} (he : Running .encRun .encActive e) (hin : e.inQ = input)
    (hq : Held e q) : RoundTrip e q input := by
  induction input generalizing e q with
  | nil => exact he.encodes_finish hin hq
  | cons b rest ih =>
    have ih' := fun {q'} => ih (q := q') (he.encByte hin) (encByte_inQ b (popIn rest e))
    by_cases hend : e.matchReg.valid = true ∧ eChild e.matchReg.code b e = none
    · exact he.encodes_end hin hq hend.1 hend.2 ih'
    · exact he.encodes_extend hin hq (fun hv hnone => hend ⟨hv, hnone⟩) ih'

/-- Settles O41: the STARTs put encoder and decoder in step with nothing held back, the header byte being the first of the stream
and read by DEC_START; behind it the stream is the bits that the encode pass writes, completed to whole bytes. -/
theorem decodingAnEncodedStreamGivesTheInputBack : Obligations.DecodingAnEncodedStreamGivesTheInputBack := by
  intro s input h ha hcq hin heos
  have hexec := encStartBeginsAPass s
  have hstart := (step_eq_exec ha hcq rfl).trans hexec
  have he := running_of_exec (i := .encRun) h ha heos hexec rfl (congrArg List.tail hcq)
  obtain ⟨t, bits, henc, hdec⟩ := he.roundTrip input hin ⟨nofun, fun _ => rfl⟩
  obtain ⟨l, hout⟩ := henc.outLog
  have hbits : bytesBits l = bits := by
    have hwritten := henc.written
    rwa [writtenBits_of_wCnt_zero henc.wCnt, writtenBits_of_wCnt_zero rfl, hout, bytesBits_append,
      List.append_cancel_left_eq] at hwritten
  obtain ⟨n, hn⟩ := henc.reaches.head hstart
  refine ⟨n, t, s.config.maxBits :: l, hn, henc.phase, henc.err, henc.cq, ?_, fun d hd hda hdcq hdin hdeos hconfig => ?_⟩
  · rw [hout]; exact List.append_assoc _ [_] _
  · have hexec' := decStartReadsTheHeader d _ l hdin
    have hd' := running_of_exec (i := .decRun) hd hda hdeos hexec' rfl (congrArg List.tail hdcq)
    obtain ⟨u, hreach, hrest⟩ :=
      hdec _ hd' ⟨hconfig, rfl, fun c x => bound_of_dtabAt_nil _, fun _ => ⟨rfl, rfl⟩, nofun, nofun⟩ hbits
    obtain ⟨m, hm⟩ := hreach.head ((step_eq_exec hda hdcq rfl).trans hexec')
    exact ⟨m, u, hm, hrest⟩

end Sys2Proof.Machine

/-!
The control commands (44_control.md): the cycle that runs the decoded command, and what NOP, SOFT_RESET and a legal CFG answer.
-/

namespace Sys2Proof.Machine

/-! The command cycle (44_control.md R256). -/

/-- A cycle of the block runs the command that the word at the head of CQ decodes to. -/
theorem cycle_of_decode {cw : Word} {rest : List Word} {i : Instr} {s : State} (hcq : s.cq = cw :: rest)
    (hd : decode cw = .ok i) : cycle s = exec i s := by
  rw [cycle, hcq]
  simp only [hd]

/-- Settles O5: on both turns the step is a cycle, and taking the turn off the agenda leaves CQ. -/
theorem stepRunsTheDecodedCommand : Obligations.StepRunsTheDecodedCommand := by
  intro s cw rest i hcq hd
  refine ⟨fun ha => ?_, fun l ha => ?_⟩
  · rw [step, takeTurn, ha]
    exact cycle_of_decode hcq hd
  · rw [step, takeTurn, ha]
    exact cycle_of_decode (s := { s with agenda := l }) hcq hd

/-! The commands (44_control.md R251, R253, R254). -/

/-- Settles O12: NOP is legal in every phase, and its body completes with the state as it is. -/
theorem nopChangesNothing : Obligations.NopChangesNothing :=
  fun s => exec_completes (t := s) rfl rfl

/-- Settles O13: SOFT_RESET is legal in every phase, and its body completes with the block reset. -/
theorem softResetGivesTheResetValues : Obligations.SoftResetGivesTheResetValues :=
  fun s => exec_completes (t := resetBlock s) rfl rfl

/-- CFG is legal outside a pass (44_control.md R255). -/
theorem legalIn_cfg {p : Phase} (he : p ≠ .encActive) (hd : p ≠ .decActive) (m : BitVec 8) (a : Bool) :
    legalIn (.cfg m a) p = true := by
  have hp : p.inPass = false := by
    rw [Bool.eq_false_iff, Ne, inPass_iff]
    exact fun h => h.elim he hd
  rw [legalIn, hp]
  rfl

/-- Settles O14: CFG is legal outside a pass, and with MAX_BITS in range its body completes with CONFIG written. -/
theorem cfgWritesConfigOnly : Obligations.CfgWritesConfigOnly := by
  intro s m a he hd hlow hhigh
  have hrange : legalMaxBits m s = true := (legalMaxBits_iff m s).mpr ⟨hlow, hhigh⟩
  exact exec_completes (t := setConfig m a s) (legalIn_cfg he hd m a) (if_pos hrange)

end Sys2Proof.Machine

/-!
The errors (60_exceptions.md): which words and commands raise an error with no other effect, and that ERROR is left by its exits alone.
-/

namespace Sys2Proof.Machine

open Sys2Proof.Claims

/-! The causes of an error (60_exceptions.md R272, R274, R275). -/

/-- A cycle with a word at the head of CQ that decodes as ILLEGAL takes the error entry. -/
theorem cycle_of_decode_error {cw : Word} {rest : List Word} {e : Illegal} {s : State} (hcq : s.cq = cw :: rest)
    (hd : decode cw = .error e) : cycle s = .next (afterError .illegalCmd cw s) := by
  rw [cycle, hcq]
  simp only [hd, popCq_errorEntry]

/-- Settles O6: with an empty agenda the step is a cycle, and the cycle takes the error entry. -/
theorem illegalWordRaisesIllegalCmd : Obligations.IllegalWordRaisesIllegalCmd := by
  intro s cw rest e ha hcq hd
  rw [step, takeTurn, ha]
  exact cycle_of_decode_error hcq hd

/-- Settles O7: the phase check comes before the body of the command. -/
theorem wrongPhaseRaisesBadPhase : Obligations.WrongPhaseRaisesBadPhase := by
  intro i s h
  rw [exec_eq, runCommand_illegal ((notLegal_iff i s.phase).mp h), popCq_errorEntry]

/-- Settles O8: outside a pass CFG passes the phase check, and its body raises from the state as it is. -/
theorem cfgOutOfRangeRaisesBadConfig : Obligations.CfgOutOfRangeRaisesBadConfig := by
  intro s m a he hd hm
  have hbody : cfgBody m a s = .raises .badConfig s := if_neg (by rwa [legalMaxBits_iff])
  rw [exec_raises (legalIn_cfg he hd m a) hbody, popCq_errorEntry]

/-! The phase ERROR (60_exceptions.md R279, R280, R282). -/

/-- A further error in ERROR changes nothing but CQ, which its word leaves (60_exceptions.md R282). -/
theorem afterError_of_error {s : State} (hp : s.phase = .error) (k : ErrKind) (cw : Word) : afterError k cw s = popCq s := by
  rw [← popCq_errorEntry, errorEntry, if_pos hp]

/-- A command that is not legal in ERROR is dropped there (60_exceptions.md R280). -/
theorem exec_dropped_of_error {i : Instr} {s : State} (hp : s.phase = .error) (hl : legalIn i .error = false) :
    exec i s = .next (popCq s) := by
  have hi : notLegal i s.phase := hp ▸ (notLegal_iff i .error).mpr hl
  rw [wrongPhaseRaisesBadPhase i s hi, afterError_of_error hp]

/-- Settles O10: NOP and CFG are legal in ERROR, and an illegal CFG raises a further error; the other commands are not legal there. -/
theorem errorStateIsFrozenUntilAnExit : Obligations.ErrorStateIsFrozenUntilAnExit := by
  intro s hp
  have hdropped : ∀ i ∈ [Instr.encStep, .encRun, .decStep, .decRun, .bsFlush], legalIn i .error = false := by decide
  refine ⟨List.forall_mem_cons.mpr ⟨nopChangesNothing s, fun i hi => exec_dropped_of_error hp (hdropped i hi)⟩,
    fun w v => exec_dropped_of_error hp rfl, fun w => exec_dropped_of_error hp rfl, fun m a => ?_⟩
  have he : s.phase ≠ .encActive := by simp [hp]
  have hd : s.phase ≠ .decActive := by simp [hp]
  by_cases hm : 9 ≤ m.toNat ∧ m.toNat ≤ s.params.maxbLimit
  · rw [if_pos hm]
    exact cfgWritesConfigOnly s m a he hd hm.1 hm.2
  · rw [if_neg hm, cfgOutOfRangeRaisesBadConfig s m a he hd hm, afterError_of_error hp]
    rfl

/-- The arrows that leave ERROR (60_exceptions.md R279): the others start in an active pass. -/
theorem exit_of_entersPhase {s : State} {p : Phase} (h : entersPhase s p) (hs : s.phase = .error) (hp : p ≠ .error) :
    hostMakes .hardReset s ∨ ∃ i ∈ [Instr.softReset, .encStart, .decStart], headIs i s := by
  cases p with
  | idle => exact h.imp_right fun hi => ⟨.softReset, by simp, hi⟩
  | encActive => exact .inr ⟨.encStart, by simp, h⟩
  | decActive => exact .inr ⟨.decStart, by simp, h.1⟩
  | encDone | decDone => exact nomatch hs.symm.trans h.1
  | error => exact absurd rfl hp

/-- Settles O11: a phase other than ERROR is entered from ERROR only along an exit, and each of the three commands has one word. -/
theorem onlyErrorExitsLeaveError : Obligations.OnlyErrorExitsLeaveError := by
  intro s t hs hstep ht
  have hwords : ∀ i ∈ [Instr.softReset, .encStart, .decStart],
      encode i = 0x01000000 ∨ encode i = 0x04000000 ∨ encode i = 0x08000000 := by decide
  have hmoves : entersPhase s t.phase := phaseMovesOnlyAsListed s t hstep (by rwa [hs])
  refine (exit_of_entersPhase hmoves hs ht).imp_right ?_
  rintro ⟨i, hi, cw, rest, hcq, hd⟩
  obtain ⟨-, rfl⟩ := encodeOfDecodeGivesTheWordBack cw i hd
  exact ⟨encode i, rest, hcq, hwords i hi⟩

end Sys2Proof.Machine

/-!
Reset and hazards (70_reset_and_hazards.md): once the input of a pass is ended, IN only shrinks and InEOS stays that pass's (R309).
-/

namespace Sys2Proof.Machine

open Sys2Proof.Claims

/-! The moves of the host in a pass whose own input is ended (20_memory.md R62, R309; log 9). -/

/-- Neither the bytes on IN, nor InEOS, nor whose InEOS is differs between the two states. -/
structure InputStays (s t : State) : Prop where
  inEos    : t.inEos = s.inEos
  inQ      : t.inQ = s.inQ
  eosOwner : t.eosOwner = s.eosOwner

/-- Every move that is made leaves the input: a push, a clear and a discard are refused there, and setting InEOS again repeats it. -/
theorem hostMove_inputStays {m : HostMove} {s t : State} (heos : s.inEos = true) (hended : inputEnded s = true)
    (h : hostMove m s = .next t) : InputStays s t := by
  obtain ⟨hp, ho⟩ := (inputEnded_iff s).mp hended
  have hpass : s.phase.inPass = true := (inPass_iff s.phase).mpr hp
  obtain rfl := eq_hostEffect_of_next h
  cases m with
  | writeReg size off w => rw [hostEffect, windowWrite_eq]; exact ⟨rfl, rfl, rfl⟩
  | setEos => exact ⟨heos.symm, rfl, by rw [hostEffect, setEos_eosOwner, if_pos hpass, ho]⟩
  | pushIn b => simp [hostMove, heos, hpass] at h
  | clearEos | discardIn => simp [hostMove, hended] at h
  | readReg | drainOut | hardReset => exact ⟨rfl, rfl, rfl⟩

/-! A cycle of the block and the owner of InEOS (log 9). -/

/-- A cycle leaves this pass's InEOS its own, unless a START at the head of CQ makes it left over. -/
theorem cycle_eosOwner_of_thisPass {s t : State} (ho : s.eosOwner = some .thisPass) (h : cycle s = .next t) :
    t.eosOwner = some .thisPass ∨ t.eosOwner = some .earlierPass ∧ (headIs .encStart s ∨ headIs .decStart s) := by
  obtain ⟨-, -, hsame | ⟨cw, rest, i, hcq, hd, hsame | ⟨hstart, hmoved⟩⟩⟩ := cycle_next_frame h
  · exact .inl (hsame.trans ho)
  · exact .inl (hsame.trans ho)
  · exact .inr ⟨by rw [hmoved, ho]; rfl, headIs_or_headIs ⟨cw, rest, hcq, hd⟩ hstart⟩

/-- Settles O58: a cycle takes bytes from the head of IN alone, the host's moves leave IN, and a START moves the owner on. -/
theorem endedInputGrowsNoMoreInItsPass : Obligations.EndedInputGrowsNoMoreInItsPass := by
  refine ⟨fun s t hinv hp ho hstep => ?_, fun s t b rest heos ho hq hstart => ?_⟩
  · have heos : s.inEos = true := by rw [← hinv.eosOwner, ho]; rfl
    rcases step_next hstep with ⟨l, -, hc⟩ | ⟨m, rest, -, -, hm⟩
    · have hframe := (cycle_next_frame hc).1
      exact ⟨hframe.inEos.trans heos, hframe.inQ, cycle_eosOwner_of_thisPass (s := { s with agenda := l }) ho hc⟩
    · have hstays := hostMove_inputStays (s := { s with agenda := rest }) heos ((inputEnded_iff _).mpr ⟨hp, ho⟩) hm
      exact ⟨hstays.inEos.trans heos, ⟨[], hstays.inQ.symm⟩, .inl (hstays.eosOwner.trans ho)⟩
  · have howner : s.eosOwner.map EosOwner.atStart = some .thisPass := by rw [ho]; rfl
    rcases hstart with henc | hdec
    · rw [encStartBeginsAPass s] at henc
      cases henc
      exact ⟨.inl rfl, heos, howner⟩
    · rw [decStartReadsTheHeader s b rest hq] at hdec
      cases hdec
      exact ⟨.inr rfl, heos, howner⟩

end Sys2Proof.Machine
